-- ==== Sys2Proof/Word.lean ====
section
/-! DEFINITION. The word types of the framer: a byte, a wire opcode, a pair and a host command word
(00_scope.md R14: every quantity is unsigned). -/

namespace Sys2Proof

/-- One byte: a shadow register, a device register, a segment pattern, an operand field. -/
abbrev Byte := BitVec 8

/-- A wire opcode, the address of a device register (30_encoding.md R80, field `p[11:8]`). -/
abbrev Opcode := BitVec 4

/-- The 16 bits one device receives in one frame (30_encoding.md R80). -/
abbrev Pair := BitVec 16

/-- A host command word (30_encoding.md R91). -/
abbrev CmdWord := BitVec 32

end Sys2Proof
end

