-- ==== Sys2Proof/Config.lean ====
section
/-! DEFINITION. What is fixed for a machine: the constants of 00_scope.md R6 and R7, the parameters of R9 and R11
(which the model carries as data in State, so that every statement holds for every value), and the spec's fixture table. -/

namespace Sys2Proof.Config

/-- The chain holds at most 8 devices (00_scope.md R6). -/
abbrev maxDev : Nat := 8

/-- Each device has 8 rows (00_scope.md R7). -/
abbrev rows : Nat := 8

/-- Each row has 8 columns (00_scope.md R7). -/
abbrev cols : Nat := 8

/-- Entries 0 to 15 of the fixture `SEGROM_T` (95_test_vectors.md section 1). Entries 0, 1 and 8 are the source's
(40_segment_encoder.md R112); the others are the customary values of R113 and R116 (PRESUMED, log 1). -/
def digitPatterns : Vector Byte 16 :=
  #v[0x7E#8, 0x30#8, 0x6D#8, 0x79#8, 0x33#8, 0x5B#8, 0x5F#8, 0x70#8,
     0x7F#8, 0x7B#8, 0x77#8, 0x1F#8, 0x0D#8, 0x3D#8, 0x4F#8, 0x47#8]

/-- The fixture `SEGROM_T` (95_test_vectors.md section 1): entries 16 to 127 are blank there. -/
def segromT : Vector Byte 128 := digitPatterns ++ Vector.replicate 112 0x00#8

end Sys2Proof.Config

namespace Sys2Proof

/-- The build and environment parameters the spec makes arguments of the model (10_state.md R37: they are not state).
State carries them as constant data; nothing writes them. `P` is the length of the chain (State.chain). -/
structure Params where
  /-- `HAS_SHADOW` (00_scope.md R9): true is the full capability set, false the minimal one. -/
  hasShadow : Bool
  /-- `SEGROM` (00_scope.md R11, 40_segment_encoder.md R110): the 128-entry segment table. -/
  segRom : Vector Byte 128
deriving DecidableEq, Repr

/-- SEG_P1 (40_segment_encoder.md R112): the entries the source fixes. -/
abbrev Params.SegP1 (p : Params) : Prop :=
  p.segRom[0] = 0x7E#8 ∧ p.segRom[1] = 0x30#8 ∧ p.segRom[8] = 0x7F#8

/-- SEG_P3 (40_segment_encoder.md R114): the space is blank. -/
abbrev Params.SegP3 (p : Params) : Prop := p.segRom[32] = 0x00#8

/-- SEG_P4 (40_segment_encoder.md R115): bit 7 of every entry is 0. A named assumption of the parameter, never built in. -/
abbrev Params.SegP4 (p : Params) : Prop := ∀ i : Fin 128, p.segRom[i].getLsbD 7 = false

end Sys2Proof
end

