-- ==== Sys2Proof/Syntax.lean ====
section
/-! DEFINITION. The instructions: one constructor per row of spec/opcode_table.json, the 16 wire opcodes (which a chain
device executes at the latch) and the 11 host commands. -/

namespace Sys2Proof

/-- An instruction of either level (00_scope.md R2).

A WIRE OPCODE carries `d`, the position of the device whose shift register holds the pair at the latch, and `v`, the data
byte (42_wire_opcodes.md: "`d` is the device whose shift register holds the pair at the latch"). The position is not a bit of
the pair: a device is "addressed by position" (20_memory.md R54). The pair's upper four bits are ignored (30_encoding.md R81).

A HOST COMMAND carries the operand fields it uses (30_encoding.md R93), each at the width of its field: `a` = A, `b` = B,
`c` = C, `f` = F. A field a command does not use is ignored by it (R91) and is no operand here. -/
inductive Instr where
  /-- NOOP, opcode 0 (R150). -/
  | noop (d : Nat) (v : Byte)
  /-- DIGIT0, opcode 1 (R151). -/
  | digit0 (d : Nat) (v : Byte)
  /-- DIGIT1, opcode 2 (R152). -/
  | digit1 (d : Nat) (v : Byte)
  /-- DIGIT2, opcode 3 (R153). -/
  | digit2 (d : Nat) (v : Byte)
  /-- DIGIT3, opcode 4 (R154). -/
  | digit3 (d : Nat) (v : Byte)
  /-- DIGIT4, opcode 5 (R155). -/
  | digit4 (d : Nat) (v : Byte)
  /-- DIGIT5, opcode 6 (R156). -/
  | digit5 (d : Nat) (v : Byte)
  /-- DIGIT6, opcode 7 (R157). -/
  | digit6 (d : Nat) (v : Byte)
  /-- DIGIT7, opcode 8 (R158). -/
  | digit7 (d : Nat) (v : Byte)
  /-- DECODEMODE, opcode 9 (R159). -/
  | decodeMode (d : Nat) (v : Byte)
  /-- INTENSITY, opcode 10 (R160). -/
  | intensity (d : Nat) (v : Byte)
  /-- SCANLIMIT, opcode 11 (R161). -/
  | scanLimit (d : Nat) (v : Byte)
  /-- SHUTDOWN on the wire, opcode 12, table row SHUTDOWN_OP (R162). -/
  | shutdownOp (d : Nat) (v : Byte)
  /-- RSVD13, opcode 13 (R163). -/
  | rsvd13 (d : Nat) (v : Byte)
  /-- RSVD14, opcode 14 (R164). -/
  | rsvd14 (d : Nat) (v : Byte)
  /-- DISPLAYTEST, opcode 15 (R165). -/
  | displayTest (d : Nat) (v : Byte)
  /-- INIT n (R177): `a` is the requested chain length. -/
  | init (a : Byte)
  /-- SHUTDOWN a, enable (R179). -/
  | shutdown (a : Byte) (f : Bool)
  /-- SETSCANLIMIT a, limit (R180). -/
  | setScanLimit (a c : Byte)
  /-- SETINTENSITY a, intensity (R181). -/
  | setIntensity (a c : Byte)
  /-- CLEARDISPLAY a (R197). -/
  | clearDisplay (a : Byte)
  /-- SETLED a, row, col, on (R198): row in `b`, col in `c`. -/
  | setLed (a b c : Byte) (f : Bool)
  /-- SETROW a, row, value (R199). -/
  | setRow (a b c : Byte)
  /-- SETCOLUMN a, col, value (R200): col in `b`. -/
  | setColumn (a b c : Byte)
  /-- SETDIGIT a, digit, value, dp (R201). -/
  | setDigit (a b c : Byte) (f : Bool)
  /-- SETCHAR a, digit, code, dp (R202). -/
  | setChar (a b c : Byte) (f : Bool)
  /-- GETDEVICECOUNT (R182). -/
  | getDeviceCount
deriving DecidableEq, Repr

end Sys2Proof
end

