-- ==== Sys2Proof/WellFormed.lean ====
section
/-! DEFINITION. Which instructions can exist. A wire opcode is executed at a position of the chain, and a chain has at most
MAXDEV = 8 positions (00_scope.md R6). Every value of every field of a host command can be presented (30_encoding.md R91), so
every host command is well formed: a value out of range is dropped when it runs (43_controller_config.md R175). -/

namespace Sys2Proof

/-- The position of the device that executes a wire opcode; 0 for a host command, which has none. -/
def Instr.position : Instr → Nat
  | .noop d _ => d
  | .digit0 d _ => d
  | .digit1 d _ => d
  | .digit2 d _ => d
  | .digit3 d _ => d
  | .digit4 d _ => d
  | .digit5 d _ => d
  | .digit6 d _ => d
  | .digit7 d _ => d
  | .decodeMode d _ => d
  | .intensity d _ => d
  | .scanLimit d _ => d
  | .shutdownOp d _ => d
  | .rsvd13 d _ => d
  | .rsvd14 d _ => d
  | .displayTest d _ => d
  | .init _ => 0
  | .shutdown _ _ => 0
  | .setScanLimit _ _ => 0
  | .setIntensity _ _ => 0
  | .clearDisplay _ => 0
  | .setLed _ _ _ _ => 0
  | .setRow _ _ _ => 0
  | .setColumn _ _ _ => 0
  | .setDigit _ _ _ _ => 0
  | .setChar _ _ _ _ => 0
  | .getDeviceCount => 0

/-- A wire opcode stands at one of the positions 0 to MAXDEV - 1 (00_scope.md R6); a host command always is well formed. -/
abbrev Instr.WellFormed (i : Instr) : Prop := i.position < Config.maxDev

end Sys2Proof
end

