-- ==== Sys2Proof/Decode.lean ====
section
/-! DEFINITION. Decoding, total on every pair and every command word, rejecting by name; and the encoder, written from the same
tables (30_encoding.md R80, R84, R91, R92, R93). -/

namespace Sys2Proof

/-- The two formats of an instruction (30_encoding.md R80, R91). -/
inductive Code where
  /-- a 16-bit pair on the wire -/
  | pair (p : Pair)
  /-- a 32-bit word on the command port -/
  | command (w : CmdWord)
deriving DecidableEq, Repr

/-- Why a command word is illegal (30_encoding.md R94). The block accepts and drops such a word (R94, 60_exceptions.md R220).
The words that are illegal only when HAS_SHADOW = 0 decode, and their commands drop themselves. -/
inductive DecodeError where
  /-- CMD is 0 or 12 to 15 -/
  | reservedCode (cmd : BitVec 4)
  /-- RSV is not 0b000 -/
  | reservedBits (rsv : BitVec 3)
deriving DecidableEq, Repr

/-- What the decoder answers. -/
inductive Decoded where
  | ok (i : Instr)
  | illegal (e : DecodeError)
deriving DecidableEq, Repr

/-- The instruction that the device at position `d` executes when it latches the pair `p` (42_wire_opcodes.md R166: by
`p[11:8]` alone, and total; `p[15:12]` is ignored, 30_encoding.md R81). -/
def decodePair (d : Nat) (p : Pair) : Instr :=
  match (p.extractLsb' 8 4).toNat with
  | 0 => .noop d (p.extractLsb' 0 8)
  | 1 => .digit0 d (p.extractLsb' 0 8)
  | 2 => .digit1 d (p.extractLsb' 0 8)
  | 3 => .digit2 d (p.extractLsb' 0 8)
  | 4 => .digit3 d (p.extractLsb' 0 8)
  | 5 => .digit4 d (p.extractLsb' 0 8)
  | 6 => .digit5 d (p.extractLsb' 0 8)
  | 7 => .digit6 d (p.extractLsb' 0 8)
  | 8 => .digit7 d (p.extractLsb' 0 8)
  | 9 => .decodeMode d (p.extractLsb' 0 8)
  | 10 => .intensity d (p.extractLsb' 0 8)
  | 11 => .scanLimit d (p.extractLsb' 0 8)
  | 12 => .shutdownOp d (p.extractLsb' 0 8)
  | 13 => .rsvd13 d (p.extractLsb' 0 8)
  | 14 => .rsvd14 d (p.extractLsb' 0 8)
  | _ => .displayTest d (p.extractLsb' 0 8)

/-- The host command a 32-bit word stands for, or the reason it is illegal (30_encoding.md R91 to R94). -/
def decodeCommand (w : CmdWord) : Decoded :=
  if w.extractLsb' 25 3 = 0#3 then
    match (w.extractLsb' 28 4).toNat with
    | 1 => .ok (.init (w.extractLsb' 16 8))
    | 2 => .ok (.shutdown (w.extractLsb' 16 8) (w.getLsbD 24))
    | 3 => .ok (.setScanLimit (w.extractLsb' 16 8) (w.extractLsb' 0 8))
    | 4 => .ok (.setIntensity (w.extractLsb' 16 8) (w.extractLsb' 0 8))
    | 5 => .ok (.clearDisplay (w.extractLsb' 16 8))
    | 6 => .ok (.setLed (w.extractLsb' 16 8) (w.extractLsb' 8 8) (w.extractLsb' 0 8) (w.getLsbD 24))
    | 7 => .ok (.setRow (w.extractLsb' 16 8) (w.extractLsb' 8 8) (w.extractLsb' 0 8))
    | 8 => .ok (.setColumn (w.extractLsb' 16 8) (w.extractLsb' 8 8) (w.extractLsb' 0 8))
    | 9 => .ok (.setDigit (w.extractLsb' 16 8) (w.extractLsb' 8 8) (w.extractLsb' 0 8) (w.getLsbD 24))
    | 10 => .ok (.setChar (w.extractLsb' 16 8) (w.extractLsb' 8 8) (w.extractLsb' 0 8) (w.getLsbD 24))
    | 11 => .ok .getDeviceCount
    | _ => .illegal (.reservedCode (w.extractLsb' 28 4))
  else .illegal (.reservedBits (w.extractLsb' 25 3))

/-- Decoding of either format; `d` is the position of the device that holds the pair. -/
def decode (d : Nat) : Code → Decoded
  | .pair p => .ok (decodePair d p)
  | .command w => decodeCommand w

/-- The pair with opcode `op` and data byte `v`; the upper four bits are sent as 0 (30_encoding.md R80, R81). -/
def encodePair (op : Opcode) (v : Byte) : Pair := 0#4 ++ op ++ v

/-- The word `{CMD, 0b000, F, A, B, C}` (30_encoding.md R91, R101). -/
def encodeCommand (cmd : BitVec 4) (f : Bool) (a b c : Byte) : CmdWord :=
  cmd ++ 0#3 ++ BitVec.ofBool f ++ a ++ b ++ c

/-- The word of an instruction (30_encoding.md R84, R92, R93); every field the instruction does not use is 0 (R101). -/
def encode : Instr → Code
  | .noop _ v => .pair (encodePair 0#4 v)
  | .digit0 _ v => .pair (encodePair 1#4 v)
  | .digit1 _ v => .pair (encodePair 2#4 v)
  | .digit2 _ v => .pair (encodePair 3#4 v)
  | .digit3 _ v => .pair (encodePair 4#4 v)
  | .digit4 _ v => .pair (encodePair 5#4 v)
  | .digit5 _ v => .pair (encodePair 6#4 v)
  | .digit6 _ v => .pair (encodePair 7#4 v)
  | .digit7 _ v => .pair (encodePair 8#4 v)
  | .decodeMode _ v => .pair (encodePair 9#4 v)
  | .intensity _ v => .pair (encodePair 10#4 v)
  | .scanLimit _ v => .pair (encodePair 11#4 v)
  | .shutdownOp _ v => .pair (encodePair 12#4 v)
  | .rsvd13 _ v => .pair (encodePair 13#4 v)
  | .rsvd14 _ v => .pair (encodePair 14#4 v)
  | .displayTest _ v => .pair (encodePair 15#4 v)
  | .init a => .command (encodeCommand 1#4 false a 0#8 0#8)
  | .shutdown a f => .command (encodeCommand 2#4 f a 0#8 0#8)
  | .setScanLimit a c => .command (encodeCommand 3#4 false a 0#8 c)
  | .setIntensity a c => .command (encodeCommand 4#4 false a 0#8 c)
  | .clearDisplay a => .command (encodeCommand 5#4 false a 0#8 0#8)
  | .setLed a b c f => .command (encodeCommand 6#4 f a b c)
  | .setRow a b c => .command (encodeCommand 7#4 false a b c)
  | .setColumn a b c => .command (encodeCommand 8#4 false a b c)
  | .setDigit a b c f => .command (encodeCommand 9#4 f a b c)
  | .setChar a b c f => .command (encodeCommand 10#4 f a b c)
  | .getDeviceCount => .command (encodeCommand 11#4 false 0#8 0#8 0#8)

/-- The instruction the decoder reads from an instruction of `nbits` bits whose bits are `w`: 16 bits are a pair (decoded at
position 0, log 18), 32 bits a command word; no instruction has another length (30_encoding.md R100). -/
def decodeTableWord (nbits w : Nat) : Option Instr :=
  match nbits with
  | 16 => some (decodePair 0 (BitVec.ofNat 16 w))
  | 32 =>
    match decodeCommand (BitVec.ofNat 32 w) with
    | .ok i => some i
    | .illegal _ => none
  | _ => none

end Sys2Proof
end

