-- ==== Sys2Proof/Machine/State.lean ====
section
/-! DEFINITION. The state of the machine as plain data: the framer block (10_state.md R20 to R31), the chain devices (R32 to
R35), and the model's own fields (the parameters, the host's pending inputs and the two observations); the reasons a step can
stop; the state after reset. -/

namespace Sys2Proof.Machine

/-- Byte-wide address space as a list of (address, byte) cells in ONE canonical form (`Memory.wf`, Machine/Ops.lean): addresses
strictly rising, no cell equal to what an unlisted address reads as, which is 0x00. Used for SRF (20_memory.md R51), where
0x00 is the spec's reset value (10_state.md R39), and for FB (20_memory.md R53, log 4). -/
abbrev Memory := List Host.Cell

/-- The three output pins (10_state.md R27). -/
inductive Pin where
  | cs | clk | din
deriving DecidableEq, Repr

/-- One execution of `Pin(p, v)`, an entry of the pin log (41_bus_serializer.md R126, 60_exceptions.md R243). -/
structure PinWrite where
  pin : Pin
  level : Bool
deriving DecidableEq, Repr

/-- A transfer triple (target, opcode, data), an entry of the transfer log (60_exceptions.md R243). -/
structure Transfer where
  target : Nat
  op : Opcode
  data : Byte
deriving DecidableEq, Repr

/-- The thirteen device registers by name (10_state.md R34, R35). -/
inductive DevReg where
  | digit0 | digit1 | digit2 | digit3 | digit4 | digit5 | digit6 | digit7
  | decodeMode | intensity | scanLimit | shutdown | displayTest
deriving DecidableEq, Repr

/-- `DREG[d]`: the thirteen 8-bit registers of one chain device (10_state.md R34, R35). -/
structure DeviceRegs where
  digit0 : Byte
  digit1 : Byte
  digit2 : Byte
  digit3 : Byte
  digit4 : Byte
  digit5 : Byte
  digit6 : Byte
  digit7 : Byte
  decodeMode : Byte
  intensity : Byte
  scanLimit : Byte
  shutdown : Byte
  displayTest : Byte
deriving DecidableEq, Repr

/-- One chain device: its shift register `SR[d]` (10_state.md R32) and its registers `DREG[d]` (R34). -/
structure Device where
  sr : Pair
  regs : DeviceRegs
deriving DecidableEq, Repr

/-- What the world outside does to the machine, one event a step (00_scope.md R17, 60_exceptions.md R244; log 6, log 20). -/
inductive Input where
  /-- The host presents `w` (30_encoding.md R90) and lets the command run to its end without reset: ONE step (R17, D34). A
  word presented while BUSY = 1 waits. -/
  | command (w : CmdWord)
  /-- The host presents `w`; the step is the acceptance alone, and the command's small steps follow one by one (R17). -/
  | accept (w : CmdWord)
  /-- A step in which the host does nothing. -/
  | tick
  /-- `rst = 1` for one step (70_reset_and_hazards.md R250), at any moment, inside a frame too (R264). -/
  | reset
  /-- Device `d` lost power and has it again, or was replaced (60_exceptions.md R242, 70_reset_and_hazards.md R266(b)): its
  contents are then unspecified, so the event carries them. -/
  | devicePower (d : Nat) (contents : Device)
deriving DecidableEq, Repr

/-- The whole machine. -/
structure State where
  /-- `HAS_SHADOW` and `SEGROM`: the model's own field, constant (10_state.md R37, log 1) -/
  params : Params
  /-- `N`, the chain length register: a 4-bit register whose legal values are 0 to 8 (10_state.md R20, log 22) -/
  n : Fin 9
  /-- `INITED` (10_state.md R21) -/
  inited : Bool
  /-- `SH`, the shadow register file, at linear addresses 8*d + r (10_state.md R22, 20_memory.md R51) -/
  srf : Memory
  /-- `CS`: false is asserted, true is de-asserted (10_state.md R27, 00_scope.md R16) -/
  cs : Bool
  /-- `CLK` (10_state.md R27) -/
  clk : Bool
  /-- `DIN` (10_state.md R27) -/
  din : Bool
  /-- `FB`, the frame buffer (10_state.md R28, 20_memory.md R53) -/
  fb : Memory
  /-- `BUSY` (10_state.md R29) -/
  busy : Bool
  /-- `CW`, the latched command word (10_state.md R29) -/
  cw : CmdWord
  /-- `UOP`, the index of the current micro-operation (10_state.md R30) -/
  uop : BitVec 8
  /-- `POS`, the index of the next pin write inside the current transfer (10_state.md R30) -/
  pos : BitVec 9
  /-- `RSP`, the response register (10_state.md R31) -/
  rsp : Byte
  /-- `rsp_valid` (10_state.md R31) -/
  rspValid : Bool
  /-- the wired devices, device 0 (the near end) first; its length is `P` (10_state.md R32, R34, 00_scope.md R12) -/
  chain : List Device
  /-- the model's own: what the host will do, soonest first (10_state.md R37, log 6) -/
  inputs : List Input
  /-- observation: the pin log, NEWEST FIRST (60_exceptions.md R243, log 17) -/
  pinTrace : List PinWrite
  /-- observation: the transfer log, NEWEST FIRST (60_exceptions.md R243, log 17) -/
  xferTrace : List Transfer
deriving DecidableEq, Repr

/-- Why the machine stops with a fault: it never does. The block "raises no synchronous exception" and "never traps"
(60_exceptions.md R220, R221, R228), and 93_implementation_defined.md says that a model with a fault for this block is wrong;
so there is no fault. Safe: nothing raises one. -/
inductive Fault
deriving DecidableEq, Repr

/-- Why a step is refused. None is raised by a command or a wire opcode in a state that meets the invariant
(Safety.lean). -/
inductive Refusal where
  /-- Raised by an arm of `exec` whose instruction has no meaning yet. Safe: nothing can be proved of it. -/
  | notModelled (mnemonic : String)
  /-- Raised by a transfer to a target `t >= N`: "A model should state `0 <= t < N` as a precondition of `XFER` and refuse a
  call that violates it" (41_bus_serializer.md R129). No command makes such a call. Safe. -/
  | xferTarget
  /-- Raised by a hand-built transfer with opcode 13 or 14 (42_wire_opcodes.md R163, R164; 93_implementation_defined.md U2). No
  command makes such a call. Safe. -/
  | xferReservedOpcode
  /-- Raised by a shadow write outside the lanes `d < N`, `r <= 7`, which the callers of `ShWrite` guarantee
  (44_controller_display.md R195). No command makes such a call. Safe. -/
  | shadowLane
  /-- Raised by a small step of a busy sequencer that stands at no micro-operation of the command in CW, which 10_state.md R29
  and R30 exclude; no run reaches it (log 29). Safe. -/
  | sequencerLost
deriving DecidableEq, Repr

/-- A device all of whose bits are 0: the value State.reset names for contents the spec leaves unspecified (10_state.md R33, R34;
DESIGN CHOICE, log 3). -/
def Device.zero : Device :=
  ⟨0#16, ⟨0#8, 0#8, 0#8, 0#8, 0#8, 0#8, 0#8, 0#8, 0#8, 0#8, 0#8, 0#8, 0#8⟩⟩

/-- The block right after reset or power-on (10_state.md R39, 70_reset_and_hazards.md R250), for any parameters and any initial
contents of the devices, which the spec makes free inputs of the model (10_state.md R33, R34). FB, CW and RSP, for which the
spec states no reset value, hold 0 (DESIGN CHOICE, log 4). -/
def State.powerOn (params : Params) (chain : List Device) : State where
  params := params
  n := 0
  inited := false
  srf := []
  cs := true
  clk := false
  din := false
  fb := []
  busy := false
  cw := 0#32
  uop := 0#8
  pos := 0#9
  rsp := 0x00#8
  rspValid := false
  chain := chain
  inputs := []
  pinTrace := []
  xferTrace := []

/-- The machine right after reset: the full capability set (00_scope.md R9's default), the fixture table (log 1), eight wired
devices (log 2) whose contents are 0 (log 3). -/
def State.reset : State :=
  State.powerOn ⟨true, Config.segromT⟩ (List.replicate 8 Device.zero)

end Sys2Proof.Machine
end

