-- ==== Sys2Proof/Machine/Ops.lean ====
section
/-! DEFINITION. The named operations every command is made of: the byte address spaces, the device registers, the pins and what
the chain does with their edges, the frame, the transfer, the shadow write port, micro-operations, drop, reset. -/

namespace Sys2Proof.Machine

/-! ### Byte address spaces (20_memory.md R50) -/

/-- `MemRead(space, a, 1)`; an unlisted address reads 0x00. -/
def Memory.read : Memory → Nat → Byte
  | [], _ => 0x00#8
  | (k, b) :: m, a => if k = a then b else Memory.read m a

/-- `MemWrite(space, a, 1, b)`, keeping the canonical form: writing 0x00 removes the cell. -/
def Memory.write : Memory → Nat → Byte → Memory
  | [], a, b => if b = 0x00#8 then [] else [(a, b)]
  | (k, c) :: m, a, b =>
    if a < k then (if b = 0x00#8 then (k, c) :: m else (a, b) :: (k, c) :: m)
    else if a = k then (if b = 0x00#8 then m else (a, b) :: m)
    else (k, c) :: Memory.write m a b

/-- The canonical form: addresses strictly rising, no cell that reads as an unlisted address does. -/
abbrev Memory.wf (m : Memory) : Prop :=
  m.Pairwise (fun x y => x.1 < y.1) ∧ ∀ c ∈ m, c.2 ≠ 0x00#8

/-- The linear address `8*d + r` of `SH[d][r]` (20_memory.md R51). -/
def lane (d r : Nat) : Nat := 8 * d + r

/-- `SH[d][r]` (00_scope.md R15). -/
def State.sh (s : State) (d r : Nat) : Byte := s.srf.read (lane d r)

/-! ### Device registers (10_state.md R34, R35) -/

/-- The register at wire address `a`; none at 0, 13 and 14 (10_state.md R34). -/
def DevReg.ofOpcode (a : Opcode) : Option DevReg :=
  match a.toNat with
  | 1 => some .digit0
  | 2 => some .digit1
  | 3 => some .digit2
  | 4 => some .digit3
  | 5 => some .digit4
  | 6 => some .digit5
  | 7 => some .digit6
  | 8 => some .digit7
  | 9 => some .decodeMode
  | 10 => some .intensity
  | 11 => some .scanLimit
  | 12 => some .shutdown
  | 15 => some .displayTest
  | _ => none

/-- The contents of a device register. -/
def DeviceRegs.get (g : DeviceRegs) : DevReg → Byte
  | .digit0 => g.digit0
  | .digit1 => g.digit1
  | .digit2 => g.digit2
  | .digit3 => g.digit3
  | .digit4 => g.digit4
  | .digit5 => g.digit5
  | .digit6 => g.digit6
  | .digit7 => g.digit7
  | .decodeMode => g.decodeMode
  | .intensity => g.intensity
  | .scanLimit => g.scanLimit
  | .shutdown => g.shutdown
  | .displayTest => g.displayTest

/-- The registers after `DREG[a] <- v`. -/
def DeviceRegs.set (g : DeviceRegs) (a : DevReg) (v : Byte) : DeviceRegs :=
  match a with
  | .digit0 => { g with digit0 := v }
  | .digit1 => { g with digit1 := v }
  | .digit2 => { g with digit2 := v }
  | .digit3 => { g with digit3 := v }
  | .digit4 => { g with digit4 := v }
  | .digit5 => { g with digit5 := v }
  | .digit6 => { g with digit6 := v }
  | .digit7 => { g with digit7 := v }
  | .decodeMode => { g with decodeMode := v }
  | .intensity => { g with intensity := v }
  | .scanLimit => { g with scanLimit := v }
  | .shutdown => { g with shutdown := v }
  | .displayTest => { g with displayTest := v }

/-- `DREG[d][a]`, for a wired device `d`. -/
def State.dreg (s : State) (d : Nat) (a : DevReg) : Option Byte := (s.chain[d]?).map (fun dev => dev.regs.get a)

/-- `SR[d]`, for a wired device `d`. -/
def State.shiftReg (s : State) (d : Nat) : Option Pair := (s.chain[d]?).map Device.sr

/-- `DREG[d][a] <- v`; where no device is wired at `d`, nothing is written (70_reset_and_hazards.md R263). -/
def State.writeDreg (s : State) (d : Nat) (a : DevReg) (v : Byte) : State :=
  { s with chain := s.chain.modify d (fun dev => { dev with regs := dev.regs.set a v }) }

/-! ### What the chain does with an edge (41_bus_serializer.md R131, R132) -/

/-- One rising clock edge at a part of the chain whose serial input is `i`: each device takes `{SR[14:0], in}`, and passes its
old bit 15 on. -/
def shiftDevices (i : Bool) : List Device → List Device
  | [] => []
  | dev :: rest => { dev with sr := dev.sr.shiftConcat i } :: shiftDevices (dev.sr.getLsbD 15) rest

/-- `ChainShift()` (41_bus_serializer.md R131): device 0 takes the level of DIN. -/
def chainShift (s : State) : State := { s with chain := shiftDevices s.din s.chain }

/-- What one device does at the latch (41_bus_serializer.md R132): `SR[11:8]` selects the register, `SR[15:12]` is ignored,
and where there is no register nothing is written. -/
def Device.latch (dev : Device) : Device :=
  match DevReg.ofOpcode (dev.sr.extractLsb' 8 4) with
  | some a => { dev with regs := dev.regs.set a (dev.sr.extractLsb' 0 8) }
  | none => dev

/-- `ChainLatch()` (41_bus_serializer.md R132, 20_memory.md R63): all devices in the same step. -/
def chainLatch (s : State) : State := { s with chain := s.chain.map Device.latch }

/-! ### Pins (41_bus_serializer.md R126) -/

/-- A pin takes a level and the chain reacts: a rising edge of CLK shifts, a rising edge of CS latches, nothing else does. -/
def drivePin : Pin → Bool → State → State
  | .cs, v, s => if s.cs = false ∧ v = true then chainLatch { s with cs := v } else { s with cs := v }
  | .clk, v, s => if s.clk = false ∧ v = true then chainShift { s with clk := v } else { s with clk := v }
  | .din, v, s => { s with din := v }

/-- `Pin(p, v)` (41_bus_serializer.md R126): one step, recorded even when the level does not change. -/
def pin (w : PinWrite) (s : State) : State :=
  drivePin w.pin w.level { s with pinTrace := w :: s.pinTrace }

/-- A list of pin writes, in order. -/
def runPins (ws : List PinWrite) (s : State) : State := ws.foldl (fun s w => pin w s) s

/-! ### The frame (30_encoding.md R82, R83; 20_memory.md R56 to R58) -/

/-- The bits of a byte in send order, most significant first (20_memory.md R56). -/
def byteBits (b : Byte) : List Bool :=
  [b.getLsbD 7, b.getLsbD 6, b.getLsbD 5, b.getLsbD 4, b.getLsbD 3, b.getLsbD 2, b.getLsbD 1, b.getLsbD 0]

/-- The bits of the frame in send order: the devices from `n - 1` down to 0 (20_memory.md R58), of each the opcode byte and
then the data byte (R57; log 7). -/
def frameBits (fb : Memory) : Nat → List Bool
  | 0 => []
  | d + 1 => byteBits (fb.read (2 * d)) ++ byteBits (fb.read (2 * d + 1)) ++ frameBits fb d

/-- One bit on the pins (30_encoding.md R83): data, then clock high, then clock low. -/
def bitPins (b : Bool) : List PinWrite := [⟨.din, b⟩, ⟨.clk, true⟩, ⟨.clk, false⟩]

/-- The pin writes of one transfer (41_bus_serializer.md R128): `48*n + 2` of them. -/
def framePins (fb : Memory) (n : Nat) : List PinWrite :=
  ⟨.cs, false⟩ :: ((frameBits fb n).flatMap bitPins ++ [⟨.cs, true⟩])

/-- The zero fill of `FB[0 .. 2*n-1]` (41_bus_serializer.md R127). -/
def zeroFill (fb : Memory) : Nat → Memory
  | 0 => fb
  | d + 1 => ((zeroFill fb d).write (2 * d) 0x00#8).write (2 * d + 1) 0x00#8

/-- `BuildFB(t, op, data)` (41_bus_serializer.md R127): the opcode byte is `zext_8(op)`. -/
def buildFB (t : Nat) (op : Opcode) (data : Byte) (s : State) : State :=
  { s with fb := ((zeroFill s.fb s.n).write (2 * t) (op.setWidth 8)).write (2 * t + 1) data }

/-- An entry of the transfer log (60_exceptions.md R243). -/
def logTransfer (x : Transfer) (s : State) : State := { s with xferTrace := x :: s.xferTrace }

/-- `XFER(t, op, data)` (41_bus_serializer.md R128), one whole transfer. -/
def xfer (x : Transfer) (s : State) : State :=
  let s := buildFB x.target x.op x.data s
  logTransfer x (runPins (framePins s.fb s.n) s)

/-- The pin log in order, oldest first (60_exceptions.md R243). -/
def State.pinLog (s : State) : List PinWrite := s.pinTrace.reverse

/-- The transfer log in order, oldest first (60_exceptions.md R243). -/
def State.xferLog (s : State) : List Transfer := s.xferTrace.reverse

/-! ### The shadow write port (44_controller_display.md R195) -/

/-- `ShWrite(d, r, wdata, wmask)`: the masked bits of one lane, in one step. -/
def shWrite (d r : Nat) (wdata wmask : Byte) (s : State) : State :=
  { s with srf := s.srf.write (lane d r) ((s.sh d r &&& ~~~wmask) ||| (wdata &&& wmask)) }

/-! ### Micro-operations (43_controller_config.md R176) -/

/-- Where the data byte of a transfer comes from: it is given, or it is `SH[d][r]` read when the transfer begins, "after the
`ShWrite` before it" (43_controller_config.md R176). -/
inductive XferData where
  | byte (b : Byte)
  | shadow (d r : Nat)
deriving DecidableEq, Repr

/-- An entry of a command's micro-operation list (43_controller_config.md R176). -/
inductive MicroOp where
  | shWrite (d r : Nat) (wdata wmask : Byte)
  | xfer (t : Nat) (op : Opcode) (data : XferData)
deriving DecidableEq, Repr

/-- The byte a transfer sends. -/
def XferData.value (s : State) : XferData → Byte
  | .byte b => b
  | .shadow d r => s.sh d r

/-- Why an entry may not run with chain length `n`: a shadow write needs `d < N` and `r <= 7` (44_controller_display.md R195), a
transfer needs `t < N` (41_bus_serializer.md R129) and an opcode other than 13 and 14 (42_wire_opcodes.md R163, R164). -/
def MicroOp.illegal (n : Nat) : MicroOp → Option Refusal
  | .shWrite d r _ _ => if d < n ∧ r ≤ 7 then none else some .shadowLane
  | .xfer t op _ =>
    if n ≤ t then some .xferTarget
    else if op = 13#4 ∨ op = 14#4 then some .xferReservedOpcode
    else none

/-- One entry, whole. -/
def MicroOp.run (s : State) : MicroOp → State
  | .shWrite d r wdata wmask => Machine.shWrite d r wdata wmask s
  | .xfer t op data => Machine.xfer ⟨t, op, data.value s⟩ s

/-- A list of entries in order. -/
def runAll (ops : List MicroOp) (s : State) : State := ops.foldl MicroOp.run s

/-- The outcome of a micro-operation list: refused when an entry may not run (no command has such an entry), else the state
after the last. `N` does not change while a list runs, so the test comes first. -/
def runOps (ops : List MicroOp) (s : State) : Host.Outcome State Fault Refusal :=
  match ops.findSome? (MicroOp.illegal s.n) with
  | some r => .refused r
  | none => .next (runAll ops s)

/-- `drop` (60_exceptions.md R220): no effect. It stands where another machine would take an exception; there is no trap entry
and no return (R231, R232). -/
def drop (s : State) : Host.Outcome State Fault Refusal := .next s

/-! ### How a command runs (43_controller_config.md R175, R176) -/

/-- A host command: the checks of R175 (all of them before the first micro-operation), what it writes in the step of its
acceptance (INIT: N and INITED; GETDEVICECOUNT: the response), and its micro-operation list of R176. -/
structure Command where
  accepts : State → Bool
  immediate : State → State
  ops : State → List MicroOp

/-- The command as ONE big step (00_scope.md R17, D34; log 6). -/
def Command.run (c : Command) (s : State) : Host.Outcome State Fault Refusal :=
  if c.accepts s then runOps (c.ops (c.immediate s)) (c.immediate s) else drop s

/-- Its acceptance as a small step (30_encoding.md R90): a command that drops or has no micro-operations completes here. -/
def Command.begin (c : Command) (s : State) : State :=
  if c.accepts s then
    match c.ops (c.immediate s) with
    | [] => c.immediate s
    | _ :: _ => { c.immediate s with busy := true, uop := 0#8, pos := 0#9 }
  else s

/-! ### The sequencer's small steps (10_state.md R30) -/

/-- The command is over: BUSY falls, UOP and POS return to 0 (10_state.md R29, R30). -/
def endCommand (s : State) : State := { s with busy := false, uop := 0#8, pos := 0#9 }

/-- A micro-operation of a list of length `len` is over (10_state.md R30). -/
def nextOp (len : Nat) (s : State) : State :=
  if s.uop.toNat + 1 < len then { s with uop := s.uop + 1#8, pos := 0#9 } else endCommand s

/-- The buffer is built before the first pin write of a transfer, POS = 0 (41_bus_serializer.md R127, R128). -/
def loadFB (x : Transfer) (s : State) : State := if s.pos = 0#9 then buildFB x.target x.op x.data s else s

/-- One small step of a transfer whose buffer is built: one pin write (10_state.md R30, 41_bus_serializer.md R128). -/
def pinStep (len : Nat) (x : Transfer) (s : State) : Host.Outcome State Fault Refusal :=
  match (framePins s.fb s.n)[s.pos.toNat]? with
  | none => .refused .sequencerLost
  | some w =>
    if s.pos.toNat + 1 < 48 * s.n.val + 2 then .next { pin w s with pos := s.pos + 1#9 }
    else .next (nextOp len (logTransfer x (pin w s)))

/-- One small step of a transfer (10_state.md R30, 41_bus_serializer.md R128). -/
def xferStep (len : Nat) (x : Transfer) (s : State) : Host.Outcome State Fault Refusal := pinStep len x (loadFB x s)

/-- One small step of an entry that may run, in a list of length `len`: one shadow write or one pin write (00_scope.md R17). -/
def MicroOp.smallStep (len : Nat) (s : State) : MicroOp → Host.Outcome State Fault Refusal
  | .shWrite d r wdata wmask => .next (nextOp len (Machine.shWrite d r wdata wmask s))
  | .xfer t op data => xferStep len ⟨t, op, data.value s⟩ s

/-- One small step of a busy sequencer whose command has the list `ops`: one shadow write or one pin write (00_scope.md R17). -/
def opsStep (ops : List MicroOp) (s : State) : Host.Outcome State Fault Refusal :=
  match ops[s.uop.toNat]? with
  | none => .refused .sequencerLost
  | some op =>
    match op.illegal s.n with
    | some r => .refused r
    | none => op.smallStep ops.length s

/-! ### Reset (70_reset_and_hazards.md R250 to R252) and device power -/

/-- Reset of the block: the pins are driven to their reset levels, which the chain sees (R251: a chip-select that was low
rises, and every device latches); the block's registers take the values of 10_state.md R39; the logs start empty (R250); the
devices are not reached (R252). FB, CW and RSP are not among the registers R250 writes (log 4). -/
def blockReset (s : State) : State :=
  { drivePin .cs true (drivePin .din false (drivePin .clk false s)) with
    n := 0, inited := false, srf := [], busy := false, uop := 0#8, pos := 0#9, rspValid := false,
    pinTrace := [], xferTrace := [] }

/-- Device `d` has new contents (60_exceptions.md R242, 70_reset_and_hazards.md R266(b); log 20). -/
def devicePower (d : Nat) (contents : Device) (s : State) : State := { s with chain := s.chain.set d contents }

end Sys2Proof.Machine
end

