-- ==== Sys2Proof/Machine/Operands.lean ====
section
/-! DEFINITION. Operand validation (43_controller_config.md R175) and operand assembly (30_encoding.md R95 to R99): from the
fields of a command to opcodes, masks and data bytes; the Segment Encoder's two functions (40_segment_encoder.md R117, R118). -/

namespace Sys2Proof.Machine

/-! ### Validation (43_controller_config.md R175) -/

/-- Check 1, the address: `A < N` (60_exceptions.md R222). -/
def addressOk (a : Byte) (s : State) : Bool := decide (a.toNat < s.n.val)

/-- Check 2, a row, column or digit index: at most 7 (60_exceptions.md R223). -/
def indexOk (b : Byte) : Bool := decide (b.toNat ≤ 7)

/-- Check 3, a digit value: at most 15 (60_exceptions.md R224). -/
def valueOk (c : Byte) : Bool := decide (c.toNat ≤ 15)

/-! ### Assembly -/

/-- The opcode of digit register `r`: `r + 1` (30_encoding.md R95). -/
def rowOpcode (r : Nat) : Opcode := BitVec.ofNat 4 (r + 1)

/-- The one-hot mask of column `c`, bit `7 - c`: `0x80 >> c` (30_encoding.md R96). -/
def columnMask (c : Nat) : Byte := 0x80#8 >>> c

/-- The write data of a single-bit write: all ones or all zeros (44_controller_display.md R205). -/
def level (on : Bool) : Byte := if on then 0xFF#8 else 0x00#8

/-- The bit of a column value that goes to row `r`: bit `7 - r` (44_controller_display.md R200). -/
def columnBit (v : Byte) (r : Nat) : Bool := v.getLsbD (7 - r)

/-- The data byte of SHUTDOWN, the inverse of its flag (43_controller_config.md R179). -/
def shutdownData (enable : Bool) : Byte := if enable then 0x00#8 else 0x01#8

/-- `clamp(A)` (30_encoding.md R97; log 8). -/
def clampLength (a : Byte) : Fin 9 :=
  if a.toNat = 0 then 1 else if h : a.toNat ≤ 8 then ⟨a.toNat, by omega⟩ else 8

/-- The substitution of a character code above 127 by 32 (30_encoding.md R98). -/
def substituteCode (c : Byte) : Byte := if c.toNat > 127 then 32#8 else c

/-! ### The Segment Encoder -/

/-- `ENCDIGIT(v) = SEGROM[v]` (40_segment_encoder.md R117). -/
def encDigit (p : Params) (v : BitVec 4) : Byte := p.segRom[v.toNat]'(by omega)

/-- `ENCCHAR(c) = SEGROM[c]` (40_segment_encoder.md R118). -/
def encChar (p : Params) (c : BitVec 7) : Byte := p.segRom[c.toNat]'(by omega)

/-- Merging the decimal point (40_segment_encoder.md R120). -/
def withPoint (pattern : Byte) (dp : Bool) : Byte := pattern ||| (if dp then 0x80#8 else 0x00#8)

/-- The pattern SETDIGIT sends for a value that passed check 3 (44_controller_display.md R201). -/
def digitPattern (p : Params) (c : Byte) (dp : Bool) : Byte := withPoint (encDigit p (c.setWidth 4)) dp

/-- The pattern SETCHAR sends (44_controller_display.md R202). -/
def charPattern (p : Params) (c : Byte) (dp : Bool) : Byte :=
  withPoint (encChar p ((substituteCode c).setWidth 7)) dp

/-! ### Micro-operation lists several commands share (43_controller_config.md R176) -/

/-- A `ShWrite` entry, present only when HAS_SHADOW = 1 (44_controller_display.md R196). -/
def ifShadow (hasShadow : Bool) (op : MicroOp) : List MicroOp := if hasShadow then [op] else []

/-- Overwrite row `r` of device `d` with `v`: shadow first, then the wire (20_memory.md R66). -/
def rowOps (hasShadow : Bool) (d r : Nat) (v : Byte) : List MicroOp :=
  ifShadow hasShadow (.shWrite d r v 0xFF#8) ++ [.xfer d (rowOpcode r) (.byte v)]

/-- Set or clear the bit of column `c` in row `r` of device `d`, and send the updated row (44_controller_display.md R198). -/
def ledOps (d r c : Nat) (on : Bool) : List MicroOp :=
  [.shWrite d r (level on) (columnMask c), .xfer d (rowOpcode r) (.shadow d r)]

/-- Clear the eight rows of device `d` in ascending order (44_controller_display.md R197). -/
def clearOps (hasShadow : Bool) (d : Nat) : List MicroOp :=
  (List.range 8).flatMap (fun r => rowOps hasShadow d r 0x00#8)

end Sys2Proof.Machine
end

