-- ==== Sys2Proof/Machine/Configuration.lean ====
section
/-! DEFINITION. The five configuration commands of the Device Controller (43_controller_config.md): INIT, SHUTDOWN,
SETSCANLIMIT, SETINTENSITY, GETDEVICECOUNT. Each is its checks, its immediate effect and its micro-operation list (R176). -/

namespace Sys2Proof.Machine

/-- INIT's steps for one device, in order: display-test off, scan-limit 7, decode-mode off, clear, power-down
(43_controller_config.md R177). -/
def initDeviceOps (hasShadow : Bool) (d : Nat) : List MicroOp :=
  [.xfer d 15#4 (.byte 0x00#8), .xfer d 11#4 (.byte 0x07#8), .xfer d 9#4 (.byte 0x00#8)]
    ++ clearOps hasShadow d ++ [.xfer d 12#4 (.byte 0x00#8)]

/-- INIT n (43_controller_config.md R177): dropped when INITED (R178); N and INITED are written before the first transfer;
the devices are configured in ascending order. -/
def commandInit (a : Byte) : Command where
  accepts s := !s.inited
  immediate s := { s with n := clampLength a, inited := true }
  ops s := (List.range s.n).flatMap (initDeviceOps s.params.hasShadow)

/-- INIT (43_controller_config.md R177). -/
def execInit (a : Byte) (s : State) : Host.Outcome State Fault Refusal := (commandInit a).run s

/-- SHUTDOWN a, enable (43_controller_config.md R179). -/
def commandShutdown (a : Byte) (f : Bool) : Command where
  accepts s := addressOk a s
  immediate s := s
  ops _ := [.xfer a.toNat 12#4 (.byte (shutdownData f))]

/-- SHUTDOWN (43_controller_config.md R179). -/
def execShutdown (a : Byte) (f : Bool) (s : State) : Host.Outcome State Fault Refusal := (commandShutdown a f).run s

/-- SETSCANLIMIT a, limit (43_controller_config.md R180): all eight bits of C, no range check (R183). -/
def commandSetScanLimit (a c : Byte) : Command where
  accepts s := addressOk a s
  immediate s := s
  ops _ := [.xfer a.toNat 11#4 (.byte c)]

/-- SETSCANLIMIT (43_controller_config.md R180). -/
def execSetScanLimit (a c : Byte) (s : State) : Host.Outcome State Fault Refusal := (commandSetScanLimit a c).run s

/-- SETINTENSITY a, intensity (43_controller_config.md R181): all eight bits of C, no range check (R183). -/
def commandSetIntensity (a c : Byte) : Command where
  accepts s := addressOk a s
  immediate s := s
  ops _ := [.xfer a.toNat 10#4 (.byte c)]

/-- SETINTENSITY (43_controller_config.md R181). -/
def execSetIntensity (a c : Byte) (s : State) : Host.Outcome State Fault Refusal := (commandSetIntensity a c).run s

/-- GETDEVICECOUNT (43_controller_config.md R182): dropped when HAS_SHADOW = 0; else `RSP <- zext_8(N)` and `rsp_valid` for the
step; no micro-operations. -/
def commandGetDeviceCount : Command where
  accepts s := s.params.hasShadow
  immediate s := { s with rsp := BitVec.ofNat 8 s.n.val, rspValid := true }
  ops _ := []

/-- GETDEVICECOUNT (43_controller_config.md R182). -/
def execGetDeviceCount (s : State) : Host.Outcome State Fault Refusal := commandGetDeviceCount.run s

end Sys2Proof.Machine
end

