-- ==== Sys2Proof/Machine/Display.lean ====
section
/-! DEFINITION. The six display commands of the Device Controller (44_controller_display.md): CLEARDISPLAY, SETLED, SETROW,
SETCOLUMN, SETDIGIT, SETCHAR. Each is its checks and its micro-operation list (43_controller_config.md R175, R176). -/

namespace Sys2Proof.Machine

/-- CLEARDISPLAY a (44_controller_display.md R197). -/
def commandClearDisplay (a : Byte) : Command where
  accepts s := addressOk a s
  immediate s := s
  ops s := clearOps s.params.hasShadow a.toNat

/-- CLEARDISPLAY (44_controller_display.md R197). -/
def execClearDisplay (a : Byte) (s : State) : Host.Outcome State Fault Refusal := (commandClearDisplay a).run s

/-- SETLED a, row, col, on (44_controller_display.md R198): an illegal word when HAS_SHADOW = 0 (30_encoding.md R94). -/
def commandSetLed (a b c : Byte) (f : Bool) : Command where
  accepts s := s.params.hasShadow && addressOk a s && indexOk b && indexOk c
  immediate s := s
  ops _ := ledOps a.toNat b.toNat c.toNat f

/-- SETLED (44_controller_display.md R198). -/
def execSetLed (a b c : Byte) (f : Bool) (s : State) : Host.Outcome State Fault Refusal := (commandSetLed a b c f).run s

/-- SETROW a, row, value (44_controller_display.md R199). -/
def commandSetRow (a b c : Byte) : Command where
  accepts s := addressOk a s && indexOk b
  immediate s := s
  ops s := rowOps s.params.hasShadow a.toNat b.toNat c

/-- SETROW (44_controller_display.md R199). -/
def execSetRow (a b c : Byte) (s : State) : Host.Outcome State Fault Refusal := (commandSetRow a b c).run s

/-- SETCOLUMN a, col, value (44_controller_display.md R200): for each row in ascending order exactly the steps of
`SETLED a, r, col, value[7 - r]`; an illegal word when HAS_SHADOW = 0 (30_encoding.md R94). -/
def commandSetColumn (a b c : Byte) : Command where
  accepts s := s.params.hasShadow && addressOk a s && indexOk b
  immediate s := s
  ops _ := (List.range 8).flatMap (fun r => ledOps a.toNat r b.toNat (columnBit c r))

/-- SETCOLUMN (44_controller_display.md R200). -/
def execSetColumn (a b c : Byte) (s : State) : Host.Outcome State Fault Refusal := (commandSetColumn a b c).run s

/-- SETDIGIT a, digit, value, dp (44_controller_display.md R201). -/
def commandSetDigit (a b c : Byte) (f : Bool) : Command where
  accepts s := addressOk a s && indexOk b && valueOk c
  immediate s := s
  ops s := rowOps s.params.hasShadow a.toNat b.toNat (digitPattern s.params c f)

/-- SETDIGIT (44_controller_display.md R201). -/
def execSetDigit (a b c : Byte) (f : Bool) (s : State) : Host.Outcome State Fault Refusal := (commandSetDigit a b c f).run s

/-- SETCHAR a, digit, code, dp (44_controller_display.md R202): a code above 127 is substituted, not dropped. -/
def commandSetChar (a b c : Byte) (f : Bool) : Command where
  accepts s := addressOk a s && indexOk b
  immediate s := s
  ops s := rowOps s.params.hasShadow a.toNat b.toNat (charPattern s.params c f)

/-- SETCHAR (44_controller_display.md R202). -/
def execSetChar (a b c : Byte) (f : Bool) (s : State) : Host.Outcome State Fault Refusal := (commandSetChar a b c f).run s

end Sys2Proof.Machine
end

