-- ==== Sys2Proof/Machine/Wire.lean ====
section
/-! DEFINITION. The sixteen wire opcodes: what the chain device at position `d` does at the latch with a pair of that opcode
and data byte `v` (42_wire_opcodes.md). The latch of the whole chain is `chainLatch` (Machine/Ops.lean). -/

namespace Sys2Proof.Machine

/-- NOOP (42_wire_opcodes.md R150): "No `DREG` is written, whatever `v` is". -/
def execNoop (_d : Nat) (_v : Byte) (s : State) : Host.Outcome State Fault Refusal := .next s

/-- DIGIT0 (42_wire_opcodes.md R151): `DREG[d][1] <- v`. -/
def execDigit0 (d : Nat) (v : Byte) (s : State) : Host.Outcome State Fault Refusal := .next (s.writeDreg d .digit0 v)

/-- DIGIT1 (42_wire_opcodes.md R152): `DREG[d][2] <- v`. -/
def execDigit1 (d : Nat) (v : Byte) (s : State) : Host.Outcome State Fault Refusal := .next (s.writeDreg d .digit1 v)

/-- DIGIT2 (42_wire_opcodes.md R153): `DREG[d][3] <- v`. -/
def execDigit2 (d : Nat) (v : Byte) (s : State) : Host.Outcome State Fault Refusal := .next (s.writeDreg d .digit2 v)

/-- DIGIT3 (42_wire_opcodes.md R154): `DREG[d][4] <- v`. -/
def execDigit3 (d : Nat) (v : Byte) (s : State) : Host.Outcome State Fault Refusal := .next (s.writeDreg d .digit3 v)

/-- DIGIT4 (42_wire_opcodes.md R155): `DREG[d][5] <- v`. -/
def execDigit4 (d : Nat) (v : Byte) (s : State) : Host.Outcome State Fault Refusal := .next (s.writeDreg d .digit4 v)

/-- DIGIT5 (42_wire_opcodes.md R156): `DREG[d][6] <- v`. -/
def execDigit5 (d : Nat) (v : Byte) (s : State) : Host.Outcome State Fault Refusal := .next (s.writeDreg d .digit5 v)

/-- DIGIT6 (42_wire_opcodes.md R157): `DREG[d][7] <- v`. -/
def execDigit6 (d : Nat) (v : Byte) (s : State) : Host.Outcome State Fault Refusal := .next (s.writeDreg d .digit6 v)

/-- DIGIT7 (42_wire_opcodes.md R158): `DREG[d][8] <- v`. -/
def execDigit7 (d : Nat) (v : Byte) (s : State) : Host.Outcome State Fault Refusal := .next (s.writeDreg d .digit7 v)

/-- DECODEMODE (42_wire_opcodes.md R159): `DREG[d][9] <- v`, all eight bits. -/
def execDecodeMode (d : Nat) (v : Byte) (s : State) : Host.Outcome State Fault Refusal := .next (s.writeDreg d .decodeMode v)

/-- INTENSITY (42_wire_opcodes.md R160): `DREG[d][10] <- v`, all eight bits. -/
def execIntensity (d : Nat) (v : Byte) (s : State) : Host.Outcome State Fault Refusal := .next (s.writeDreg d .intensity v)

/-- SCANLIMIT (42_wire_opcodes.md R161): `DREG[d][11] <- v`, all eight bits. -/
def execScanLimit (d : Nat) (v : Byte) (s : State) : Host.Outcome State Fault Refusal := .next (s.writeDreg d .scanLimit v)

/-- SHUTDOWN on the wire (42_wire_opcodes.md R162): `DREG[d][12] <- v`, all eight bits. -/
def execShutdownOp (d : Nat) (v : Byte) (s : State) : Host.Outcome State Fault Refusal := .next (s.writeDreg d .shutdown v)

/-- RSVD13 (42_wire_opcodes.md R163): "no register exists at this address; the latch writes nothing" (log 10). -/
def execRsvd13 (_d : Nat) (_v : Byte) (s : State) : Host.Outcome State Fault Refusal := .next s

/-- RSVD14 (42_wire_opcodes.md R164): "no register exists at this address; the latch writes nothing" (log 10). -/
def execRsvd14 (_d : Nat) (_v : Byte) (s : State) : Host.Outcome State Fault Refusal := .next s

/-- DISPLAYTEST (42_wire_opcodes.md R165): `DREG[d][15] <- v`. -/
def execDisplayTest (d : Nat) (v : Byte) (s : State) : Host.Outcome State Fault Refusal :=
  .next (s.writeDreg d .displayTest v)

end Sys2Proof.Machine
end

