-- ==== Sys2Proof/Machine/Dispatch.lean ====
section
/-! DEFINITION. What each instruction does: one arm per constructor, one direct call of its meaning. -/

namespace Sys2Proof.Machine

def exec (i : Instr) (s : State) : Host.Outcome State Fault Refusal :=
  match i with
  -- the wire opcodes, executed by the device at position d (42_wire_opcodes.md)
  | .noop d v => Sys2Proof.Machine.execNoop d v s
  | .digit0 d v => Sys2Proof.Machine.execDigit0 d v s
  | .digit1 d v => Sys2Proof.Machine.execDigit1 d v s
  | .digit2 d v => Sys2Proof.Machine.execDigit2 d v s
  | .digit3 d v => Sys2Proof.Machine.execDigit3 d v s
  | .digit4 d v => Sys2Proof.Machine.execDigit4 d v s
  | .digit5 d v => Sys2Proof.Machine.execDigit5 d v s
  | .digit6 d v => Sys2Proof.Machine.execDigit6 d v s
  | .digit7 d v => Sys2Proof.Machine.execDigit7 d v s
  | .decodeMode d v => Sys2Proof.Machine.execDecodeMode d v s
  | .intensity d v => Sys2Proof.Machine.execIntensity d v s
  | .scanLimit d v => Sys2Proof.Machine.execScanLimit d v s
  | .shutdownOp d v => Sys2Proof.Machine.execShutdownOp d v s
  | .rsvd13 d v => Sys2Proof.Machine.execRsvd13 d v s
  | .rsvd14 d v => Sys2Proof.Machine.execRsvd14 d v s
  | .displayTest d v => Sys2Proof.Machine.execDisplayTest d v s
  -- the host commands (43_controller_config.md, 44_controller_display.md)
  | .init a => Sys2Proof.Machine.execInit a s
  | .shutdown a f => Sys2Proof.Machine.execShutdown a f s
  | .setScanLimit a c => Sys2Proof.Machine.execSetScanLimit a c s
  | .setIntensity a c => Sys2Proof.Machine.execSetIntensity a c s
  | .clearDisplay a => Sys2Proof.Machine.execClearDisplay a s
  | .setLed a b c f => Sys2Proof.Machine.execSetLed a b c f s
  | .setRow a b c => Sys2Proof.Machine.execSetRow a b c s
  | .setColumn a b c => Sys2Proof.Machine.execSetColumn a b c s
  | .setDigit a b c f => Sys2Proof.Machine.execSetDigit a b c f s
  | .setChar a b c f => Sys2Proof.Machine.execSetChar a b c f s
  | .getDeviceCount => Sys2Proof.Machine.execGetDeviceCount s

end Sys2Proof.Machine
end

