-- ==== Sys2Proof/Machine/Sequencer.lean ====
section
/-! DEFINITION. The sequencer: taking a word from the command port (30_encoding.md R90), the small steps of a command in progress
(10_state.md R30, 00_scope.md R17), what a step does with the host's next input, and where a word is placed so that the next
step runs it. Machine/Step.lean only calls what is here. -/

namespace Sys2Proof.Machine

/-- The command of a host instruction; a wire opcode is none. -/
def commandOf : Instr → Option Command
  | .noop _ _ => none
  | .digit0 _ _ => none
  | .digit1 _ _ => none
  | .digit2 _ _ => none
  | .digit3 _ _ => none
  | .digit4 _ _ => none
  | .digit5 _ _ => none
  | .digit6 _ _ => none
  | .digit7 _ _ => none
  | .decodeMode _ _ => none
  | .intensity _ _ => none
  | .scanLimit _ _ => none
  | .shutdownOp _ _ => none
  | .rsvd13 _ _ => none
  | .rsvd14 _ _ => none
  | .displayTest _ _ => none
  | .init a => some (commandInit a)
  | .shutdown a f => some (commandShutdown a f)
  | .setScanLimit a c => some (commandSetScanLimit a c)
  | .setIntensity a c => some (commandSetIntensity a c)
  | .clearDisplay a => some (commandClearDisplay a)
  | .setLed a b c f => some (commandSetLed a b c f)
  | .setRow a b c => some (commandSetRow a b c)
  | .setColumn a b c => some (commandSetColumn a b c)
  | .setDigit a b c f => some (commandSetDigit a b c f)
  | .setChar a b c f => some (commandSetChar a b c f)
  | .getDeviceCount => some commandGetDeviceCount

/-- A word is accepted and its command runs to its end, or is dropped (30_encoding.md R90, R94, 43_controller_config.md R176).
CW takes the word in either case (log 5). -/
def runWord (w : CmdWord) (s : State) : Host.Outcome State Fault Refusal :=
  match decodeCommand w with
  | .ok i => exec i { s with cw := w }
  | .illegal _ => drop { s with cw := w }

/-- The acceptance of a word as a small step. -/
def acceptWord (w : CmdWord) (s : State) : State :=
  match decodeCommand w with
  | .ok i =>
    match commandOf i with
    | some c => c.begin { s with cw := w }
    | none => { s with cw := w }
  | .illegal _ => { s with cw := w }

/-- One small step of the command in CW (00_scope.md R17). -/
def smallStep (s : State) : Host.Outcome State Fault Refusal :=
  match decodeCommand s.cw with
  | .ok i =>
    match commandOf i with
    | some c => opsStep (c.ops s) s
    | none => .refused .sequencerLost
  | .illegal _ => .refused .sequencerLost

/-- A step in which the port brings nothing the block takes: a busy block goes on, an idle block does nothing. -/
def advance (s : State) : Host.Outcome State Fault Refusal := if s.busy then smallStep s else .next s

/-- One step. `rsp_valid` is 1 only in the step in which GETDEVICECOUNT completes (10_state.md R31). Reset wins over everything
(60_exceptions.md R230); a word presented while BUSY = 1 waits (30_encoding.md R90); with no input left the host does nothing. -/
def stepBody (s : State) : Host.Outcome State Fault Refusal :=
  match s.inputs with
  | [] => advance { s with rspValid := false }
  | .reset :: rest => .next (blockReset { s with rspValid := false, inputs := rest })
  | .devicePower d dev :: rest => .next (devicePower d dev { s with rspValid := false, inputs := rest })
  | .tick :: rest => advance { s with rspValid := false, inputs := rest }
  | .accept w :: rest =>
    if s.busy then advance { s with rspValid := false }
    else .next (acceptWord w { s with rspValid := false, inputs := rest })
  | .command w :: rest =>
    if s.busy then advance { s with rspValid := false }
    else runWord w { s with rspValid := false, inputs := rest }

/-- The word `w` on the command port of an idle block, before whatever else the host will do (log 19). -/
def placeCommand (w : CmdWord) (s : State) : State :=
  { s with busy := false, uop := 0#8, pos := 0#9, inputs := .command w :: s.inputs }

/-- The chain as the last clock pulse of a frame leaves it when device 0's pair is `p` and the others' are no-ops; where no
device is wired, one is (log 19). -/
def shiftedChain (p : Pair) : List Device → List Device
  | [] => [{ Device.zero with sr := p }]
  | dev :: rest => { dev with sr := p } :: rest.map (fun d => { d with sr := 0#16 })

/-- The pair `p` in device 0 and the block at the last pin write of a frame, the rising edge of chip-select, in the middle of
the command SHUTDOWN 0, 0: the next step latches, so device 0 executes `p` and the others NOOP (log 19). -/
def placePair (p : Pair) (s : State) : State :=
  let n : Fin 9 := if s.n = 0 then 1 else s.n
  { s with
    n := n, inited := true, cs := false, clk := false, busy := true, cw := 0x20000000#32, uop := 0#8,
    pos := BitVec.ofNat 9 (48 * n.val + 1), chain := shiftedChain p s.chain, inputs := .tick :: s.inputs }

/-- `s` with the instruction of `nbits` bits whose bits are `w` placed where the next step runs it: a word of 32 bits on the
command port, a pair of 16 bits in device 0's shift register at the latch. -/
def placeWord (nbits w : Nat) (s : State) : State :=
  if nbits ≤ 16 then placePair (BitVec.ofNat 16 (w % 2 ^ nbits)) s else placeCommand (BitVec.ofNat 32 (w % 2 ^ nbits)) s

end Sys2Proof.Machine
end

