-- ==== Sys2Proof/Machine/Step.lean ====
section
/-! DEFINITION. One step of the machine, and the placing of an instruction where the next step runs it. Both only call
Machine/Sequencer.lean. -/

namespace Sys2Proof.Machine

/-- One step: the host's next input, if the block takes one, and otherwise one small step of the command in progress. -/
def step (s : State) : Host.Outcome State Fault Refusal := stepBody s

/-- `s` with that instruction stored where `step` takes its next instruction from (log 19). -/
def State.withFetchWord (s : State) (nbits w : Nat) : State := placeWord nbits w s

end Sys2Proof.Machine
end

