-- ==== Sys2Proof/Machine/Flags.lean ====
section
/-! DEFINITION. The block has no flags and no condition codes (10_state.md R36). The only status the host sees is `cmd_ready`,
`rsp_valid` with the response, and the debug read port; they are computed here from the state and are no state themselves. -/

namespace Sys2Proof.Machine

/-- `cmd_ready = ~BUSY` (10_state.md R29, 30_encoding.md R90). -/
def State.cmdReady (s : State) : Bool := !s.busy

/-- `rsp_data` while `rsp_valid = 1` (30_encoding.md R90, 10_state.md R31). -/
def State.response (s : State) : Option Byte := if s.rspValid then some s.rsp else none

/-- The debug read port, `sh_rdata = SH[sh_raddr[5:3]][sh_raddr[2:0]]`; it exists only when HAS_SHADOW = 1 (10_state.md R26). -/
def State.debugRead (s : State) (addr : BitVec 6) : Option Byte :=
  if s.params.hasShadow then some (s.sh (addr.extractLsb' 3 3).toNat (addr.extractLsb' 0 3).toNat) else none

end Sys2Proof.Machine
end

