-- ==== Sys2Proof/Safety.lean ====
section
/-! DEFINITION. The terms claims use: which instructions are host commands, the invariant of the machine, the two relations between
the shadow, the transfer log and the chain, and what a command leaves alone. -/

namespace Sys2Proof

/-- The host commands, as against the wire opcodes (00_scope.md R2). -/
def Instr.isHost : Instr → Bool
  | .init _ => true
  | .shutdown _ _ => true
  | .setScanLimit _ _ => true
  | .setIntensity _ _ => true
  | .clearDisplay _ => true
  | .setLed _ _ _ _ => true
  | .setRow _ _ _ => true
  | .setColumn _ _ _ => true
  | .setDigit _ _ _ _ => true
  | .setChar _ _ _ _ => true
  | .getDeviceCount => true
  | .noop _ _ => false
  | .digit0 _ _ => false
  | .digit1 _ _ => false
  | .digit2 _ _ => false
  | .digit3 _ _ => false
  | .digit4 _ _ => false
  | .digit5 _ _ => false
  | .digit6 _ _ => false
  | .digit7 _ _ => false
  | .decodeMode _ _ => false
  | .intensity _ _ => false
  | .scanLimit _ _ => false
  | .shutdownOp _ _ => false
  | .rsvd13 _ _ => false
  | .rsvd14 _ _ => false
  | .displayTest _ _ => false

namespace Machine

/-! ### The idle block -/

/-- The pins between transfers (10_state.md R27): chip-select de-asserted, clock low. -/
def State.PinsIdle (s : State) : Prop := s.cs = true ∧ s.clk = false

/-- The block waits for a command: BUSY = 0, both position registers 0 (10_state.md R30), the pins idle (R27). -/
structure State.Idle (s : State) : Prop where
  notBusy : s.busy = false
  uopZero : s.uop = 0#8
  posZero : s.pos = 0#9
  pins : s.PinsIdle

/-- The chain is wired as long as it was initialised, `P = N` (00_scope.md R12, 70_reset_and_hazards.md R257). -/
def State.WiredRight (s : State) : Prop := s.chain.length = s.n.val

/-! ### The invariant -/

/-- The pin levels at position POS of a transfer (41_bus_serializer.md R128): before the first pin write they are idle; from the
first to the last but one chip-select is low, and the clock is high exactly before a write that lowers it. -/
def State.PinsAtPos (s : State) : Prop :=
  if s.pos = 0#9 then s.PinsIdle else s.cs = false ∧ s.clk = decide ((s.pos.toNat - 1) % 3 = 2)

/-- POS fits the micro-operation at hand (10_state.md R30): 0 at a shadow write, `0 <= POS <= 48*N + 1` in a transfer. -/
def State.PosFits (s : State) : MicroOp → Prop
  | .shWrite _ _ _ _ => s.pos = 0#9
  | .xfer _ _ _ => s.pos.toNat ≤ 48 * s.n.val + 1

/-- A command is in progress (10_state.md R29, R30): CW holds it, every entry of its list may run (41_bus_serializer.md R129), UOP
is the index of an entry, POS fits it and the pins are where POS says. -/
structure State.Running (s : State) : Prop where
  command : ∃ i c op, decodeCommand s.cw = .ok i ∧ commandOf i = some c ∧ (∀ o ∈ c.ops s, o.illegal s.n = none) ∧
    (c.ops s)[s.uop.toNat]? = some op ∧ s.PosFits op
  pins : s.PinsAtPos

/-- What every state of a run meets. -/
structure State.Inv (s : State) : Prop where
  /-- SRF is in canonical form -/
  srfWf : s.srf.wf
  /-- FB is in canonical form -/
  fbWf : s.fb.wf
  /-- `INITED = 1` if and only if `N >= 1` (10_state.md R21) -/
  initedIff : s.inited = true ↔ 1 ≤ s.n.val
  /-- a shadow register of a device that does not exist keeps its reset value (10_state.md R22) -/
  unwritten : ∀ a, 8 * s.n.val ≤ a → s.srf.read a = 0x00#8
  /-- an idle block has idle pins and its position registers at 0 (10_state.md R27, R30) -/
  idle : s.busy = false → s.Idle
  /-- a busy block stands at a micro-operation of the command in CW (10_state.md R29, R30) -/
  running : s.busy = true → s.Running

/-! ### Shadow, transfer log, chain -/

/-- The data byte of the newest transfer to device `d` with opcode `op` in a log (newest first), 0x00 when there is none. -/
def lastSent (log : List Transfer) (d : Nat) (op : Opcode) : Byte :=
  match log.find? (fun x => decide (x.target = d ∧ x.op = op)) with
  | some x => x.data
  | none => 0x00#8

/-- Shadow equals last sent (44_controller_display.md R203). -/
def State.ShadowIsLastSent (s : State) : Prop :=
  ∀ d r, d < 8 → r ≤ 7 → s.sh d r = lastSent s.xferTrace d (rowOpcode r)

/-- The register of digit (row) `r`, at wire address `r + 1` (20_memory.md R54). -/
def rowReg (r : Nat) : Option DevReg := DevReg.ofOpcode (rowOpcode r)

/-- Every initialised device holds what the shadow says (44_controller_display.md R203, 70_reset_and_hazards.md R266). -/
def State.ShadowMatchesChain (s : State) : Prop :=
  ∀ d r q, d < s.n.val → r ≤ 7 → rowReg r = some q → s.dreg d q = some (s.sh d r)

/-! ### Frames and logs -/

/-- The pair of device `d` in the frame of a transfer: the target's carries opcode and data, every other is `0x0000`
(30_encoding.md R80, R82, R86). -/
def pairOf (x : Transfer) (d : Nat) : Pair := if d = x.target then encodePair x.op x.data else 0x0000#16

/-- Bit `j` of the frame in send order: bit `15 - (j mod 16)` of the pair of device `N - 1 - floor(j / 16)`
(20_memory.md R58). -/
def frameBit (n : Nat) (x : Transfer) (j : Nat) : Bool := (pairOf x (n - 1 - j / 16)).getLsbD (15 - j % 16)

/-- The pin writes of one transfer as 41_bus_serializer.md R128 and 30_encoding.md R83 order them. -/
def transferPins (n : Nat) (x : Transfer) : List PinWrite :=
  [⟨.cs, false⟩] ++ (List.range (16 * n)).flatMap (fun j => [⟨.din, frameBit n x j⟩, ⟨.clk, true⟩, ⟨.clk, false⟩])
    ++ [⟨.cs, true⟩]

/-- The bits of a pair in send order, `p[15]` first (30_encoding.md R80). -/
def pairBits (p : Pair) : List Bool := (List.range 16).map (fun j => p.getLsbD (15 - j))

/-- `CH = { SR[P-1], ..., SR[0] }` (41_bus_serializer.md R131), leftmost bit first. -/
def chainBits (ds : List Device) : List Bool := (ds.reverse.map (fun dev => pairBits dev.sr)).flatten

/-- From `s` to `t` exactly the transfers `xs` were made, in order: both logs have grown by them (60_exceptions.md R243), and
the chain, of any length, is as these transfers leave it. -/
structure Sent (s t : State) (xs : List Transfer) : Prop where
  transfers : t.xferLog = s.xferLog ++ xs
  pins : t.pinLog = s.pinLog ++ xs.flatMap (transferPins t.n.val)
  chain : t.chain = (xs.foldl (fun u x => xfer x u) { s with n := t.n }).chain

/-- What the transfer made last, `x`, leaves in the pins (41_bus_serializer.md R133), in FB (R127, 20_memory.md R67) and, when
`P = N`, in the shift registers (41_bus_serializer.md R133). -/
structure AfterTransfer (s t : State) (x : Transfer) : Prop where
  pins : t.PinsIdle
  din : t.din = (if x.target = 0 then x.data.getLsbD 0 else false)
  buffer : ∀ d, d < t.n.val →
    t.fb.read (2 * d) = (if d = x.target then x.op.setWidth 8 else 0x00#8) ∧
    t.fb.read (2 * d + 1) = (if d = x.target then x.data else 0x00#8)
  otherBytes : ∀ a, 2 * t.n.val ≤ a → t.fb.read a = s.fb.read a
  shiftRegs : t.WiredRight → ∀ d, d < t.n.val → t.shiftReg d = some (pairOf x d)

/-! ### What an instruction changes, and what it leaves alone -/

/-- Parameters, N, INITED, BUSY, CW, UOP, POS, RSP, rsp_valid and the host's inputs are the same. -/
structure SameControl (s t : State) : Prop where
  params : t.params = s.params
  n : t.n = s.n
  inited : t.inited = s.inited
  busy : t.busy = s.busy
  cw : t.cw = s.cw
  uop : t.uop = s.uop
  pos : t.pos = s.pos
  rsp : t.rsp = s.rsp
  rspValid : t.rspValid = s.rspValid
  inputs : t.inputs = s.inputs

/-- Register `a` of device `d` took the value `v`; every other register of every device is unchanged. -/
structure DregWritten (s t : State) (d : Nat) (a : DevReg) (v : Byte) : Prop where
  written : t.dreg d a = some v
  others : ∀ e b, ¬(e = d ∧ b = a) → t.dreg e b = s.dreg e b

/-- The effect of one wire opcode that stores (42_wire_opcodes.md): one register of one device, and nothing else anywhere; the
shift registers are not changed by the latch (41_bus_serializer.md R132). -/
structure StoredOnly (s t : State) (d : Nat) (a : DevReg) (v : Byte) : Prop where
  dregs : DregWritten s t d a v
  shiftRegs : ∀ e, t.shiftReg e = s.shiftReg e
  rest : { t with chain := s.chain } = s

/-- The effect of a command that sends one control register write: register `a` of device `d` becomes `v`, carried by one
transfer with opcode `op`; the shadow is untouched. What the devices hold is said for `P = N`. -/
structure ControlEffect (s t : State) (d : Nat) (a : DevReg) (op : Opcode) (v : Byte) : Prop where
  control : SameControl s t
  shadow : t.srf = s.srf
  sent : Sent s t [⟨d, op, v⟩]
  last : AfterTransfer s t ⟨d, op, v⟩
  device : s.WiredRight → DregWritten s t d a v

/-- The effect of a command that gives row `r` of device `d` the pattern `v`: the lane `(d, r)` of the shadow (when
HAS_SHADOW = 1; no lane when it is 0), one transfer, the digit register of row `r`. Every byte of SRF at another address reads
as before. -/
structure RowEffect (s t : State) (d r : Nat) (v : Byte) : Prop where
  control : SameControl s t
  shadow : s.params.hasShadow = true → t.sh d r = v
  lanes : ∀ a, a ≠ lane d r → t.srf.read a = s.srf.read a
  minimal : s.params.hasShadow = false → t.srf = s.srf
  sent : Sent s t [⟨d, rowOpcode r, v⟩]
  last : AfterTransfer s t ⟨d, rowOpcode r, v⟩
  device : s.WiredRight → ∀ q, rowReg r = some q → DregWritten s t d q v

/-- The effect of a command that gives all eight rows of device `d` patterns, row `r` the pattern `v r`, in ascending order:
eight lanes, eight transfers, eight digit registers. Every byte of SRF outside the eight lanes reads as before. -/
structure RowsEffect (s t : State) (d : Nat) (v : Nat → Byte) : Prop where
  control : SameControl s t
  shadow : s.params.hasShadow = true → ∀ r, r ≤ 7 → t.sh d r = v r
  lanes : ∀ a, a < lane d 0 ∨ lane d 7 < a → t.srf.read a = s.srf.read a
  minimal : s.params.hasShadow = false → t.srf = s.srf
  sent : Sent s t ((List.range 8).map (fun r => ⟨d, rowOpcode r, v r⟩))
  last : AfterTransfer s t ⟨d, 8#4, v 7⟩
  device : s.WiredRight → ∀ r q, r ≤ 7 → rowReg r = some q → t.dreg d q = some (v r)
  otherRegs : s.WiredRight → ∀ e q, ¬(e = d ∧ ∃ r, r ≤ 7 ∧ rowReg r = some q) → t.dreg e q = s.dreg e q

/-- The twelve transfers of INIT for device `d`, in order: display-test off, scan-limit 7, decode-mode off, the eight rows
cleared, power-down (43_controller_config.md R177). -/
def initTransfers (d : Nat) : List Transfer :=
  [⟨d, 15#4, 0x00#8⟩, ⟨d, 11#4, 0x07#8⟩, ⟨d, 9#4, 0x00#8⟩]
    ++ (List.range 8).map (fun r => ⟨d, rowOpcode r, 0x00#8⟩) ++ [⟨d, 12#4, 0x00#8⟩]

/-- What register `a` of an initialised device holds after INIT; the intensity is not written (43_controller_config.md R177,
70_reset_and_hazards.md R258, R265). -/
def initValue : DevReg → Option Byte
  | .intensity => none
  | .scanLimit => some 0x07#8
  | .digit0 => some 0x00#8
  | .digit1 => some 0x00#8
  | .digit2 => some 0x00#8
  | .digit3 => some 0x00#8
  | .digit4 => some 0x00#8
  | .digit5 => some 0x00#8
  | .digit6 => some 0x00#8
  | .digit7 => some 0x00#8
  | .decodeMode => some 0x00#8
  | .shutdown => some 0x00#8
  | .displayTest => some 0x00#8

/-- The effect of an INIT that runs, for the chain length `n` it sets (43_controller_config.md R177, 70_reset_and_hazards.md
R258). -/
structure InitEffect (s t : State) (n : Nat) : Prop where
  length : t.n.val = n
  inited : t.inited = true
  control : t.params = s.params ∧ t.busy = s.busy ∧ t.cw = s.cw ∧ t.uop = s.uop ∧ t.pos = s.pos ∧ t.rsp = s.rsp ∧
    t.rspValid = s.rspValid ∧ t.inputs = s.inputs
  shadow : s.params.hasShadow = true → ∀ d r, d < n → r ≤ 7 → t.sh d r = 0x00#8
  lanes : ∀ a, 8 * n ≤ a → t.srf.read a = s.srf.read a
  minimal : s.params.hasShadow = false → t.srf = s.srf
  sent : Sent s t ((List.range n).flatMap initTransfers)
  last : AfterTransfer s t ⟨n - 1, 12#4, 0x00#8⟩
  device : s.chain.length = n → ∀ d a, d < n → t.dreg d a = (initValue a).orElse (fun _ => s.dreg d a)

/-! ### Steps of the sequencer -/

/-- A busy block takes nothing from the host in this step: no input is left, the host does nothing, or the word it presents waits
(30_encoding.md R90). `rest` is what the host will do after the step. -/
def State.TakesNoWord (s : State) (rest : List Input) : Prop :=
  (s.inputs = [] ∧ rest = []) ∨ s.inputs = .tick :: rest ∨
    ((∃ w more, s.inputs = .command w :: more ∨ s.inputs = .accept w :: more) ∧ rest = s.inputs)

/-- FB holds the buffer of the transfer `x` (41_bus_serializer.md R127): opcode byte and data byte of the target, 0x00 for every
other device. -/
def State.BufferHolds (s : State) (x : Transfer) : Prop :=
  ∀ d, d < s.n.val →
    s.fb.read (2 * d) = (if d = x.target then x.op.setWidth 8 else 0x00#8) ∧
    s.fb.read (2 * d + 1) = (if d = x.target then x.data else 0x00#8)

/-- What no small step writes; `rsp_valid` falls and `rest` is what the host will do. -/
structure SameCommand (s t : State) (rest : List Input) : Prop where
  params : t.params = s.params
  n : t.n = s.n
  inited : t.inited = s.inited
  cw : t.cw = s.cw
  rsp : t.rsp = s.rsp
  rspValid : t.rspValid = false
  inputs : t.inputs = rest

/-- An entry of a list of length `len` has ended (10_state.md R30): UOP advances by one and POS returns to 0; at the end of the
list BUSY, UOP and POS are 0. -/
def EntryEnds (len : Nat) (s t : State) : Prop :=
  if s.uop.toNat + 1 < len then t.busy = true ∧ t.uop.toNat = s.uop.toNat + 1 ∧ t.pos = 0#9
  else t.busy = false ∧ t.uop = 0#8 ∧ t.pos = 0#9

/-- One small step that is a shadow write (00_scope.md R17, 44_controller_display.md R195): the entry ends with it, and no pin, no
log, no byte of FB and no device changes. -/
structure ShadowStep (len d r : Nat) (wdata wmask : Byte) (s t : State) : Prop where
  shadow : t.srf = (shWrite d r wdata wmask s).srf
  pins : t.cs = s.cs ∧ t.clk = s.clk ∧ t.din = s.din
  logs : t.pinLog = s.pinLog ∧ t.xferLog = s.xferLog
  buffer : t.fb = s.fb
  chain : t.chain = s.chain
  ends : EntryEnds len s t

/-- One small step that is the pin write `w` of the transfer `x` (00_scope.md R17, 10_state.md R30, 41_bus_serializer.md R128). FB
is built at POS = 0 and kept after it; `w` is the frame's entry at POS, and the pins and the chain are as that one write leaves
them; POS advances by one, and at the last pin write the transfer is complete and the entry ends. -/
structure PinWriteStep (len : Nat) (x : Transfer) (w : PinWrite) (s t : State) : Prop where
  buffer : t.fb = if s.pos = 0#9 then (buildFB x.target x.op x.data s).fb else s.fb
  entry : (framePins t.fb s.n.val)[s.pos.toNat]? = some w
  frame : s.pos = 0#9 ∨ s.BufferHolds x → t.BufferHolds x ∧ (transferPins s.n.val x)[s.pos.toNat]? = some w
  pins : t.cs = (pin w s).cs ∧ t.clk = (pin w s).clk ∧ t.din = (pin w s).din
  pinLog : t.pinLog = s.pinLog ++ [w]
  chain : t.chain = (pin w s).chain
  shadow : t.srf = s.srf
  goesOn : s.pos.toNat < 48 * s.n.val + 1 →
    t.pos.toNat = s.pos.toNat + 1 ∧ t.uop = s.uop ∧ t.busy = true ∧ t.xferLog = s.xferLog
  ends : s.pos.toNat = 48 * s.n.val + 1 → t.xferLog = s.xferLog ++ [x] ∧ EntryEnds len s t

/-- The checks a host command makes before it runs (43_controller_config.md R175, R178; the commands that need the shadow,
30_encoding.md R94). A wire opcode is no command. -/
def ChecksPass (s : State) : Instr → Prop
  | .init _ => s.inited = false
  | .shutdown a _ => a.toNat < s.n.val
  | .setScanLimit a _ => a.toNat < s.n.val
  | .setIntensity a _ => a.toNat < s.n.val
  | .clearDisplay a => a.toNat < s.n.val
  | .setLed a b c _ => s.params.hasShadow = true ∧ a.toNat < s.n.val ∧ b.toNat ≤ 7 ∧ c.toNat ≤ 7
  | .setRow a b _ => a.toNat < s.n.val ∧ b.toNat ≤ 7
  | .setColumn a b _ => s.params.hasShadow = true ∧ a.toNat < s.n.val ∧ b.toNat ≤ 7
  | .setDigit a b c _ => a.toNat < s.n.val ∧ b.toNat ≤ 7 ∧ c.toNat ≤ 15
  | .setChar a b _ _ => a.toNat < s.n.val ∧ b.toNat ≤ 7
  | .getDeviceCount => s.params.hasShadow = true
  | .noop _ _ => False
  | .digit0 _ _ => False
  | .digit1 _ _ => False
  | .digit2 _ _ => False
  | .digit3 _ _ => False
  | .digit4 _ _ => False
  | .digit5 _ _ => False
  | .digit6 _ _ => False
  | .digit7 _ _ => False
  | .decodeMode _ _ => False
  | .intensity _ _ => False
  | .scanLimit _ _ => False
  | .shutdownOp _ _ => False
  | .rsvd13 _ _ => False
  | .rsvd14 _ _ => False
  | .displayTest _ _ => False

/-! ### Runs of instructions -/

/-- Instructions one after another, stopping at the first that does not end in a next state. -/
def execAll : List Instr → State → Host.Outcome State Fault Refusal
  | [], s => .next s
  | i :: is, s =>
    match exec i s with
    | .next t => execAll is t
    | .fault r => .fault r
    | .refused r => .refused r

/-- The device a display command addresses (44_controller_display.md R204); none for the other instructions. -/
def displayAddress : Instr → Option Byte
  | .clearDisplay a => some a
  | .setLed a _ _ _ => some a
  | .setRow a _ _ => some a
  | .setColumn a _ _ => some a
  | .setDigit a _ _ _ => some a
  | .setChar a _ _ _ => some a
  | _ => none

/-- The number of transfers of a command that runs, with the chain length `n` it runs with (70_reset_and_hazards.md R272). -/
def transferCount (n : Nat) : Instr → Nat
  | .init _ => 12 * n
  | .clearDisplay _ => 8
  | .setColumn _ _ _ => 8
  | .getDeviceCount => 0
  | _ => 1

end Machine

end Sys2Proof
end

