-- ==== Sys2Proof/Certificates/Slice0/Obligations.lean ====
section
/-! DEFINITION. The statements for the provers. `Host.Outcome.next` is written `.next`; PinsIdle, WiredRight, RowEffect and the
other terms are Safety.lean's. A premise `s.srf.wf` or `s.fb.wf` is a part of the invariant (StepKeepsTheInvariant); it rules out
byte lists no run reaches. -/

open Sys2Proof Sys2Proof.Machine

/-! ### Encoding -/

/-- 30_encoding.md R80, R84, R91 to R93: no bit of an encoding is dropped. Every operand has every value of its field. -/
def Obligations.WellFormedInstructionsDecodeBack : Prop :=
  ∀ i : Instr, i.WellFormed → decode i.position (encode i) = .ok i

/-- 42_wire_opcodes.md R166 with 30_encoding.md R81: a device decodes every pair, by its lower twelve bits alone. -/
def Obligations.EveryPairDecodesByItsLowTwelveBits : Prop :=
  ∀ (d : Nat) (p : Pair),
    (decodePair d p).position = d ∧ encode (decodePair d p) = .pair (p &&& 0x0FFF#16) ∧
    ∀ q : Pair, p &&& 0x0FFF#16 = q &&& 0x0FFF#16 → decodePair d p = decodePair d q

/-- 30_encoding.md R94: which words are illegal, and that an illegal word is accepted and dropped, in either form of the
acceptance (log 6). That CW takes the word is the model's choice (log 5). -/
def Obligations.IllegalWordsAreAcceptedAndDropped : Prop :=
  ∀ w : CmdWord,
    ((∃ e, decodeCommand w = .illegal e) ↔
      (w.extractLsb' 25 3 ≠ 0#3 ∨ (w.extractLsb' 28 4).toNat = 0 ∨ 12 ≤ (w.extractLsb' 28 4).toNat)) ∧
    ∀ (s : State) (rest : List Input), s.busy = false →
      (s.inputs = .command w :: rest ∨ s.inputs = .accept w :: rest) →
      ((∃ e, decodeCommand w = .illegal e) ∨
        (s.params.hasShadow = false ∧ ((w.extractLsb' 28 4).toNat = 6 ∨ (w.extractLsb' 28 4).toNat = 8 ∨
          (w.extractLsb' 28 4).toNat = 11))) →
      step s = .next { s with inputs := rest, cw := w, rspValid := false }

/-- 30_encoding.md R80, R84, R91, R92 and 95_test_vectors.md: words written out bit by bit. -/
def Obligations.SampleWordsDecode : Prop :=
  decodeTableWord 16 0b0000010011111111 = some (.digit3 0 0xFF#8) ∧
  decodeTableWord 16 0b1111111100000010 = some (.displayTest 0 0x02#8) ∧
  decodeTableWord 16 0b0000110000000001 = some (.shutdownOp 0 0x01#8) ∧
  decodeTableWord 32 0b01100001000000010000001000000101 = some (.setLed 1#8 2#8 5#8 true) ∧
  decodeTableWord 32 0b00100000000000010000000000000000 = some (.shutdown 1#8 false) ∧
  decodeTableWord 32 0b10010001000000000000001100001000 = some (.setDigit 0#8 3#8 8#8 true) ∧
  decodeTableWord 32 0b01110010000000000000000011111111 = none ∧
  decodeTableWord 32 0b11000000000000000000000000000000 = none

/-! ### Steps -/

/-- 30_encoding.md R90, 43_controller_config.md R176: an idle block takes the word the host presents and runs its command, as one
step (the input `command`; the input `accept`, the acceptance alone, is AcceptanceIsOneStep's). That CW takes the word also when
the command then drops is the model's choice (log 5: R90 read against R220), and that `rsp_valid` falls at the start of the step
is its reading of R31 (log 27). -/
def Obligations.StepRunsTheDecodedCommand : Prop :=
  ∀ (s : State) (w : CmdWord) (rest : List Input) (i : Instr),
    s.busy = false → s.inputs = .command w :: rest → decodeCommand w = .ok i →
    step s = exec i { s with inputs := rest, cw := w, rspValid := false }

/-- 41_bus_serializer.md R128, R132, 42_wire_opcodes.md: the step that ends a frame raises chip-select, and in it every device
executes the wire opcode its own shift register holds, whatever the host does meanwhile but reset and device power. What opcodes 13
and 14 and the upper four bits do is the spec's choice (log 10, log 12). -/
def Obligations.LatchStepRunsTheDecodedPairs : Prop :=
  ∀ (s : State) (i : Instr) (c : Command) (t : Nat) (op : Opcode) (x : XferData) (rest : List Input),
    s.TakesNoWord rest → s.busy = true → s.cs = false →
    decodeCommand s.cw = .ok i → commandOf i = some c → (c.ops s)[s.uop.toNat]? = some (.xfer t op x) →
    t < s.n.val → op ≠ 13#4 → op ≠ 14#4 → s.pos.toNat = 48 * s.n.val + 1 →
    ∃ u, step s = .next u ∧ u.cs = true ∧ u.chain.length = s.chain.length ∧
      ∀ d dev, s.chain[d]? = some dev → ∃ v, exec (decodePair d dev.sr) s = .next v ∧ u.chain[d]? = v.chain[d]?

/-- 41_bus_serializer.md R132 and, opcode by opcode, 42_wire_opcodes.md: at the latch every device writes `SR[7:0]` to the
register `SR[11:8]` names, and nothing where there is none; its shift register stays. That is, at each device, the execution of
the wire opcode its shift register decodes to. That 13 and 14 write nothing (D23, log 10) and that `SR[15:12]` is ignored (D21,
log 12) are the spec's choices. -/
def Obligations.LatchIsTheExecutionOfEveryPair : Prop :=
  ∀ (s : State) (d : Nat) (dev : Device), s.chain[d]? = some dev →
    (∃ dev', (chainLatch s).chain[d]? = some dev' ∧ dev'.sr = dev.sr ∧
      ∀ a, dev'.regs.get a =
        if DevReg.ofOpcode (dev.sr.extractLsb' 8 4) = some a then dev.sr.extractLsb' 0 8 else dev.regs.get a) ∧
    ∃ t, exec (decodePair d dev.sr) s = .next t ∧ (chainLatch s).chain[d]? = t.chain[d]? ∧
      ∀ e, e ≠ d → t.chain[e]? = s.chain[e]?

/-- The model's own placing of a word (log 19): the very next step runs it. -/
def Obligations.PlacedWordsRunNext : Prop :=
  (∀ (s : State) (w : CmdWord) (i : Instr), decodeCommand w = .ok i →
    step (s.withFetchWord 32 w.toNat) =
      exec i { s with busy := false, uop := 0#8, pos := 0#9, cw := w, rspValid := false }) ∧
  (∀ (s : State) (p : Pair), s.chain ≠ [] →
    ∃ u v, step (s.withFetchWord 16 p.toNat) = .next u ∧ exec (decodePair 0 p) s = .next v ∧
      ∀ d a, u.dreg d a = v.dreg d a)

/-- 30_encoding.md R90: "While `BUSY = 1` the port is ignored: a word presented then is neither accepted nor lost, it waits". -/
def Obligations.BusyBlockLeavesTheWordWaiting : Prop :=
  ∀ (s t : State) (w : CmdWord) (rest : List Input),
    s.busy = true → (s.inputs = .command w :: rest ∨ s.inputs = .accept w :: rest) → step s = .next t →
    t.inputs = s.inputs ∧ t.cw = s.cw ∧ State.cmdReady s = false

/-! ### Wire opcodes -/

/-- 42_wire_opcodes.md R151 to R158: `DREG[d][r + 1] <- v`, and nothing else anywhere changes. Where no device is wired at `d`
nothing is written. -/
def Obligations.DigitOpcodesStoreTheirRow : Prop :=
  ∀ (s : State) (d : Nat) (v : Byte),
    (d < s.chain.length →
      (∃ t, exec (.digit0 d v) s = .next t ∧ StoredOnly s t d .digit0 v) ∧
      (∃ t, exec (.digit1 d v) s = .next t ∧ StoredOnly s t d .digit1 v) ∧
      (∃ t, exec (.digit2 d v) s = .next t ∧ StoredOnly s t d .digit2 v) ∧
      (∃ t, exec (.digit3 d v) s = .next t ∧ StoredOnly s t d .digit3 v) ∧
      (∃ t, exec (.digit4 d v) s = .next t ∧ StoredOnly s t d .digit4 v) ∧
      (∃ t, exec (.digit5 d v) s = .next t ∧ StoredOnly s t d .digit5 v) ∧
      (∃ t, exec (.digit6 d v) s = .next t ∧ StoredOnly s t d .digit6 v) ∧
      (∃ t, exec (.digit7 d v) s = .next t ∧ StoredOnly s t d .digit7 v)) ∧
    (s.chain.length ≤ d →
      exec (.digit0 d v) s = .next s ∧ exec (.digit1 d v) s = .next s ∧ exec (.digit2 d v) s = .next s ∧
      exec (.digit3 d v) s = .next s ∧ exec (.digit4 d v) s = .next s ∧ exec (.digit5 d v) s = .next s ∧
      exec (.digit6 d v) s = .next s ∧ exec (.digit7 d v) s = .next s)

/-- 42_wire_opcodes.md R159 to R162, R165: `DREG[d][9]`, `[10]`, `[11]`, `[12]`, `[15]` take `v`, all eight bits, and nothing
else anywhere changes. Where no device is wired at `d` nothing is written. -/
def Obligations.ControlOpcodesStoreTheirRegister : Prop :=
  ∀ (s : State) (d : Nat) (v : Byte),
    (d < s.chain.length →
      (∃ t, exec (.decodeMode d v) s = .next t ∧ StoredOnly s t d .decodeMode v) ∧
      (∃ t, exec (.intensity d v) s = .next t ∧ StoredOnly s t d .intensity v) ∧
      (∃ t, exec (.scanLimit d v) s = .next t ∧ StoredOnly s t d .scanLimit v) ∧
      (∃ t, exec (.shutdownOp d v) s = .next t ∧ StoredOnly s t d .shutdown v) ∧
      (∃ t, exec (.displayTest d v) s = .next t ∧ StoredOnly s t d .displayTest v)) ∧
    (s.chain.length ≤ d →
      exec (.decodeMode d v) s = .next s ∧ exec (.intensity d v) s = .next s ∧ exec (.scanLimit d v) s = .next s ∧
      exec (.shutdownOp d v) s = .next s ∧ exec (.displayTest d v) s = .next s)

/-- 42_wire_opcodes.md R150, R163, R164: NOOP, and the reserved opcodes 13 and 14 (the spec's choice D23, log 10), write
nothing, whatever the data byte is. -/
def Obligations.NoopAndReservedOpcodesWriteNothing : Prop :=
  ∀ (s : State) (d : Nat) (v : Byte),
    exec (.noop d v) s = .next s ∧ exec (.rsvd13 d v) s = .next s ∧ exec (.rsvd14 d v) s = .next s

/-! ### The pins and the transfer -/

/-- 41_bus_serializer.md R126: one pin write. It is recorded even when the level does not change; only a rising edge of CLK and a
rising edge of CS act on the chain; the other pins stay. -/
def Obligations.PinWritesAreRecordedAndOnlyRisingEdgesAct : Prop :=
  ∀ (s : State) (w : PinWrite),
    (pin w s).pinLog = s.pinLog ++ [w] ∧
    (pin w s).cs = (if w.pin = .cs then w.level else s.cs) ∧
    (pin w s).clk = (if w.pin = .clk then w.level else s.clk) ∧
    (pin w s).din = (if w.pin = .din then w.level else s.din) ∧
    (w = ⟨.clk, true⟩ → s.clk = false → (pin w s).chain = (chainShift s).chain) ∧
    (w = ⟨.cs, true⟩ → s.cs = false → (pin w s).chain = (chainLatch s).chain) ∧
    (¬(w = ⟨.clk, true⟩ ∧ s.clk = false) → ¬(w = ⟨.cs, true⟩ ∧ s.cs = false) → (pin w s).chain = s.chain)

/-- 41_bus_serializer.md R131: a rising clock edge performs `CH <- { CH[16*P-2 : 0], DIN }` on the whole chain, and changes no
device register. That all devices move on one edge with no delay is what R131 marks as the spec's idealisation (D19, log 13). -/
def Obligations.ClockEdgeShiftsTheWholeChain : Prop :=
  ∀ s : State,
    chainBits (chainShift s).chain = (chainBits s.chain ++ [s.din]).tail ∧
    (chainShift s).chain.map Device.regs = s.chain.map Device.regs ∧
    (∀ dev, s.chain[0]? = some dev → (chainShift s).shiftReg 0 = some (dev.sr.shiftConcat s.din)) ∧
    (∀ d dev next, s.chain[d]? = some dev → s.chain[d + 1]? = some next →
      (chainShift s).shiftReg (d + 1) = some (next.sr.shiftConcat (dev.sr.getLsbD 15)))

/-- 41_bus_serializer.md R126 to R128, 30_encoding.md R82, R83, 20_memory.md R56 to R58, R67: the pin writes of one transfer, in
order, and what it leaves. Nothing else of the block changes but FB, the pins and the logs. That the opcode byte goes before the
data byte is the spec's choice between two places of its source (D1, 90_conflicts.md C1, log 7). -/
def Obligations.TransferWritesThePinsInOrder : Prop :=
  ∀ (s : State) (x : Transfer), s.fb.wf → s.clk = false → x.target < s.n.val →
    (xfer x s).xferLog = s.xferLog ++ [x] ∧ (xfer x s).pinLog = s.pinLog ++ transferPins s.n.val x ∧
    AfterTransfer s (xfer x s) x ∧ SameControl s (xfer x s) ∧ (xfer x s).srf = s.srf

/-- 41_bus_serializer.md R130: how many pin writes of each kind the log gains in one transfer. -/
def Obligations.TransferPinCounts : Prop :=
  ∀ (s : State) (x : Transfer) (ws : List PinWrite), (xfer x s).pinLog = s.pinLog ++ ws →
    ws.length = 48 * s.n.val + 2 ∧
    ws.countP (fun w => decide (w.pin = .din)) = 16 * s.n.val ∧
    ws.countP (fun w => decide (w.pin = .clk)) = 32 * s.n.val ∧
    ws.countP (fun w => decide (w = ⟨.clk, true⟩)) = 16 * s.n.val ∧
    ws.countP (fun w => decide (w.pin = .cs)) = 2

/-- 41_bus_serializer.md R133: the result of one transfer when `P = N`. It rests on the byte order (D1, log 7), on the chain that
moves as one without delay (D19, log 13) and, for opcodes 13 and 14, on D23 (log 10). -/
def Obligations.TransferResultOnAChainWiredRight : Prop :=
  ∀ (s : State) (x : Transfer), s.fb.wf → s.clk = false → s.WiredRight → x.target < s.n.val →
    (∀ d, d < s.n.val → (xfer x s).shiftReg d = some (if d = x.target then 0#4 ++ x.op ++ x.data else 0x0000#16)) ∧
    (∀ a, DevReg.ofOpcode x.op = some a → DregWritten s (xfer x s) x.target a x.data) ∧
    (DevReg.ofOpcode x.op = none → ∀ d a, (xfer x s).dreg d a = s.dreg d a) ∧
    (xfer x s).cs = true ∧ (xfer x s).clk = false ∧
    (xfer x s).din = (if x.target = 0 then x.data.getLsbD 0 else false) ∧
    (xfer x s).pinLog = s.pinLog ++ transferPins s.n.val x ∧ (xfer x s).xferLog = s.xferLog ++ [x]

/-- 70_reset_and_hazards.md R262, R263: one frame on a chain of ANY wired length. A device below `N` ends with its own pair, a
device `d >= N` with what device `d - N` held before; each then executes what it holds. It rests on the byte order (D1, log 7), on
the chain that moves as one without delay (D19, log 13) and, for what an arbitrary pair does, on D21 and D23 (log 12, log 10). -/
def Obligations.TransferResultOnAnyChain : Prop :=
  ∀ (s : State) (x : Transfer), s.fb.wf → s.clk = false → x.target < s.n.val →
    (xfer x s).chain.length = s.chain.length ∧
    ∀ d dev, s.chain[d]? = some dev →
      ∃ q : Pair, (xfer x s).chain[d]? = some (Device.latch { dev with sr := q }) ∧
        (d < s.n.val → q = pairOf x d) ∧ (s.n.val ≤ d → s.shiftReg (d - s.n.val) = some q)

/-- 41_bus_serializer.md R129, 42_wire_opcodes.md R163, R164, 93_implementation_defined.md U2: a hand-built transfer outside the
precondition is refused, any other runs. -/
def Obligations.HandBuiltTransfersOutsideThePreconditionAreRefused : Prop :=
  ∀ (s : State) (t : Nat) (op : Opcode) (v : Byte),
    (s.n.val ≤ t → runOps [.xfer t op (.byte v)] s = .refused .xferTarget) ∧
    (t < s.n.val → (op = 13#4 ∨ op = 14#4) → runOps [.xfer t op (.byte v)] s = .refused .xferReservedOpcode) ∧
    (t < s.n.val → op ≠ 13#4 → op ≠ 14#4 → runOps [.xfer t op (.byte v)] s = .next (xfer ⟨t, op, v⟩ s))

/-! ### The shadow write port and the debug port -/

/-- 44_controller_display.md R195: `SH[d][r] <- (SH[d][r] & ~wmask) | (wdata & wmask)`; every other byte of SRF and everything
else is unchanged. -/
def Obligations.ShadowWriteChangesTheMaskedBitsOfOneLane : Prop :=
  ∀ (s : State) (d r : Nat) (wdata wmask : Byte), s.srf.wf →
    (∀ k, k < 8 → ((shWrite d r wdata wmask s).sh d r).getLsbD k =
      if wmask.getLsbD k then wdata.getLsbD k else (s.sh d r).getLsbD k) ∧
    (∀ a, a ≠ lane d r → (shWrite d r wdata wmask s).srf.read a = s.srf.read a) ∧
    (shWrite d r wdata wmask s).srf.wf ∧ { shWrite d r wdata wmask s with srf := s.srf } = s

/-- 10_state.md R26: `sh_rdata = SH[sh_raddr[5:3]][sh_raddr[2:0]]`; the port exists only when HAS_SHADOW = 1. -/
def Obligations.DebugPortReadsTheShadow : Prop :=
  ∀ (s : State) (d r : Nat), d < 8 → r < 8 →
    (s.params.hasShadow = true → s.debugRead (BitVec.ofNat 6 (8 * d + r)) = some (s.sh d r)) ∧
    (s.params.hasShadow = false → s.debugRead (BitVec.ofNat 6 (8 * d + r)) = none)

/-! ### Configuration commands -/

/-- 43_controller_config.md R177, R178, R258: INIT. -/
def Obligations.InitConfiguresEveryDevice : Prop :=
  ∀ (s : State) (a b c : Byte) (f : Bool),
    decodeCommand (encodeCommand 1#4 f a b c) = .ok (.init a) ∧
    (s.inited = true → exec (.init a) s = .next s) ∧
    (s.inited = false → s.srf.wf → s.fb.wf → s.PinsIdle →
      ∃ t, exec (.init a) s = .next t ∧
        InitEffect s t (if a.toNat = 0 then 1 else if a.toNat ≤ 8 then a.toNat else 8))

/-- 43_controller_config.md R179: SHUTDOWN sends the inverse of its flag. -/
def Obligations.ShutdownSendsTheInverseOfItsFlag : Prop :=
  ∀ (s : State) (a b c : Byte) (f : Bool),
    decodeCommand (encodeCommand 2#4 f a b c) = .ok (.shutdown a f) ∧
    (s.n.val ≤ a.toNat → exec (.shutdown a f) s = .next s) ∧
    (a.toNat < s.n.val → s.fb.wf → s.PinsIdle →
      ∃ t, exec (.shutdown a f) s = .next t ∧
        ControlEffect s t a.toNat .shutdown 12#4 (if f then 0x00#8 else 0x01#8))

/-- 43_controller_config.md R180, R183: SETSCANLIMIT forwards all eight bits of its operand. -/
def Obligations.SetScanLimitForwardsEveryValue : Prop :=
  ∀ (s : State) (a b c : Byte) (f : Bool),
    decodeCommand (encodeCommand 3#4 f a b c) = .ok (.setScanLimit a c) ∧
    (s.n.val ≤ a.toNat → exec (.setScanLimit a c) s = .next s) ∧
    (a.toNat < s.n.val → s.fb.wf → s.PinsIdle →
      ∃ t, exec (.setScanLimit a c) s = .next t ∧ ControlEffect s t a.toNat .scanLimit 11#4 c)

/-- 43_controller_config.md R181, R183: SETINTENSITY forwards all eight bits of its operand. -/
def Obligations.SetIntensityForwardsEveryValue : Prop :=
  ∀ (s : State) (a b c : Byte) (f : Bool),
    decodeCommand (encodeCommand 4#4 f a b c) = .ok (.setIntensity a c) ∧
    (s.n.val ≤ a.toNat → exec (.setIntensity a c) s = .next s) ∧
    (a.toNat < s.n.val → s.fb.wf → s.PinsIdle →
      ∃ t, exec (.setIntensity a c) s = .next t ∧ ControlEffect s t a.toNat .intensity 10#4 c)

/-- 43_controller_config.md R182: GETDEVICECOUNT. -/
def Obligations.GetDeviceCountReturnsTheChainLength : Prop :=
  ∀ (s : State) (a b c : Byte) (f : Bool),
    decodeCommand (encodeCommand 11#4 f a b c) = .ok .getDeviceCount ∧
    (s.params.hasShadow = false → exec .getDeviceCount s = .next s) ∧
    (s.params.hasShadow = true →
      ∃ t, exec .getDeviceCount s = .next t ∧ t.rsp.toNat = s.n.val ∧ t.rspValid = true ∧
        { t with rsp := s.rsp, rspValid := s.rspValid } = s)

/-! ### Display commands -/

/-- 44_controller_display.md R197: CLEARDISPLAY. -/
def Obligations.ClearDisplayClearsTheRowsOfOneDevice : Prop :=
  ∀ (s : State) (a b c : Byte) (f : Bool),
    decodeCommand (encodeCommand 5#4 f a b c) = .ok (.clearDisplay a) ∧
    (s.n.val ≤ a.toNat → exec (.clearDisplay a) s = .next s) ∧
    (a.toNat < s.n.val → s.srf.wf → s.fb.wf → s.PinsIdle →
      ∃ t, exec (.clearDisplay a) s = .next t ∧ RowsEffect s t a.toNat (fun _ => 0x00#8))

/-- 44_controller_display.md R198: SETLED sets or clears bit `7 - col` of one row. -/
def Obligations.SetLedChangesOneBitOfOneRow : Prop :=
  ∀ (s : State) (a b c : Byte) (f : Bool),
    decodeCommand (encodeCommand 6#4 f a b c) = .ok (.setLed a b c f) ∧
    ((s.params.hasShadow = false ∨ s.n.val ≤ a.toNat ∨ 7 < b.toNat ∨ 7 < c.toNat) →
      exec (.setLed a b c f) s = .next s) ∧
    (s.params.hasShadow = true → a.toNat < s.n.val → b.toNat ≤ 7 → c.toNat ≤ 7 →
      s.srf.wf → s.fb.wf → s.PinsIdle →
      ∃ t, exec (.setLed a b c f) s = .next t ∧
        RowEffect s t a.toNat b.toNat (t.sh a.toNat b.toNat) ∧
        ∀ k, k < 8 → (t.sh a.toNat b.toNat).getLsbD k =
          if k = 7 - c.toNat then f else (s.sh a.toNat b.toNat).getLsbD k)

/-- 44_controller_display.md R199: SETROW. -/
def Obligations.SetRowOverwritesOneRow : Prop :=
  ∀ (s : State) (a b c : Byte) (f : Bool),
    decodeCommand (encodeCommand 7#4 f a b c) = .ok (.setRow a b c) ∧
    ((s.n.val ≤ a.toNat ∨ 7 < b.toNat) → exec (.setRow a b c) s = .next s) ∧
    (a.toNat < s.n.val → b.toNat ≤ 7 → s.srf.wf → s.fb.wf → s.PinsIdle →
      ∃ t, exec (.setRow a b c) s = .next t ∧ RowEffect s t a.toNat b.toNat c)

/-- 44_controller_display.md R200: SETCOLUMN writes bit `7 - r` of its value to bit `7 - col` of row `r`. That the rows go in
ascending order is the spec's choice (D13, log 15). -/
def Obligations.SetColumnChangesOneBitOfEveryRow : Prop :=
  ∀ (s : State) (a b c : Byte) (f : Bool),
    decodeCommand (encodeCommand 8#4 f a b c) = .ok (.setColumn a b c) ∧
    ((s.params.hasShadow = false ∨ s.n.val ≤ a.toNat ∨ 7 < b.toNat) → exec (.setColumn a b c) s = .next s) ∧
    (s.params.hasShadow = true → a.toNat < s.n.val → b.toNat ≤ 7 → s.srf.wf → s.fb.wf → s.PinsIdle →
      ∃ t, exec (.setColumn a b c) s = .next t ∧
        RowsEffect s t a.toNat (fun r => t.sh a.toNat r) ∧
        ∀ r k, r ≤ 7 → k < 8 → (t.sh a.toNat r).getLsbD k =
          if k = 7 - b.toNat then c.getLsbD (7 - r) else (s.sh a.toNat r).getLsbD k)

/-- 44_controller_display.md R201 with 40_segment_encoder.md R117, R120: SETDIGIT. -/
def Obligations.SetDigitSendsTheTableEntry : Prop :=
  ∀ (s : State) (a b c : Byte) (f : Bool),
    decodeCommand (encodeCommand 9#4 f a b c) = .ok (.setDigit a b c f) ∧
    ((s.n.val ≤ a.toNat ∨ 7 < b.toNat ∨ 15 < c.toNat) → exec (.setDigit a b c f) s = .next s) ∧
    (∀ hc : c.toNat ≤ 15, a.toNat < s.n.val → b.toNat ≤ 7 → s.srf.wf → s.fb.wf → s.PinsIdle →
      ∃ t, exec (.setDigit a b c f) s = .next t ∧
        RowEffect s t a.toNat b.toNat
          ((s.params.segRom[c.toNat]'(Nat.lt_of_le_of_lt hc (by decide))) ||| (if f then 0x80#8 else 0x00#8)))

/-- 44_controller_display.md R202 with 30_encoding.md R98, 40_segment_encoder.md R118, R120: SETCHAR. -/
def Obligations.SetCharSendsTheTableEntry : Prop :=
  ∀ (s : State) (a b c : Byte) (f : Bool),
    decodeCommand (encodeCommand 10#4 f a b c) = .ok (.setChar a b c f) ∧
    ((s.n.val ≤ a.toNat ∨ 7 < b.toNat) → exec (.setChar a b c f) s = .next s) ∧
    (∀ hc : c.toNat ≤ 127, a.toNat < s.n.val → b.toNat ≤ 7 → s.srf.wf → s.fb.wf → s.PinsIdle →
      ∃ t, exec (.setChar a b c f) s = .next t ∧
        RowEffect s t a.toNat b.toNat
          ((s.params.segRom[c.toNat]'(Nat.lt_of_le_of_lt hc (by decide))) ||| (if f then 0x80#8 else 0x00#8))) ∧
    (127 < c.toNat → a.toNat < s.n.val → b.toNat ≤ 7 → s.srf.wf → s.fb.wf → s.PinsIdle →
      ∃ t, exec (.setChar a b c f) s = .next t ∧
        RowEffect s t a.toNat b.toNat (s.params.segRom[32] ||| (if f then 0x80#8 else 0x00#8)))

/-- 40_segment_encoder.md R112, R114, R119, R120 and the source's examples: under SEG_P1 and SEG_P3 the three digits and the
space, with and without the decimal point; both functions read one table. -/
def Obligations.SegmentEncoderReadsOneTable : Prop :=
  ∀ (p : Params),
    (∀ v : BitVec 4, encChar p (v.setWidth 7) = encDigit p v) ∧
    (p.SegP1 → digitPattern p 0#8 false = 0x7E#8 ∧ digitPattern p 1#8 false = 0x30#8 ∧ digitPattern p 8#8 true = 0xFF#8) ∧
    (p.SegP3 → ∀ c : Byte, 127 < c.toNat → charPattern p c false = 0x00#8 ∧ charPattern p c true = 0x80#8) ∧
    (p.SegP4 → ∀ c : Byte, (charPattern p c false).getLsbD 7 = false ∧ (digitPattern p c false).getLsbD 7 = false) ∧
    (∀ c : Byte, (charPattern p c true).getLsbD 7 = true ∧ (digitPattern p c true).getLsbD 7 = true)

/-- 44_controller_display.md R200 and 95_test_vectors.md section 5, property 7: the state and both logs after SETCOLUMN are those
after the eight SETLED commands. That the logs agree rests on the ascending order of the rows, the spec's choice (D13, log 15). -/
def Obligations.SetColumnEqualsEightSetLeds : Prop :=
  ∀ (s : State) (a b c : Byte), s.params.hasShadow = true → a.toNat < s.n.val → b.toNat ≤ 7 →
    exec (.setColumn a b c) s =
      execAll ((List.range 8).map (fun r => Instr.setLed a (BitVec.ofNat 8 r) b (c.getLsbD (7 - r)))) s

/-- 95_test_vectors.md section 5, property 8: SETLED is idempotent on the shadow and on the device registers, and the frame is
sent again. -/
def Obligations.SetLedIsIdempotent : Prop :=
  ∀ (s t u : State) (a b c : Byte) (f : Bool),
    s.params.hasShadow = true → a.toNat < s.n.val → b.toNat ≤ 7 → c.toNat ≤ 7 →
    s.srf.wf → s.fb.wf → s.PinsIdle → s.WiredRight →
    exec (.setLed a b c f) s = .next t → exec (.setLed a b c f) t = .next u →
    u.srf = t.srf ∧ (∀ d q, u.dreg d q = t.dreg d q) ∧ u.xferLog.length = t.xferLog.length + 1

/-- 44_controller_display.md R204: "A display command writes shadow lanes and device registers of the addressed device only", and
every transfer it makes has that device as its target, so that every other device receives NOOP. -/
def Obligations.DisplayCommandsTouchOneDevice : Prop :=
  ∀ (s t : State) (i : Instr) (a : Byte), displayAddress i = some a →
    s.srf.wf → s.fb.wf → s.PinsIdle → exec i s = .next t →
    (∀ d r, d ≠ a.toNat → r ≤ 7 → t.sh d r = s.sh d r) ∧
    (∃ xs, Sent s t xs ∧ ∀ x ∈ xs, x.target = a.toNat) ∧
    (s.WiredRight → ∀ d q, d ≠ a.toNat → t.dreg d q = s.dreg d q)

/-- 44_controller_display.md R196: without the shadow the same frames are sent, and SRF is not written. -/
def Obligations.MinimalSetSendsTheSameFrames : Prop :=
  ∀ (s t : State) (i : Instr),
    (∃ a, i = .clearDisplay a) ∨ (∃ a b c, i = .setRow a b c) ∨ (∃ a b c f, i = .setDigit a b c f) ∨
      (∃ a b c f, i = .setChar a b c f) ∨ (∃ a, i = .init a) →
    exec i s = .next t →
    ∃ u, exec i { s with params := { s.params with hasShadow := false } } = .next u ∧ u.srf = s.srf ∧
      u.pinTrace = t.pinTrace ∧ u.xferTrace = t.xferTrace ∧ u.chain = t.chain ∧ u.n = t.n

/-! ### Whole-machine rules -/

/-- 60_exceptions.md R220, R221, R228, R231: no instruction stops the machine, in any state at all. -/
def Obligations.EveryInstructionEndsInANextState : Prop :=
  ∀ (i : Instr) (s : State), ∃ t, exec i s = .next t

/-- 60_exceptions.md R221, R228, R231 for steps: from a state that meets the invariant every step, small steps and reset included,
ends in a next state. -/
def Obligations.NoStepStops : Prop :=
  ∀ s : State, s.Inv → ∃ t, step s = .next t

/-- The state after reset meets the invariant, for any parameters and any initial contents of the devices. -/
def Obligations.ResetMeetsTheInvariant : Prop :=
  State.reset.Inv ∧ ∀ (p : Params) (ds : List Device), (State.powerOn p ds).Inv

/-- 10_state.md R21, R22, R27, R29, R30 and the canonical form of SRF and FB: every step keeps the invariant. -/
def Obligations.StepKeepsTheInvariant : Prop :=
  ∀ s t : State, s.Inv → step s = .next t → t.Inv

/-- 00_scope.md R17, 92_eei_decisions.md D34: a command executed as one big step is reached by its small steps. The state reached
is the same in every field. This says that some number of steps reaches it; that the first is the acceptance alone and each
further one a single pin write or shadow write is said by AcceptanceIsOneStep and BusyStepIsOnePinWriteOrOneShadowWrite. -/
def Obligations.SmallStepsComposeToTheBigStep : Prop :=
  ∀ (s t : State) (w : CmdWord), s.Idle → s.inputs = [] →
    step { s with inputs := [.command w] } = .next t →
    ∃ k, Host.Core.run core k { s with inputs := [.accept w] } = .next t

/-- 44_controller_display.md R203: with the shadow present, every instruction keeps "shadow equals last sent". -/
def Obligations.ShadowEqualsLastSentIsKept : Prop :=
  ∀ (i : Instr) (s t : State), s.params.hasShadow = true → s.srf.wf → s.ShadowIsLastSent → exec i s = .next t →
    t.ShadowIsLastSent

/-- 44_controller_display.md R203, 70_reset_and_hazards.md R266: with `P = N` every host command keeps the devices' digit
registers equal to the shadow, and INIT establishes it. -/
def Obligations.DigitRegistersFollowTheShadow : Prop :=
  ∀ (i : Instr) (s t : State), i.isHost = true → s.params.hasShadow = true → s.srf.wf → s.fb.wf → s.PinsIdle →
    exec i s = .next t → t.WiredRight →
    (s.ShadowMatchesChain ∨ ∃ a, i = .init a ∧ s.inited = false) → t.ShadowMatchesChain

/-- 20_memory.md R66: in the list of every command that runs, a transfer to a digit register comes after the shadow write that
gives the lane the byte it sends. R66 says strictly before; that it stands right before (`k = j + 1`) is the spec's choice (R197,
D12, log 15). -/
def Obligations.ShadowIsWrittenBeforeTheWire : Prop :=
  ∀ (i : Instr) (c : Command) (s : State) (k d r : Nat) (x : XferData),
    commandOf i = some c → s.params.hasShadow = true → c.accepts s = true → r ≤ 7 →
    (c.ops (c.immediate s))[k]? = some (.xfer d (rowOpcode r) x) →
    ∃ j wdata wmask, k = j + 1 ∧ (c.ops (c.immediate s))[j]? = some (.shWrite d r wdata wmask) ∧
      (x = .shadow d r ∨ (wmask = 0xFF#8 ∧ x = .byte wdata))

/-- 30_encoding.md R85, 41_bus_serializer.md R129, 42_wire_opcodes.md R167: what a command that runs can send. -/
def Obligations.CommandsSendOnlyAssignedOpcodes : Prop :=
  ∀ (i : Instr) (c : Command) (s : State) (t : Nat) (op : Opcode) (x : XferData),
    commandOf i = some c → c.accepts s = true → .xfer t op x ∈ c.ops (c.immediate s) →
    t < (c.immediate s).n.val ∧ (DevReg.ofOpcode op).isSome = true ∧
    (op = 9#4 ∨ op = 15#4 → (∃ a, i = .init a) ∧ x = .byte 0x00#8) ∧
    (op = 10#4 → ∃ a v, i = .setIntensity a v ∧ x = .byte v) ∧
    (op = 12#4 → ∃ v, x = .byte v ∧ (v = 0x00#8 ∨ v = 0x01#8))

/-- 70_reset_and_hazards.md R272, R130: transfers and pin writes of a command that runs. -/
def Obligations.StepCountsOfACommandThatRuns : Prop :=
  ∀ (i : Instr) (c : Command) (s t : State), commandOf i = some c → c.accepts s = true → exec i s = .next t →
    t.xferTrace.length = s.xferTrace.length + transferCount t.n.val i ∧
    t.pinTrace.length = s.pinTrace.length + transferCount t.n.val i * (48 * t.n.val + 2)

/-- 10_state.md R20, R21, 43_controller_config.md R178: between resets `N` and INITED are written at most once, and no instruction
but INIT writes them. -/
def Obligations.ChainLengthIsWrittenAtMostOnce : Prop :=
  (∀ (i : Instr) (s t : State), exec i s = .next t → (s.inited = true ∨ ∀ a, i ≠ .init a) →
    t.n = s.n ∧ t.inited = s.inited) ∧
  (∀ s t : State, step s = .next t → s.inited = true → (∀ rest, s.inputs ≠ .reset :: rest) →
    t.n = s.n ∧ t.inited = true)

/-- 10_state.md R37, 60_exceptions.md R244: no step changes HAS_SHADOW, SEGROM or P. -/
def Obligations.ParametersNeverChange : Prop :=
  ∀ s t : State, step s = .next t → t.params = s.params ∧ t.chain.length = s.chain.length

/-- 10_state.md R31, 43_controller_config.md R182: `rsp_valid` is 1 after a step only when that step completed GETDEVICECOUNT. That
RSP is then N is the spec's reading of the command's name (D16, log 9); that the strobe shows in the state after the step is the
model's (log 27). -/
def Obligations.ResponseIsValidOnlyForGetDeviceCount : Prop :=
  ∀ s t : State, step s = .next t → t.rspValid = true →
    s.busy = false ∧ s.params.hasShadow = true ∧ t.rsp.toNat = s.n.val ∧
    ∃ w rest, (s.inputs = .command w :: rest ∨ s.inputs = .accept w :: rest) ∧ decodeCommand w = .ok .getDeviceCount

/-- 70_reset_and_hazards.md R265, R268: with `P = N` no host command but SETINTENSITY changes an intensity register, and none but
INIT a decode-mode or display-test register. -/
def Obligations.SomeDeviceRegistersHaveOneWriter : Prop :=
  ∀ (i : Instr) (s t : State) (d : Nat), i.isHost = true → s.fb.wf → s.PinsIdle → exec i s = .next t → t.WiredRight →
    ((∀ a v, i ≠ .setIntensity a v) → t.dreg d .intensity = s.dreg d .intensity) ∧
    ((∀ a, i ≠ .init a) → t.dreg d .decodeMode = s.dreg d .decodeMode ∧ t.dreg d .displayTest = s.dreg d .displayTest)

/-! ### Reset and device power -/

/-- 70_reset_and_hazards.md R250, R251, R252, 10_state.md R39: reset, whatever the block was doing. FB, CW and RSP, for which the
spec states no reset value, stay (the model's choice, log 4). -/
def Obligations.ResetTakesTheResetState : Prop :=
  ∀ (s : State) (rest : List Input), s.inputs = .reset :: rest →
    ∃ t, step s = .next t ∧ t.n = 0 ∧ t.inited = false ∧ (∀ d r, t.sh d r = 0x00#8) ∧ t.cs = true ∧ t.clk = false ∧
      t.din = false ∧ t.busy = false ∧ t.uop = 0#8 ∧ t.pos = 0#9 ∧ t.rspValid = false ∧ t.pinLog = [] ∧ t.xferLog = [] ∧
      t.inputs = rest ∧ t.params = s.params ∧ t.fb = s.fb ∧ t.cw = s.cw ∧ t.rsp = s.rsp ∧
      (s.cs = true → t.chain = s.chain) ∧ (s.cs = false → t.chain = (chainLatch s).chain)

/-- 70_reset_and_hazards.md R264: reset inside a frame, after `j` of its clock pulses. The chain then holds its old bits shifted by
`j` and the first `j` bits of the frame, no device register has changed, and the reset makes every device latch what it holds.
It rests on the byte order (log 7) and on the chain that moves as one without delay (log 13). -/
def Obligations.ResetInsideAFrameLatchesAPartialFrame : Prop :=
  ∀ (s : State) (x : Transfer) (j : Nat), s.clk = false → x.target < s.n.val → j ≤ 16 * s.n.val →
    let m := runPins ((transferPins s.n.val x).take (1 + 3 * j)) s
    m.cs = false ∧ m.chain.map Device.regs = s.chain.map Device.regs ∧
    chainBits m.chain = (chainBits s.chain ++ ((List.range (16 * s.n.val)).map (frameBit s.n.val x)).take j).drop j ∧
    (blockReset m).chain = m.chain.map Device.latch ∧ (blockReset m).n = 0 ∧ (blockReset m).srf = []

/-- 60_exceptions.md R242, 70_reset_and_hazards.md R266(b): a device that lost power has new contents, and nothing else of the
machine changes, but that `rsp_valid` falls as in every step (log 27). The event is the model's own form (log 20). -/
def Obligations.DevicePowerTouchesOneDevice : Prop :=
  ∀ (s : State) (d : Nat) (dev : Device) (rest : List Input), s.inputs = .devicePower d dev :: rest →
    ∃ t, step s = .next t ∧ (d < s.chain.length → t.chain[d]? = some dev) ∧ (∀ e, e ≠ d → t.chain[e]? = s.chain[e]?) ∧
      t.inputs = rest ∧ t.rspValid = false ∧ { t with chain := s.chain, inputs := s.inputs, rspValid := s.rspValid } = s

/-! ### Small steps -/

/-- 10_state.md R30, 00_scope.md R17, 41_bus_serializer.md R128: what ONE step of a busy block is, when the host does nothing, has
nothing left to do, or presents a word that waits. It is the entry of the list of the command in CW that UOP names: one shadow
write, or one pin write, the one of the frame at POS. POS advances by one; at the end of an entry UOP advances by one and POS
returns to 0; at the end of the list BUSY, UOP and POS return to 0. The order of the frame's bytes is log 7's. -/
def Obligations.BusyStepIsOnePinWriteOrOneShadowWrite : Prop :=
  ∀ (s : State) (rest : List Input), s.Inv → s.busy = true → s.TakesNoWord rest →
    ∃ i c op t, decodeCommand s.cw = .ok i ∧ commandOf i = some c ∧ (c.ops s)[s.uop.toNat]? = some op ∧
      step s = .next t ∧ SameCommand s t rest ∧
      match op with
      | .shWrite d r wdata wmask => ShadowStep (c.ops s).length d r wdata wmask s t
      | .xfer target o x => ∃ w, PinWriteStep (c.ops s).length ⟨target, o, x.value s⟩ w s t

/-- 30_encoding.md R90, R94, 43_controller_config.md R175, R177, R182: the acceptance of a word as a step of its own. A word that is
illegal, that drops or that has no micro-operations completes in that step with BUSY = 0; a word that runs leaves BUSY = 1,
UOP = POS = 0, and of its effects only those of the acceptance: INIT's N and INITED. The input `accept` is the model's form
(log 6), that CW takes the word also on a drop its choice (log 5), the strobe log 27's, N as the response D16 (log 9), the clamp D10
(log 8). -/
def Obligations.AcceptanceIsOneStep : Prop :=
  ∀ (s : State) (w : CmdWord) (rest : List Input), s.busy = false → s.inputs = .accept w :: rest →
    let u := { s with inputs := rest, cw := w, rspValid := false }
    ((∃ e, decodeCommand w = .illegal e) → step s = .next u) ∧
    ∀ i, decodeCommand w = .ok i →
      (¬ ChecksPass u i → step s = .next u) ∧
      (ChecksPass u i → i = .getDeviceCount →
        step s = .next { u with rsp := BitVec.ofNat 8 s.n.val, rspValid := true }) ∧
      (∀ a, ChecksPass u i → i = .init a → ∃ m : Fin 9,
        m.val = (if a.toNat = 0 then 1 else if a.toNat ≤ 8 then a.toNat else 8) ∧
        step s = .next { u with n := m, inited := true, busy := true, uop := 0#8, pos := 0#9 }) ∧
      (ChecksPass u i → i ≠ .getDeviceCount → (∀ a, i ≠ .init a) →
        step s = .next { u with busy := true, uop := 0#8, pos := 0#9 })
end

