-- ==== Sys2Proof/Laws/State.lean ====
section
/-! SUPPORT. One lemma per field per update: what each shared operation leaves unchanged, so that no later proof unfolds a record
update. -/

namespace Sys2Proof.Machine

section chainShift

variable  (s : State)

@[simp] theorem chainShift_params : (chainShift s).params = s.params := rfl
@[simp] theorem chainShift_n : (chainShift s).n = s.n := rfl
@[simp] theorem chainShift_inited : (chainShift s).inited = s.inited := rfl
@[simp] theorem chainShift_srf : (chainShift s).srf = s.srf := rfl
@[simp] theorem chainShift_cs : (chainShift s).cs = s.cs := rfl
@[simp] theorem chainShift_clk : (chainShift s).clk = s.clk := rfl
@[simp] theorem chainShift_din : (chainShift s).din = s.din := rfl
@[simp] theorem chainShift_fb : (chainShift s).fb = s.fb := rfl
@[simp] theorem chainShift_busy : (chainShift s).busy = s.busy := rfl
@[simp] theorem chainShift_cw : (chainShift s).cw = s.cw := rfl
@[simp] theorem chainShift_uop : (chainShift s).uop = s.uop := rfl
@[simp] theorem chainShift_pos : (chainShift s).pos = s.pos := rfl
@[simp] theorem chainShift_rsp : (chainShift s).rsp = s.rsp := rfl
@[simp] theorem chainShift_rspValid : (chainShift s).rspValid = s.rspValid := rfl
@[simp] theorem chainShift_inputs : (chainShift s).inputs = s.inputs := rfl
@[simp] theorem chainShift_pinTrace : (chainShift s).pinTrace = s.pinTrace := rfl
@[simp] theorem chainShift_xferTrace : (chainShift s).xferTrace = s.xferTrace := rfl

end chainShift

section chainLatch

variable  (s : State)

@[simp] theorem chainLatch_params : (chainLatch s).params = s.params := rfl
@[simp] theorem chainLatch_n : (chainLatch s).n = s.n := rfl
@[simp] theorem chainLatch_inited : (chainLatch s).inited = s.inited := rfl
@[simp] theorem chainLatch_srf : (chainLatch s).srf = s.srf := rfl
@[simp] theorem chainLatch_cs : (chainLatch s).cs = s.cs := rfl
@[simp] theorem chainLatch_clk : (chainLatch s).clk = s.clk := rfl
@[simp] theorem chainLatch_din : (chainLatch s).din = s.din := rfl
@[simp] theorem chainLatch_fb : (chainLatch s).fb = s.fb := rfl
@[simp] theorem chainLatch_busy : (chainLatch s).busy = s.busy := rfl
@[simp] theorem chainLatch_cw : (chainLatch s).cw = s.cw := rfl
@[simp] theorem chainLatch_uop : (chainLatch s).uop = s.uop := rfl
@[simp] theorem chainLatch_pos : (chainLatch s).pos = s.pos := rfl
@[simp] theorem chainLatch_rsp : (chainLatch s).rsp = s.rsp := rfl
@[simp] theorem chainLatch_rspValid : (chainLatch s).rspValid = s.rspValid := rfl
@[simp] theorem chainLatch_inputs : (chainLatch s).inputs = s.inputs := rfl
@[simp] theorem chainLatch_pinTrace : (chainLatch s).pinTrace = s.pinTrace := rfl
@[simp] theorem chainLatch_xferTrace : (chainLatch s).xferTrace = s.xferTrace := rfl

end chainLatch

section logTransfer

variable (x : Transfer) (s : State)

@[simp] theorem logTransfer_params : (logTransfer x s).params = s.params := rfl
@[simp] theorem logTransfer_n : (logTransfer x s).n = s.n := rfl
@[simp] theorem logTransfer_inited : (logTransfer x s).inited = s.inited := rfl
@[simp] theorem logTransfer_srf : (logTransfer x s).srf = s.srf := rfl
@[simp] theorem logTransfer_cs : (logTransfer x s).cs = s.cs := rfl
@[simp] theorem logTransfer_clk : (logTransfer x s).clk = s.clk := rfl
@[simp] theorem logTransfer_din : (logTransfer x s).din = s.din := rfl
@[simp] theorem logTransfer_fb : (logTransfer x s).fb = s.fb := rfl
@[simp] theorem logTransfer_busy : (logTransfer x s).busy = s.busy := rfl
@[simp] theorem logTransfer_cw : (logTransfer x s).cw = s.cw := rfl
@[simp] theorem logTransfer_uop : (logTransfer x s).uop = s.uop := rfl
@[simp] theorem logTransfer_pos : (logTransfer x s).pos = s.pos := rfl
@[simp] theorem logTransfer_rsp : (logTransfer x s).rsp = s.rsp := rfl
@[simp] theorem logTransfer_rspValid : (logTransfer x s).rspValid = s.rspValid := rfl
@[simp] theorem logTransfer_chain : (logTransfer x s).chain = s.chain := rfl
@[simp] theorem logTransfer_inputs : (logTransfer x s).inputs = s.inputs := rfl
@[simp] theorem logTransfer_pinTrace : (logTransfer x s).pinTrace = s.pinTrace := rfl

end logTransfer

section buildFB

variable (t : Nat) (op : Opcode) (data : Byte) (s : State)

@[simp] theorem buildFB_params : (buildFB t op data s).params = s.params := rfl
@[simp] theorem buildFB_n : (buildFB t op data s).n = s.n := rfl
@[simp] theorem buildFB_inited : (buildFB t op data s).inited = s.inited := rfl
@[simp] theorem buildFB_srf : (buildFB t op data s).srf = s.srf := rfl
@[simp] theorem buildFB_cs : (buildFB t op data s).cs = s.cs := rfl
@[simp] theorem buildFB_clk : (buildFB t op data s).clk = s.clk := rfl
@[simp] theorem buildFB_din : (buildFB t op data s).din = s.din := rfl
@[simp] theorem buildFB_busy : (buildFB t op data s).busy = s.busy := rfl
@[simp] theorem buildFB_cw : (buildFB t op data s).cw = s.cw := rfl
@[simp] theorem buildFB_uop : (buildFB t op data s).uop = s.uop := rfl
@[simp] theorem buildFB_pos : (buildFB t op data s).pos = s.pos := rfl
@[simp] theorem buildFB_rsp : (buildFB t op data s).rsp = s.rsp := rfl
@[simp] theorem buildFB_rspValid : (buildFB t op data s).rspValid = s.rspValid := rfl
@[simp] theorem buildFB_chain : (buildFB t op data s).chain = s.chain := rfl
@[simp] theorem buildFB_inputs : (buildFB t op data s).inputs = s.inputs := rfl
@[simp] theorem buildFB_pinTrace : (buildFB t op data s).pinTrace = s.pinTrace := rfl
@[simp] theorem buildFB_xferTrace : (buildFB t op data s).xferTrace = s.xferTrace := rfl

end buildFB

section shWrite

variable (d r : Nat) (wdata wmask : Byte) (s : State)

@[simp] theorem shWrite_params : (shWrite d r wdata wmask s).params = s.params := rfl
@[simp] theorem shWrite_n : (shWrite d r wdata wmask s).n = s.n := rfl
@[simp] theorem shWrite_inited : (shWrite d r wdata wmask s).inited = s.inited := rfl
@[simp] theorem shWrite_cs : (shWrite d r wdata wmask s).cs = s.cs := rfl
@[simp] theorem shWrite_clk : (shWrite d r wdata wmask s).clk = s.clk := rfl
@[simp] theorem shWrite_din : (shWrite d r wdata wmask s).din = s.din := rfl
@[simp] theorem shWrite_fb : (shWrite d r wdata wmask s).fb = s.fb := rfl
@[simp] theorem shWrite_busy : (shWrite d r wdata wmask s).busy = s.busy := rfl
@[simp] theorem shWrite_cw : (shWrite d r wdata wmask s).cw = s.cw := rfl
@[simp] theorem shWrite_uop : (shWrite d r wdata wmask s).uop = s.uop := rfl
@[simp] theorem shWrite_pos : (shWrite d r wdata wmask s).pos = s.pos := rfl
@[simp] theorem shWrite_rsp : (shWrite d r wdata wmask s).rsp = s.rsp := rfl
@[simp] theorem shWrite_rspValid : (shWrite d r wdata wmask s).rspValid = s.rspValid := rfl
@[simp] theorem shWrite_chain : (shWrite d r wdata wmask s).chain = s.chain := rfl
@[simp] theorem shWrite_inputs : (shWrite d r wdata wmask s).inputs = s.inputs := rfl
@[simp] theorem shWrite_pinTrace : (shWrite d r wdata wmask s).pinTrace = s.pinTrace := rfl
@[simp] theorem shWrite_xferTrace : (shWrite d r wdata wmask s).xferTrace = s.xferTrace := rfl

end shWrite

section writeDreg

variable (d : Nat) (a : DevReg) (v : Byte) (s : State)

@[simp] theorem writeDreg_params : (s.writeDreg d a v).params = s.params := rfl
@[simp] theorem writeDreg_n : (s.writeDreg d a v).n = s.n := rfl
@[simp] theorem writeDreg_inited : (s.writeDreg d a v).inited = s.inited := rfl
@[simp] theorem writeDreg_srf : (s.writeDreg d a v).srf = s.srf := rfl
@[simp] theorem writeDreg_cs : (s.writeDreg d a v).cs = s.cs := rfl
@[simp] theorem writeDreg_clk : (s.writeDreg d a v).clk = s.clk := rfl
@[simp] theorem writeDreg_din : (s.writeDreg d a v).din = s.din := rfl
@[simp] theorem writeDreg_fb : (s.writeDreg d a v).fb = s.fb := rfl
@[simp] theorem writeDreg_busy : (s.writeDreg d a v).busy = s.busy := rfl
@[simp] theorem writeDreg_cw : (s.writeDreg d a v).cw = s.cw := rfl
@[simp] theorem writeDreg_uop : (s.writeDreg d a v).uop = s.uop := rfl
@[simp] theorem writeDreg_pos : (s.writeDreg d a v).pos = s.pos := rfl
@[simp] theorem writeDreg_rsp : (s.writeDreg d a v).rsp = s.rsp := rfl
@[simp] theorem writeDreg_rspValid : (s.writeDreg d a v).rspValid = s.rspValid := rfl
@[simp] theorem writeDreg_inputs : (s.writeDreg d a v).inputs = s.inputs := rfl
@[simp] theorem writeDreg_pinTrace : (s.writeDreg d a v).pinTrace = s.pinTrace := rfl
@[simp] theorem writeDreg_xferTrace : (s.writeDreg d a v).xferTrace = s.xferTrace := rfl

end writeDreg

section endCommand

variable  (s : State)

@[simp] theorem endCommand_params : (endCommand s).params = s.params := rfl
@[simp] theorem endCommand_n : (endCommand s).n = s.n := rfl
@[simp] theorem endCommand_inited : (endCommand s).inited = s.inited := rfl
@[simp] theorem endCommand_srf : (endCommand s).srf = s.srf := rfl
@[simp] theorem endCommand_cs : (endCommand s).cs = s.cs := rfl
@[simp] theorem endCommand_clk : (endCommand s).clk = s.clk := rfl
@[simp] theorem endCommand_din : (endCommand s).din = s.din := rfl
@[simp] theorem endCommand_fb : (endCommand s).fb = s.fb := rfl
@[simp] theorem endCommand_cw : (endCommand s).cw = s.cw := rfl
@[simp] theorem endCommand_rsp : (endCommand s).rsp = s.rsp := rfl
@[simp] theorem endCommand_rspValid : (endCommand s).rspValid = s.rspValid := rfl
@[simp] theorem endCommand_chain : (endCommand s).chain = s.chain := rfl
@[simp] theorem endCommand_inputs : (endCommand s).inputs = s.inputs := rfl
@[simp] theorem endCommand_pinTrace : (endCommand s).pinTrace = s.pinTrace := rfl
@[simp] theorem endCommand_xferTrace : (endCommand s).xferTrace = s.xferTrace := rfl

end endCommand

section devicePower

variable (d : Nat) (dev : Device) (s : State)

@[simp] theorem devicePower_params : (devicePower d dev s).params = s.params := rfl
@[simp] theorem devicePower_n : (devicePower d dev s).n = s.n := rfl
@[simp] theorem devicePower_inited : (devicePower d dev s).inited = s.inited := rfl
@[simp] theorem devicePower_srf : (devicePower d dev s).srf = s.srf := rfl
@[simp] theorem devicePower_cs : (devicePower d dev s).cs = s.cs := rfl
@[simp] theorem devicePower_clk : (devicePower d dev s).clk = s.clk := rfl
@[simp] theorem devicePower_din : (devicePower d dev s).din = s.din := rfl
@[simp] theorem devicePower_fb : (devicePower d dev s).fb = s.fb := rfl
@[simp] theorem devicePower_busy : (devicePower d dev s).busy = s.busy := rfl
@[simp] theorem devicePower_cw : (devicePower d dev s).cw = s.cw := rfl
@[simp] theorem devicePower_uop : (devicePower d dev s).uop = s.uop := rfl
@[simp] theorem devicePower_pos : (devicePower d dev s).pos = s.pos := rfl
@[simp] theorem devicePower_rsp : (devicePower d dev s).rsp = s.rsp := rfl
@[simp] theorem devicePower_rspValid : (devicePower d dev s).rspValid = s.rspValid := rfl
@[simp] theorem devicePower_inputs : (devicePower d dev s).inputs = s.inputs := rfl
@[simp] theorem devicePower_pinTrace : (devicePower d dev s).pinTrace = s.pinTrace := rfl
@[simp] theorem devicePower_xferTrace : (devicePower d dev s).xferTrace = s.xferTrace := rfl

end devicePower

section nextOp

variable (len : Nat) (s : State)

@[simp] theorem nextOp_params : (nextOp len s).params = s.params := by unfold nextOp; split <;> rfl
@[simp] theorem nextOp_n : (nextOp len s).n = s.n := by unfold nextOp; split <;> rfl
@[simp] theorem nextOp_inited : (nextOp len s).inited = s.inited := by unfold nextOp; split <;> rfl
@[simp] theorem nextOp_srf : (nextOp len s).srf = s.srf := by unfold nextOp; split <;> rfl
@[simp] theorem nextOp_cs : (nextOp len s).cs = s.cs := by unfold nextOp; split <;> rfl
@[simp] theorem nextOp_clk : (nextOp len s).clk = s.clk := by unfold nextOp; split <;> rfl
@[simp] theorem nextOp_din : (nextOp len s).din = s.din := by unfold nextOp; split <;> rfl
@[simp] theorem nextOp_fb : (nextOp len s).fb = s.fb := by unfold nextOp; split <;> rfl
@[simp] theorem nextOp_cw : (nextOp len s).cw = s.cw := by unfold nextOp; split <;> rfl
@[simp] theorem nextOp_rsp : (nextOp len s).rsp = s.rsp := by unfold nextOp; split <;> rfl
@[simp] theorem nextOp_rspValid : (nextOp len s).rspValid = s.rspValid := by unfold nextOp; split <;> rfl
@[simp] theorem nextOp_chain : (nextOp len s).chain = s.chain := by unfold nextOp; split <;> rfl
@[simp] theorem nextOp_inputs : (nextOp len s).inputs = s.inputs := by unfold nextOp; split <;> rfl
@[simp] theorem nextOp_pinTrace : (nextOp len s).pinTrace = s.pinTrace := by unfold nextOp; split <;> rfl
@[simp] theorem nextOp_xferTrace : (nextOp len s).xferTrace = s.xferTrace := by unfold nextOp; split <;> rfl

end nextOp

section drivePin

variable (p : Pin) (v : Bool) (s : State)

@[simp] theorem drivePin_params : (drivePin p v s).params = s.params := by cases p <;> simp only [drivePin] <;> split <;> rfl
@[simp] theorem drivePin_n : (drivePin p v s).n = s.n := by cases p <;> simp only [drivePin] <;> split <;> rfl
@[simp] theorem drivePin_inited : (drivePin p v s).inited = s.inited := by cases p <;> simp only [drivePin] <;> split <;> rfl
@[simp] theorem drivePin_srf : (drivePin p v s).srf = s.srf := by cases p <;> simp only [drivePin] <;> split <;> rfl
@[simp] theorem drivePin_fb : (drivePin p v s).fb = s.fb := by cases p <;> simp only [drivePin] <;> split <;> rfl
@[simp] theorem drivePin_busy : (drivePin p v s).busy = s.busy := by cases p <;> simp only [drivePin] <;> split <;> rfl
@[simp] theorem drivePin_cw : (drivePin p v s).cw = s.cw := by cases p <;> simp only [drivePin] <;> split <;> rfl
@[simp] theorem drivePin_uop : (drivePin p v s).uop = s.uop := by cases p <;> simp only [drivePin] <;> split <;> rfl
@[simp] theorem drivePin_pos : (drivePin p v s).pos = s.pos := by cases p <;> simp only [drivePin] <;> split <;> rfl
@[simp] theorem drivePin_rsp : (drivePin p v s).rsp = s.rsp := by cases p <;> simp only [drivePin] <;> split <;> rfl
@[simp] theorem drivePin_rspValid : (drivePin p v s).rspValid = s.rspValid := by cases p <;> simp only [drivePin] <;> split <;> rfl
@[simp] theorem drivePin_inputs : (drivePin p v s).inputs = s.inputs := by cases p <;> simp only [drivePin] <;> split <;> rfl
@[simp] theorem drivePin_pinTrace : (drivePin p v s).pinTrace = s.pinTrace := by cases p <;> simp only [drivePin] <;> split <;> rfl
@[simp] theorem drivePin_xferTrace : (drivePin p v s).xferTrace = s.xferTrace := by cases p <;> simp only [drivePin] <;> split <;> rfl

end drivePin

section pin

variable (w : PinWrite) (s : State)

@[simp] theorem pin_params : (pin w s).params = s.params := by simp [pin]
@[simp] theorem pin_n : (pin w s).n = s.n := by simp [pin]
@[simp] theorem pin_inited : (pin w s).inited = s.inited := by simp [pin]
@[simp] theorem pin_srf : (pin w s).srf = s.srf := by simp [pin]
@[simp] theorem pin_fb : (pin w s).fb = s.fb := by simp [pin]
@[simp] theorem pin_busy : (pin w s).busy = s.busy := by simp [pin]
@[simp] theorem pin_cw : (pin w s).cw = s.cw := by simp [pin]
@[simp] theorem pin_uop : (pin w s).uop = s.uop := by simp [pin]
@[simp] theorem pin_pos : (pin w s).pos = s.pos := by simp [pin]
@[simp] theorem pin_rsp : (pin w s).rsp = s.rsp := by simp [pin]
@[simp] theorem pin_rspValid : (pin w s).rspValid = s.rspValid := by simp [pin]
@[simp] theorem pin_inputs : (pin w s).inputs = s.inputs := by simp [pin]
@[simp] theorem pin_xferTrace : (pin w s).xferTrace = s.xferTrace := by simp [pin]

end pin

section runPins

variable (ws : List PinWrite) (s : State)

@[simp] theorem runPins_params : (runPins ws s).params = s.params := by
  induction ws generalizing s with
  | nil => rfl
  | cons w ws ih => exact (ih (pin w s)).trans (pin_params w s)
@[simp] theorem runPins_n : (runPins ws s).n = s.n := by
  induction ws generalizing s with
  | nil => rfl
  | cons w ws ih => exact (ih (pin w s)).trans (pin_n w s)
@[simp] theorem runPins_inited : (runPins ws s).inited = s.inited := by
  induction ws generalizing s with
  | nil => rfl
  | cons w ws ih => exact (ih (pin w s)).trans (pin_inited w s)
@[simp] theorem runPins_srf : (runPins ws s).srf = s.srf := by
  induction ws generalizing s with
  | nil => rfl
  | cons w ws ih => exact (ih (pin w s)).trans (pin_srf w s)
@[simp] theorem runPins_fb : (runPins ws s).fb = s.fb := by
  induction ws generalizing s with
  | nil => rfl
  | cons w ws ih => exact (ih (pin w s)).trans (pin_fb w s)
@[simp] theorem runPins_busy : (runPins ws s).busy = s.busy := by
  induction ws generalizing s with
  | nil => rfl
  | cons w ws ih => exact (ih (pin w s)).trans (pin_busy w s)
@[simp] theorem runPins_cw : (runPins ws s).cw = s.cw := by
  induction ws generalizing s with
  | nil => rfl
  | cons w ws ih => exact (ih (pin w s)).trans (pin_cw w s)
@[simp] theorem runPins_uop : (runPins ws s).uop = s.uop := by
  induction ws generalizing s with
  | nil => rfl
  | cons w ws ih => exact (ih (pin w s)).trans (pin_uop w s)
@[simp] theorem runPins_pos : (runPins ws s).pos = s.pos := by
  induction ws generalizing s with
  | nil => rfl
  | cons w ws ih => exact (ih (pin w s)).trans (pin_pos w s)
@[simp] theorem runPins_rsp : (runPins ws s).rsp = s.rsp := by
  induction ws generalizing s with
  | nil => rfl
  | cons w ws ih => exact (ih (pin w s)).trans (pin_rsp w s)
@[simp] theorem runPins_rspValid : (runPins ws s).rspValid = s.rspValid := by
  induction ws generalizing s with
  | nil => rfl
  | cons w ws ih => exact (ih (pin w s)).trans (pin_rspValid w s)
@[simp] theorem runPins_inputs : (runPins ws s).inputs = s.inputs := by
  induction ws generalizing s with
  | nil => rfl
  | cons w ws ih => exact (ih (pin w s)).trans (pin_inputs w s)
@[simp] theorem runPins_xferTrace : (runPins ws s).xferTrace = s.xferTrace := by
  induction ws generalizing s with
  | nil => rfl
  | cons w ws ih => exact (ih (pin w s)).trans (pin_xferTrace w s)

end runPins

section xfer

variable (x : Transfer) (s : State)

@[simp] theorem xfer_params : (xfer x s).params = s.params := by simp [xfer]
@[simp] theorem xfer_n : (xfer x s).n = s.n := by simp [xfer]
@[simp] theorem xfer_inited : (xfer x s).inited = s.inited := by simp [xfer]
@[simp] theorem xfer_srf : (xfer x s).srf = s.srf := by simp [xfer]
@[simp] theorem xfer_busy : (xfer x s).busy = s.busy := by simp [xfer]
@[simp] theorem xfer_cw : (xfer x s).cw = s.cw := by simp [xfer]
@[simp] theorem xfer_uop : (xfer x s).uop = s.uop := by simp [xfer]
@[simp] theorem xfer_pos : (xfer x s).pos = s.pos := by simp [xfer]
@[simp] theorem xfer_rsp : (xfer x s).rsp = s.rsp := by simp [xfer]
@[simp] theorem xfer_rspValid : (xfer x s).rspValid = s.rspValid := by simp [xfer]
@[simp] theorem xfer_inputs : (xfer x s).inputs = s.inputs := by simp [xfer]

end xfer

section MicroOp_run

variable (op : MicroOp) (s : State)

@[simp] theorem MicroOp_run_params : (op.run s).params = s.params := by cases op <;> simp [MicroOp.run]
@[simp] theorem MicroOp_run_n : (op.run s).n = s.n := by cases op <;> simp [MicroOp.run]
@[simp] theorem MicroOp_run_inited : (op.run s).inited = s.inited := by cases op <;> simp [MicroOp.run]
@[simp] theorem MicroOp_run_busy : (op.run s).busy = s.busy := by cases op <;> simp [MicroOp.run]
@[simp] theorem MicroOp_run_cw : (op.run s).cw = s.cw := by cases op <;> simp [MicroOp.run]
@[simp] theorem MicroOp_run_uop : (op.run s).uop = s.uop := by cases op <;> simp [MicroOp.run]
@[simp] theorem MicroOp_run_pos : (op.run s).pos = s.pos := by cases op <;> simp [MicroOp.run]
@[simp] theorem MicroOp_run_rsp : (op.run s).rsp = s.rsp := by cases op <;> simp [MicroOp.run]
@[simp] theorem MicroOp_run_rspValid : (op.run s).rspValid = s.rspValid := by cases op <;> simp [MicroOp.run]
@[simp] theorem MicroOp_run_inputs : (op.run s).inputs = s.inputs := by cases op <;> simp [MicroOp.run]

end MicroOp_run

section loadFB

variable (x : Transfer) (s : State)

@[simp] theorem loadFB_params : (loadFB x s).params = s.params := by unfold loadFB; split <;> rfl
@[simp] theorem loadFB_n : (loadFB x s).n = s.n := by unfold loadFB; split <;> rfl
@[simp] theorem loadFB_inited : (loadFB x s).inited = s.inited := by unfold loadFB; split <;> rfl
@[simp] theorem loadFB_srf : (loadFB x s).srf = s.srf := by unfold loadFB; split <;> rfl
@[simp] theorem loadFB_cs : (loadFB x s).cs = s.cs := by unfold loadFB; split <;> rfl
@[simp] theorem loadFB_clk : (loadFB x s).clk = s.clk := by unfold loadFB; split <;> rfl
@[simp] theorem loadFB_din : (loadFB x s).din = s.din := by unfold loadFB; split <;> rfl
@[simp] theorem loadFB_busy : (loadFB x s).busy = s.busy := by unfold loadFB; split <;> rfl
@[simp] theorem loadFB_cw : (loadFB x s).cw = s.cw := by unfold loadFB; split <;> rfl
@[simp] theorem loadFB_uop : (loadFB x s).uop = s.uop := by unfold loadFB; split <;> rfl
@[simp] theorem loadFB_pos : (loadFB x s).pos = s.pos := by unfold loadFB; split <;> rfl
@[simp] theorem loadFB_rsp : (loadFB x s).rsp = s.rsp := by unfold loadFB; split <;> rfl
@[simp] theorem loadFB_rspValid : (loadFB x s).rspValid = s.rspValid := by unfold loadFB; split <;> rfl
@[simp] theorem loadFB_chain : (loadFB x s).chain = s.chain := by unfold loadFB; split <;> rfl
@[simp] theorem loadFB_inputs : (loadFB x s).inputs = s.inputs := by unfold loadFB; split <;> rfl
@[simp] theorem loadFB_pinTrace : (loadFB x s).pinTrace = s.pinTrace := by unfold loadFB; split <;> rfl
@[simp] theorem loadFB_xferTrace : (loadFB x s).xferTrace = s.xferTrace := by unfold loadFB; split <;> rfl

end loadFB

section runAll

variable (ops : List MicroOp) (s : State)

@[simp] theorem runAll_params : (runAll ops s).params = s.params := by
  induction ops generalizing s with
  | nil => rfl
  | cons op ops ih => exact (ih (op.run s)).trans (MicroOp_run_params op s)
@[simp] theorem runAll_n : (runAll ops s).n = s.n := by
  induction ops generalizing s with
  | nil => rfl
  | cons op ops ih => exact (ih (op.run s)).trans (MicroOp_run_n op s)
@[simp] theorem runAll_inited : (runAll ops s).inited = s.inited := by
  induction ops generalizing s with
  | nil => rfl
  | cons op ops ih => exact (ih (op.run s)).trans (MicroOp_run_inited op s)
@[simp] theorem runAll_busy : (runAll ops s).busy = s.busy := by
  induction ops generalizing s with
  | nil => rfl
  | cons op ops ih => exact (ih (op.run s)).trans (MicroOp_run_busy op s)
@[simp] theorem runAll_cw : (runAll ops s).cw = s.cw := by
  induction ops generalizing s with
  | nil => rfl
  | cons op ops ih => exact (ih (op.run s)).trans (MicroOp_run_cw op s)
@[simp] theorem runAll_uop : (runAll ops s).uop = s.uop := by
  induction ops generalizing s with
  | nil => rfl
  | cons op ops ih => exact (ih (op.run s)).trans (MicroOp_run_uop op s)
@[simp] theorem runAll_pos : (runAll ops s).pos = s.pos := by
  induction ops generalizing s with
  | nil => rfl
  | cons op ops ih => exact (ih (op.run s)).trans (MicroOp_run_pos op s)
@[simp] theorem runAll_rsp : (runAll ops s).rsp = s.rsp := by
  induction ops generalizing s with
  | nil => rfl
  | cons op ops ih => exact (ih (op.run s)).trans (MicroOp_run_rsp op s)
@[simp] theorem runAll_rspValid : (runAll ops s).rspValid = s.rspValid := by
  induction ops generalizing s with
  | nil => rfl
  | cons op ops ih => exact (ih (op.run s)).trans (MicroOp_run_rspValid op s)
@[simp] theorem runAll_inputs : (runAll ops s).inputs = s.inputs := by
  induction ops generalizing s with
  | nil => rfl
  | cons op ops ih => exact (ih (op.run s)).trans (MicroOp_run_inputs op s)

end runAll

section logs

variable (s : State)

@[simp] theorem pin_pinTrace (w : PinWrite) : (pin w s).pinTrace = w :: s.pinTrace := by simp [pin]

@[simp] theorem pin_cs (w : PinWrite) : (pin w s).cs = if w.pin = .cs then w.level else s.cs := by
  obtain ⟨p, v⟩ := w
  cases p <;> simp [pin, drivePin] <;> split <;> rfl

@[simp] theorem pin_clk (w : PinWrite) : (pin w s).clk = if w.pin = .clk then w.level else s.clk := by
  obtain ⟨p, v⟩ := w
  cases p <;> simp [pin, drivePin] <;> split <;> rfl

@[simp] theorem pin_din (w : PinWrite) : (pin w s).din = if w.pin = .din then w.level else s.din := by
  obtain ⟨p, v⟩ := w
  cases p <;> simp [pin, drivePin] <;> split <;> rfl

@[simp] theorem runPins_nil : runPins [] s = s := rfl

@[simp] theorem runPins_cons (w : PinWrite) (ws : List PinWrite) : runPins (w :: ws) s = runPins ws (pin w s) := rfl

theorem runPins_append (ws us : List PinWrite) : runPins (ws ++ us) s = runPins us (runPins ws s) := List.foldl_append

@[simp] theorem runAll_nil : runAll [] s = s := rfl

@[simp] theorem runAll_cons (op : MicroOp) (ops : List MicroOp) : runAll (op :: ops) s = runAll ops (op.run s) := rfl

theorem runAll_append (ops more : List MicroOp) : runAll (ops ++ more) s = runAll more (runAll ops s) := List.foldl_append

theorem runPins_pinTrace (ws : List PinWrite) : (runPins ws s).pinTrace = ws.reverse ++ s.pinTrace := by
  induction ws generalizing s with
  | nil => rfl
  | cons w ws ih => rw [runPins_cons, ih, pin_pinTrace, List.reverse_cons, List.append_assoc]; rfl

end logs

end Sys2Proof.Machine
end

