-- ==== Sys2Proof/Laws/Chain.lean ====
section
/-! SUPPORT. The chain of shift registers: what clock edges do to it, bit by bit and pair by pair, and what the latch does. -/

namespace Sys2Proof.Machine

/-! ### A pair as sixteen bits -/

@[simp] theorem pairBits_length (p : Pair) : (pairBits p).length = 16 := by simp [pairBits]

/-- The two bytes of a pair, opcode byte first, are the pair (20_memory.md R57). -/
theorem byteBits_append (hi lo : Byte) : byteBits hi ++ byteBits lo = pairBits (hi ++ lo) := by
  have h : ∀ i, BitVec.getLsbD (w := 16) (hi ++ lo) i = if i < 8 then lo.getLsbD i else hi.getLsbD (i - 8) :=
    fun i => BitVec.getLsbD_append
  simp only [byteBits, pairBits, h]
  rfl

theorem pairBits_injective {p q : Pair} (h : pairBits p = pairBits q) : p = q := by
  refine BitVec.eq_of_getLsbD_eq fun i hi => ?_
  have := List.map_inj_left.mp h (15 - i) (by simp; omega)
  rwa [show 15 - (15 - i) = i by omega] at this

/-- One shift drops the first bit of the register and appends the new one. -/
theorem pairBits_shiftConcat (p : Pair) (b : Bool) : pairBits (p.shiftConcat b) = (pairBits p).tail ++ [b] := by
  simp [pairBits, List.range_succ, BitVec.getLsbD_shiftConcat]

theorem pairBits_head (p : Pair) : pairBits p = p.getLsbD 15 :: (pairBits p).tail := by
  simp [pairBits, List.range_succ]

/-! ### Many clock edges -/

/-- The chain after the bits `bits` were clocked in, in order. -/
def shiftIn (bits : List Bool) (ds : List Device) : List Device := bits.foldl (fun ds b => shiftDevices b ds) ds

@[simp] theorem shiftIn_nil (ds : List Device) : shiftIn [] ds = ds := rfl

@[simp] theorem shiftIn_cons (b : Bool) (bits : List Bool) (ds : List Device) :
    shiftIn (b :: bits) ds = shiftIn bits (shiftDevices b ds) := rfl

theorem shiftIn_append (bits more : List Bool) (ds : List Device) :
    shiftIn (bits ++ more) ds = shiftIn more (shiftIn bits ds) := List.foldl_append

@[simp] theorem shiftIn_empty (bits : List Bool) : shiftIn bits [] = [] := by
  induction bits with
  | nil => rfl
  | cons b bits ih => exact ih

@[simp] theorem shiftDevices_length (b : Bool) (ds : List Device) : (shiftDevices b ds).length = ds.length := by
  induction ds generalizing b with
  | nil => rfl
  | cons dev rest ih => simp [shiftDevices, ih]

@[simp] theorem shiftIn_length (bits : List Bool) (ds : List Device) : (shiftIn bits ds).length = ds.length := by
  induction bits generalizing ds with
  | nil => rfl
  | cons b bits ih => simp [ih]

@[simp] theorem shiftDevices_regs (b : Bool) (ds : List Device) :
    (shiftDevices b ds).map Device.regs = ds.map Device.regs := by
  induction ds generalizing b with
  | nil => rfl
  | cons dev rest ih => simp [shiftDevices, ih]

/-- Clock edges change no device register. -/
@[simp] theorem shiftIn_regs (bits : List Bool) (ds : List Device) :
    (shiftIn bits ds).map Device.regs = ds.map Device.regs := by
  induction bits generalizing ds with
  | nil => rfl
  | cons b bits ih => simp [ih]

/-- The first device takes the new bits, and hands on the bits that leave it. -/
theorem shiftIn_device (bits : List Bool) (dev : Device) (rest : List Device) :
    ∃ q : Pair, pairBits q = (pairBits dev.sr ++ bits).drop bits.length ∧
      shiftIn bits (dev :: rest) =
        { dev with sr := q } :: shiftIn ((pairBits dev.sr ++ bits).take bits.length) rest := by
  induction bits generalizing dev rest with
  | nil => exact ⟨dev.sr, by simp, by simp⟩
  | cons b bits ih =>
    obtain ⟨q, hq, he⟩ := ih { dev with sr := dev.sr.shiftConcat b } (shiftDevices (dev.sr.getLsbD 15) rest)
    refine ⟨q, ?_, ?_⟩
    · rw [hq, pairBits_shiftConcat, pairBits_head dev.sr]
      simp
    · rw [shiftIn_cons, shiftDevices, he, pairBits_shiftConcat, pairBits_head dev.sr]
      simp

/-- The chain as pairs move through it whole: the first device takes `p`, each further one what the one before it held. -/
def pushPair (p : Pair) : List Device → List Device
  | [] => []
  | dev :: rest => { dev with sr := p } :: pushPair dev.sr rest

/-- Sixteen clock edges with the bits of a pair move the pairs of the chain on by one device (41_bus_serializer.md R131). -/
theorem shiftIn_pair (p : Pair) (ds : List Device) : shiftIn (pairBits p) ds = pushPair p ds := by
  induction ds generalizing p with
  | nil => simp [pushPair]
  | cons dev rest ih =>
    obtain ⟨q, hq, he⟩ := shiftIn_device (pairBits p) dev rest
    have hqp : q = p := pairBits_injective (by rw [hq]; simp)
    rw [he, hqp, pushPair, ← ih, List.take_left' (by simp)]

@[simp] theorem pushPair_length (p : Pair) (ds : List Device) : (pushPair p ds).length = ds.length := by
  induction ds generalizing p with
  | nil => rfl
  | cons dev rest ih => simp [pushPair, ih]

/-- Device 0 takes the pair, device `d + 1` what device `d` held; the registers stay. -/
theorem pushPair_get (p : Pair) (ds : List Device) (d : Nat) :
    (pushPair p ds)[d]? = (ds[d]?).map (fun dev =>
      { dev with sr := match d with | 0 => p | k + 1 => ((ds[k]?).map Device.sr).getD 0#16 }) := by
  induction ds generalizing p d with
  | nil => simp [pushPair]
  | cons dev rest ih =>
    cases d with
    | zero => simp [pushPair]
    | succ d =>
      simp only [pushPair, List.getElem?_cons_succ, ih]
      cases d <;> simp

/-- The pairs of a frame clocked in, in send order. -/
def pushPairs (ps : List Pair) (ds : List Device) : List Device := ps.foldl (fun ds p => pushPair p ds) ds

/-- After `k` pairs, device `d < k` holds the pair sent `d` before the last, device `d >= k` what device `d - k` held
(70_reset_and_hazards.md R262, R263). -/
theorem pushPairs_get (ps : List Pair) (ds : List Device) (d : Nat) :
    (pushPairs ps ds)[d]? = (ds[d]?).map (fun dev =>
      { dev with sr := if d < ps.length then ps.reverse.getD d 0#16
        else ((ds[d - ps.length]?).map Device.sr).getD 0#16 }) := by
  induction ps generalizing ds with
  | nil => cases h : ds[d]? <;> simp [pushPairs, h]
  | cons p ps ih =>
    show (pushPairs ps (pushPair p ds))[d]? = _
    have first := pushPair_get p ds d
    rw [ih, first]
    cases hd : ds[d]? with
    | none => rfl
    | some dev =>
      have hlt := (List.getElem?_eq_some_iff.mp hd).1
      simp only [Option.map_some, List.length_cons, List.reverse_cons, Option.some.injEq, Device.mk.injEq, and_true]
      rcases Nat.lt_trichotomy d ps.length with h | h | h
      · rw [if_pos h, if_pos (by omega), List.getD_append _ _ _ _ (by simpa using h)]
      · subst h
        rw [if_neg (by omega), if_pos (by omega), Nat.sub_self, pushPair_get,
          List.getD_append_right _ _ _ _ (by simp)]
        simp [show 0 < ds.length by omega]
      · rw [if_neg (by omega), if_neg (by omega), pushPair_get]
        have hlt' : d - ps.length < ds.length := by omega
        obtain ⟨k, hk⟩ : ∃ k, d - ps.length = k + 1 := ⟨d - ps.length - 1, by omega⟩
        rw [hk] at hlt' ⊢
        rw [show d - (ps.length + 1) = k by omega]
        simp [hlt']

@[simp] theorem pushPairs_length (ps : List Pair) (ds : List Device) : (pushPairs ps ds).length = ds.length := by
  induction ps generalizing ds with
  | nil => rfl
  | cons p ps ih => exact (ih _).trans (pushPair_length p ds)

/-! ### Device registers -/

/-- A register reads what was written to it, and every other register is unchanged. -/
theorem DeviceRegs.get_set (g : DeviceRegs) (a b : DevReg) (v : Byte) :
    (g.set a v).get b = if b = a then v else g.get b := by
  cases a <;> cases b <;> rfl

/-! ### The pins of a frame -/

/-- One bit on the pins, the clock being low: one edge with that bit on DIN. -/
theorem runPins_bitPins (b : Bool) (s : State) (h : s.clk = false) :
    (runPins (bitPins b) s).chain = shiftDevices b s.chain ∧ (runPins (bitPins b) s).clk = false ∧
      (runPins (bitPins b) s).cs = s.cs ∧ (runPins (bitPins b) s).din = b := by
  simp [bitPins, pin, drivePin, h, chainShift]

/-- The bits of a frame on the pins, the clock being low. -/
theorem runPins_bits (bits : List Bool) (s : State) (h : s.clk = false) :
    (runPins (bits.flatMap bitPins) s).chain = shiftIn bits s.chain ∧
      (runPins (bits.flatMap bitPins) s).clk = false ∧ (runPins (bits.flatMap bitPins) s).cs = s.cs ∧
      (runPins (bits.flatMap bitPins) s).din = bits.getLastD s.din := by
  induction bits generalizing s with
  | nil => simp [h]
  | cons b bits ih =>
    obtain ⟨h1, h2, h3, h4⟩ := runPins_bitPins b s h
    obtain ⟨i1, i2, i3, i4⟩ := ih (runPins (bitPins b) s) h2
    rw [List.flatMap_cons, runPins_append]
    refine ⟨?_, i2, ?_, ?_⟩
    · rw [i1, h1, shiftIn_cons]
    · rw [i3, h3]
    · rw [i4, h4, List.getLastD_cons]

/-- The bits of a frame are the pairs of its devices, far device first (20_memory.md R58). -/
def framePairs (fb : Memory) : Nat → List Pair
  | 0 => []
  | d + 1 => (fb.read (2 * d) ++ fb.read (2 * d + 1)) :: framePairs fb d

theorem frameBits_eq (fb : Memory) (n : Nat) : frameBits fb n = (framePairs fb n).flatMap pairBits := by
  induction n with
  | zero => rfl
  | succ n ih => rw [frameBits, byteBits_append, ih, framePairs, List.flatMap_cons]

@[simp] theorem framePairs_length (fb : Memory) (n : Nat) : (framePairs fb n).length = n := by
  induction n with
  | zero => rfl
  | succ n ih => simp [framePairs, ih]

theorem framePairs_reverse_getD (fb : Memory) (n d : Nat) (h : d < n) :
    (framePairs fb n).reverse.getD d 0#16 = fb.read (2 * d) ++ fb.read (2 * d + 1) := by
  induction n with
  | zero => omega
  | succ n ih =>
    rw [framePairs, List.reverse_cons]
    by_cases hd : d < n
    · rw [List.getD_append _ _ _ _ (by simpa using hd), ih hd]
    · obtain rfl : d = n := by omega
      rw [List.getD_append_right _ _ _ _ (by simp)]
      simp

theorem shiftIn_pairs (ps : List Pair) (ds : List Device) : shiftIn (ps.flatMap pairBits) ds = pushPairs ps ds := by
  induction ps generalizing ds with
  | nil => rfl
  | cons p ps ih =>
    rw [List.flatMap_cons, shiftIn_append, shiftIn_pair, ih]
    rfl

@[simp] theorem frameBits_length (fb : Memory) (n : Nat) : (frameBits fb n).length = 16 * n := by
  induction n with
  | zero => rfl
  | succ n ih => simp [frameBits, byteBits, ih]; omega

/-- A transfer writes `48*n + 2` pins (41_bus_serializer.md R130). -/
@[simp] theorem framePins_length (fb : Memory) (n : Nat) : (framePins fb n).length = 48 * n + 2 := by
  have h : ∀ bits : List Bool, (bits.flatMap bitPins).length = 3 * bits.length := by
    intro bits
    induction bits with
    | nil => rfl
    | cons b bits ih => simp [bitPins] at ih ⊢; omega
  simp [framePins, h]
  omega

/-- What the pin writes of a frame do: the frame is shifted in and latched; the pins end idle. -/
theorem runPins_framePins (fb : Memory) (n : Nat) (s : State) (h : s.clk = false) :
    (runPins (framePins fb n) s).chain = (shiftIn (frameBits fb n) s.chain).map Device.latch ∧
      (runPins (framePins fb n) s).clk = false ∧ (runPins (framePins fb n) s).cs = true ∧
      (runPins (framePins fb n) s).din = (frameBits fb n).getLastD s.din := by
  have h0 : (pin ⟨.cs, false⟩ s).clk = false := by simpa using h
  obtain ⟨h1, h2, h3, h4⟩ := runPins_bits (frameBits fb n) (pin ⟨.cs, false⟩ s) h0
  rw [framePins, runPins_cons, runPins_append]
  generalize runPins ((frameBits fb n).flatMap bitPins) (pin ⟨.cs, false⟩ s) = t at h1 h2 h3 h4 ⊢
  have h3' : t.cs = false := by simpa using h3
  refine ⟨?_, by simpa using h2, by simp, ?_⟩
  · simp [pin, drivePin, h3', chainLatch, h1]
  · simpa using h4

end Sys2Proof.Machine
end

