-- ==== Sys2Proof/Laws/Memory.lean ====
section
/-! SUPPORT. The laws of the byte address spaces: read after write, the canonical form, equal memories are equal data. -/

namespace Sys2Proof.Machine

@[simp] theorem Memory.read_nil (a : Nat) : Memory.read [] a = 0x00#8 := rfl

theorem Memory.read_cons (k : Nat) (b : Byte) (m : Memory) (a : Nat) :
    Memory.read ((k, b) :: m) a = if k = a then b else Memory.read m a := rfl

/-- Below every listed address a memory reads as unlisted. -/
theorem Memory.read_below {m : Memory} {a : Nat} (h : ∀ c ∈ m, a < c.1) : m.read a = 0x00#8 := by
  induction m with
  | nil => rfl
  | cons c m ih =>
    obtain ⟨k, b⟩ := c
    have hk : a < k := h (k, b) (by simp)
    rw [Memory.read_cons, if_neg (by omega)]
    exact ih (fun c hc => h c (by simp [hc]))

theorem Memory.wf_tail {c : Host.Cell} {m : Memory} (h : Memory.wf (c :: m)) : Memory.wf m :=
  ⟨(List.pairwise_cons.mp h.1).2, fun d hd => h.2 d (by simp [hd])⟩

theorem Memory.wf_head_lt {c : Host.Cell} {m : Memory} (h : Memory.wf (c :: m)) : ∀ d ∈ m, c.1 < d.1 :=
  (List.pairwise_cons.mp h.1).1

/-- A read after a write to the same place gives the value written; any other place is unchanged. -/
theorem Memory.read_write {m : Memory} (h : m.wf) (a : Nat) (b : Byte) (x : Nat) :
    (m.write a b).read x = if x = a then b else m.read x := by
  induction m with
  | nil =>
    by_cases hb : b = 0x00#8
    · simp [Memory.write, hb]
    · by_cases hx : x = a
      · simp [Memory.write, hb, hx, Memory.read_cons]
      · simp only [Memory.write, hb, if_false, hx, Memory.read_cons, if_neg (Ne.symm hx)]
  | cons c m ih =>
    obtain ⟨k, e⟩ := c
    have hlt := Memory.wf_head_lt h
    have ih := ih (Memory.wf_tail h)
    unfold Memory.write
    split
    · rename_i hak
      have hz : Memory.read ((k, e) :: m) a = 0x00#8 := by
        apply Memory.read_below
        intro c hc
        rcases List.mem_cons.mp hc with rfl | hc
        · exact hak
        · exact Nat.lt_trans hak (hlt c hc)
      split
      · rename_i hb
        by_cases hx : x = a <;> simp [hx, hz, hb]
      · by_cases hx : x = a
        · simp [hx, Memory.read_cons]
        · rw [Memory.read_cons a, if_neg (fun h => hx h.symm), if_neg hx]
    · split
      · rename_i hak
        subst hak
        have hz : Memory.read m a = 0x00#8 := Memory.read_below hlt
        split
        · rename_i hb
          by_cases hx : x = a
          · simp [hx, hz, hb]
          · rw [if_neg hx, Memory.read_cons, if_neg (fun h => hx h.symm)]
        · by_cases hx : x = a
          · simp [hx, Memory.read_cons]
          · rw [if_neg hx, Memory.read_cons, if_neg (fun h => hx h.symm), Memory.read_cons,
              if_neg (fun h => hx h.symm)]
      · rw [Memory.read_cons, ih, Memory.read_cons]
        by_cases hk : k = x
        · have : ¬ x = a := by omega
          simp [hk, this]
        · simp [hk]

theorem Memory.mem_write {m : Memory} {a : Nat} {b : Byte} {c : Host.Cell} (h : c ∈ m.write a b) :
    c = (a, b) ∧ b ≠ 0x00#8 ∨ c ∈ m := by
  induction m with
  | nil =>
    simp only [Memory.write] at h
    split at h <;> simp_all
  | cons d m ih =>
    obtain ⟨k, e⟩ := d
    unfold Memory.write at h
    split at h
    · split at h
      · exact .inr h
      · rcases List.mem_cons.mp h with rfl | h
        · exact .inl ⟨rfl, by assumption⟩
        · exact .inr h
    · split at h
      · split at h
        · exact .inr (by simp [h])
        · rcases List.mem_cons.mp h with rfl | h
          · exact .inl ⟨rfl, by assumption⟩
          · exact .inr (by simp [h])
      · rcases List.mem_cons.mp h with rfl | h
        · simp
        · rcases ih h with h | h
          · exact .inl h
          · exact .inr (by simp [h])

/-- A write keeps the canonical form. -/
theorem Memory.wf_write {m : Memory} (h : m.wf) (a : Nat) (b : Byte) : (m.write a b).wf := by
  refine ⟨?_, fun c hc => ?_⟩
  · induction m with
    | nil =>
      simp only [Memory.write]
      split <;> simp
    | cons d m ih =>
      obtain ⟨k, e⟩ := d
      have hlt := Memory.wf_head_lt h
      have hm := (List.pairwise_cons.mp h.1).2
      unfold Memory.write
      split
      · split
        · exact h.1
        · refine List.pairwise_cons.mpr ⟨fun c hc => ?_, h.1⟩
          rcases List.mem_cons.mp hc with rfl | hc
          · assumption
          · exact Nat.lt_trans ‹a < k› (hlt c hc)
      · split
        · rename_i hak
          subst hak
          split
          · exact hm
          · exact List.pairwise_cons.mpr ⟨hlt, hm⟩
        · refine List.pairwise_cons.mpr ⟨fun c hc => ?_, ih (Memory.wf_tail h)⟩
          rcases Memory.mem_write hc with ⟨rfl, -⟩ | hc
          · show k < a
            omega
          · exact hlt c hc
  · rcases Memory.mem_write hc with ⟨rfl, hb⟩ | hc
    · exact hb
    · exact h.2 c hc

/-- Two memories in canonical form that read the same everywhere are the same list. -/
theorem Memory.eq_of_read {m m' : Memory} (h : m.wf) (h' : m'.wf) (hr : ∀ a, m.read a = m'.read a) : m = m' := by
  induction m generalizing m' with
  | nil =>
    cases m' with
    | nil => rfl
    | cons c m' =>
      have := hr c.1
      rw [show Memory.read (c :: m') c.1 = c.2 from if_pos rfl] at this
      exact absurd this.symm (h'.2 c (by simp))
  | cons c m ih =>
    have hc : Memory.read (c :: m) c.1 = c.2 := if_pos rfl
    cases m' with
    | nil => exact absurd (hc.symm.trans (hr c.1)) (h.2 c (by simp))
    | cons d m' =>
      have hd : Memory.read (d :: m') d.1 = d.2 := if_pos rfl
      have hkey : c.1 = d.1 := by
        rcases Nat.lt_trichotomy c.1 d.1 with hlt | heq | hlt
        · have : Memory.read (d :: m') c.1 = 0x00#8 := by
            apply Memory.read_below
            intro e he
            rcases List.mem_cons.mp he with rfl | he
            · exact hlt
            · exact Nat.lt_trans hlt (Memory.wf_head_lt h' e he)
          exact absurd (hc.symm.trans ((hr c.1).trans this)) (h.2 c (by simp))
        · exact heq
        · have : Memory.read (c :: m) d.1 = 0x00#8 := by
            apply Memory.read_below
            intro e he
            rcases List.mem_cons.mp he with rfl | he
            · exact hlt
            · exact Nat.lt_trans hlt (Memory.wf_head_lt h e he)
          exact absurd (hd.symm.trans ((hr d.1).symm.trans this)) (h'.2 d (by simp))
      have hval : c.2 = d.2 := by rw [← hc, ← hd, ← hkey]; exact hr c.1
      have hcd : c = d := Prod.ext hkey hval
      subst hcd
      congr 1
      apply ih (Memory.wf_tail h) (Memory.wf_tail h')
      intro a
      by_cases ha : c.1 = a
      · subst ha
        rw [Memory.read_below (Memory.wf_head_lt h), Memory.read_below (Memory.wf_head_lt h')]
      · have := hr a
        rwa [show Memory.read (c :: m) a = Memory.read m a from if_neg ha,
          show Memory.read (c :: m') a = Memory.read m' a from if_neg ha] at this

@[simp] theorem Memory.wf_nil : Memory.wf [] := ⟨List.Pairwise.nil, by simp⟩

/-- Lanes of the eight by eight register file have addresses of their own (20_memory.md R51). -/
theorem lane_inj {d r e q : Nat} (hr : r < 8) (hq : q < 8) (h : lane d r = lane e q) : d = e ∧ r = q := by
  unfold lane at h
  omega

end Sys2Proof.Machine
end

