-- ==== Sys2Proof/Laws/Transfer.lean ====
section
/-! SUPPORT. The frame buffer and the whole transfer: what `BuildFB` leaves in FB, and what `XFER` does to every field. -/

namespace Sys2Proof.Machine

theorem zeroFill_wf {fb : Memory} (h : fb.wf) (n : Nat) : (zeroFill fb n).wf := by
  induction n with
  | zero => exact h
  | succ n ih => exact Memory.wf_write (Memory.wf_write ih _ _) _ _

theorem zeroFill_read {fb : Memory} (h : fb.wf) (n a : Nat) :
    (zeroFill fb n).read a = if a < 2 * n then 0x00#8 else fb.read a := by
  induction n with
  | zero => simp [zeroFill]
  | succ n ih =>
    rw [zeroFill, Memory.read_write (Memory.wf_write (zeroFill_wf h n) _ _),
      Memory.read_write (zeroFill_wf h n), ih]
    split_ifs <;> first | rfl | omega

theorem buildFB_wf {s : State} (h : s.fb.wf) (t : Nat) (op : Opcode) (data : Byte) : (buildFB t op data s).fb.wf :=
  Memory.wf_write (Memory.wf_write (zeroFill_wf h _) _ _) _ _

/-- What FB holds after `BuildFB(t, op, data)` (41_bus_serializer.md R127). -/
theorem buildFB_read {s : State} (h : s.fb.wf) (t : Nat) (op : Opcode) (data : Byte) (a : Nat) :
    (buildFB t op data s).fb.read a =
      if a = 2 * t + 1 then data else if a = 2 * t then op.setWidth 8
      else if a < 2 * s.n.val then 0x00#8 else s.fb.read a := by
  rw [buildFB, Memory.read_write (Memory.wf_write (zeroFill_wf h _) _ _), Memory.read_write (zeroFill_wf h _),
    zeroFill_read h]

/-- The two bytes of device `d` in the buffer: the target's are opcode and data, every other device's are zero. -/
theorem buildFB_pair {s : State} (h : s.fb.wf) (t : Nat) (op : Opcode) (data : Byte) (d : Nat) (hd : d < s.n.val) :
    (buildFB t op data s).fb.read (2 * d) ++ (buildFB t op data s).fb.read (2 * d + 1) =
      if d = t then op.setWidth 8 ++ data else 0x00#8 ++ 0x00#8 := by
  rw [buildFB_read h, buildFB_read h]
  by_cases hdt : d = t
  · subst hdt
    simp
  · rw [if_neg (by omega), if_neg (by omega), if_pos (by omega), if_neg (by omega), if_neg (by omega),
      if_pos (by omega), if_neg hdt]

section xfer

variable (x : Transfer) (s : State)

@[simp] theorem xfer_fb : (xfer x s).fb = (buildFB x.target x.op x.data s).fb := by simp [xfer]

@[simp] theorem xfer_xferTrace : (xfer x s).xferTrace = x :: s.xferTrace := by simp [xfer, logTransfer]

/-- The pin log grows by the writes of the frame. -/
theorem xfer_pinTrace : (xfer x s).pinTrace =
    (framePins (buildFB x.target x.op x.data s).fb s.n).reverse ++ s.pinTrace := by
  simp [xfer, logTransfer, runPins_pinTrace]

/-- The chain after a transfer: the pairs of the frame pushed in, far device first, and latched. -/
theorem xfer_chain (h : s.clk = false) : (xfer x s).chain =
    (pushPairs (framePairs (buildFB x.target x.op x.data s).fb s.n) s.chain).map Device.latch := by
  have := (runPins_framePins (buildFB x.target x.op x.data s).fb s.n (buildFB x.target x.op x.data s) (by simpa using h)).1
  rw [frameBits_eq, shiftIn_pairs] at this
  simpa [xfer] using this

/-- The pins are idle after a transfer. -/
theorem xfer_pins (h : s.clk = false) : (xfer x s).cs = true ∧ (xfer x s).clk = false := by
  have := runPins_framePins (buildFB x.target x.op x.data s).fb s.n (buildFB x.target x.op x.data s) (by simpa using h)
  exact ⟨by simpa [xfer] using this.2.2.1, by simpa [xfer] using this.2.1⟩

@[simp] theorem chain_length_pin (w : PinWrite) : (pin w s).chain.length = s.chain.length := by
  obtain ⟨p, v⟩ := w
  cases p <;> simp only [pin, drivePin]
  · split <;> simp [chainLatch]
  · split <;> simp [chainShift]

@[simp] theorem chain_length_runPins (ws : List PinWrite) : (runPins ws s).chain.length = s.chain.length := by
  induction ws generalizing s with
  | nil => rfl
  | cons w ws ih => rw [runPins_cons, ih, chain_length_pin]

/-- A transfer wires no device and removes none. -/
@[simp] theorem chain_length_xfer : (xfer x s).chain.length = s.chain.length := by
  simp [xfer, logTransfer, buildFB]

end xfer

/-! ### Micro-operations -/

theorem MicroOp_run_fbWf {s : State} (h : s.fb.wf) (op : MicroOp) : (op.run s).fb.wf := by
  cases op with
  | shWrite d r a b => simpa [MicroOp.run] using h
  | xfer t o x => simpa [MicroOp.run] using buildFB_wf h t o _

theorem MicroOp_run_srfWf {s : State} (h : s.srf.wf) (op : MicroOp) : (op.run s).srf.wf := by
  cases op with
  | shWrite d r a b => exact Memory.wf_write h _ _
  | xfer t o x => simpa [MicroOp.run] using h

theorem MicroOp_run_pins {s : State} (h : s.cs = true ∧ s.clk = false) (op : MicroOp) :
    (op.run s).cs = true ∧ (op.run s).clk = false := by
  cases op with
  | shWrite d r a b => simpa [MicroOp.run] using h
  | xfer t o x => exact xfer_pins _ s h.2

/-- A property every entry keeps, a list keeps. -/
theorem runAll_keeps {P : State → Prop} (ops : List MicroOp) (h : ∀ o ∈ ops, ∀ s, P s → P (o.run s)) {s : State}
    (hs : P s) : P (runAll ops s) := by
  induction ops generalizing s with
  | nil => exact hs
  | cons op ops ih => exact ih (fun o ho => h o (by simp [ho])) (h op (by simp) s hs)

/-- The masked write of one lane (44_controller_display.md R195). -/
theorem shWrite_read {s : State} (h : s.srf.wf) (d r : Nat) (wdata wmask : Byte) (a : Nat) :
    (shWrite d r wdata wmask s).srf.read a =
      if a = lane d r then (s.sh d r &&& ~~~wmask) ||| (wdata &&& wmask) else s.srf.read a :=
  Memory.read_write h _ _ _

end Sys2Proof.Machine
end

