-- ==== Sys2Proof/Laws/Commands.lean ====
section
/-! SUPPORT. How the commands run: every entry of an accepted command may run, so a command is never refused. -/

namespace Sys2Proof.Machine

theorem rowOpcode_legal {r : Nat} (h : r ≤ 7) : ¬(rowOpcode r = 13#4 ∨ rowOpcode r = 14#4) := by
  have : ∀ r : Fin 8, ¬(rowOpcode r = 13#4 ∨ rowOpcode r = 14#4) := by decide
  exact this ⟨r, by omega⟩

theorem xfer_legal {n t : Nat} {op : Opcode} {x : XferData} (ht : t < n) (hop : ¬(op = 13#4 ∨ op = 14#4)) :
    (MicroOp.xfer t op x).illegal n = none := by
  rw [MicroOp.illegal, if_neg (by omega), if_neg hop]

theorem shWrite_legal {n d r : Nat} {a b : Byte} (hd : d < n) (hr : r ≤ 7) :
    (MicroOp.shWrite d r a b).illegal n = none := if_pos ⟨hd, hr⟩

theorem rowOps_legal {n d r : Nat} (hs : Bool) (v : Byte) (hd : d < n) (hr : r ≤ 7) :
    ∀ o ∈ rowOps hs d r v, o.illegal n = none := by
  intro o ho
  cases hs <;> simp [rowOps, ifShadow] at ho
  · subst ho; exact xfer_legal hd (rowOpcode_legal hr)
  · rcases ho with rfl | rfl
    · exact shWrite_legal hd hr
    · exact xfer_legal hd (rowOpcode_legal hr)

theorem ledOps_legal {n d r : Nat} (c : Nat) (on : Bool) (hd : d < n) (hr : r ≤ 7) :
    ∀ o ∈ ledOps d r c on, o.illegal n = none := by
  intro o ho
  simp [ledOps] at ho
  rcases ho with rfl | rfl
  · exact shWrite_legal hd hr
  · exact xfer_legal hd (rowOpcode_legal hr)

theorem clearOps_legal {n d : Nat} (hs : Bool) (hd : d < n) : ∀ o ∈ clearOps hs d, o.illegal n = none := by
  intro o ho
  obtain ⟨r, hr, ho⟩ := List.mem_flatMap.mp ho
  exact rowOps_legal hs _ hd (by have := List.mem_range.mp hr; omega) o ho

theorem initDeviceOps_legal {n d : Nat} (hs : Bool) (hd : d < n) : ∀ o ∈ initDeviceOps hs d, o.illegal n = none := by
  intro o ho
  simp only [initDeviceOps, List.mem_append, List.mem_cons, List.not_mem_nil, or_false] at ho
  rcases ho with ((rfl | rfl | rfl) | ho) | rfl
  · exact xfer_legal hd (by decide)
  · exact xfer_legal hd (by decide)
  · exact xfer_legal hd (by decide)
  · exact clearOps_legal hs hd o ho
  · exact xfer_legal hd (by decide)

theorem addressOk_iff {a : Byte} {s : State} : addressOk a s = true ↔ a.toNat < s.n.val := by simp [addressOk]

theorem indexOk_iff {b : Byte} : indexOk b = true ↔ b.toNat ≤ 7 := by simp [indexOk]

theorem valueOk_iff {c : Byte} : valueOk c = true ↔ c.toNat ≤ 15 := by simp [valueOk]

/-- Every entry of the list of an accepted command may run (41_bus_serializer.md R129, 44_controller_display.md R195). -/
theorem commandOf_legal {i : Instr} {c : Command} (hi : commandOf i = some c) {s : State} (h : c.accepts s = true) :
    ∀ o ∈ c.ops (c.immediate s), o.illegal (c.immediate s).n.val = none := by
  cases i <;> simp only [commandOf, Option.some.injEq, reduceCtorEq] at hi <;> subst hi
  case init a =>
    intro o ho
    obtain ⟨d, hd, ho⟩ := List.mem_flatMap.mp ho
    exact initDeviceOps_legal _ (List.mem_range.mp hd) o ho
  case shutdown a f =>
    intro o ho
    obtain rfl := List.mem_singleton.mp ho
    exact xfer_legal (addressOk_iff.mp h) (by decide)
  case setScanLimit a c =>
    intro o ho
    obtain rfl := List.mem_singleton.mp ho
    exact xfer_legal (addressOk_iff.mp h) (by decide)
  case setIntensity a c =>
    intro o ho
    obtain rfl := List.mem_singleton.mp ho
    exact xfer_legal (addressOk_iff.mp h) (by decide)
  case clearDisplay a => exact clearOps_legal _ (addressOk_iff.mp h)
  case setLed a b c f =>
    simp only [commandSetLed, Bool.and_eq_true] at h
    exact ledOps_legal _ _ (addressOk_iff.mp h.1.1.2) (indexOk_iff.mp h.1.2)
  case setRow a b c =>
    simp only [commandSetRow, Bool.and_eq_true] at h
    exact rowOps_legal _ _ (addressOk_iff.mp h.1) (indexOk_iff.mp h.2)
  case setColumn a b c =>
    simp only [commandSetColumn, Bool.and_eq_true] at h
    intro o ho
    obtain ⟨r, hr, ho⟩ := List.mem_flatMap.mp ho
    exact ledOps_legal _ _ (addressOk_iff.mp h.1.2) (by have := List.mem_range.mp hr; omega) o ho
  case setDigit a b c f =>
    simp only [commandSetDigit, Bool.and_eq_true] at h
    exact rowOps_legal _ _ (addressOk_iff.mp h.1.1) (indexOk_iff.mp h.1.2)
  case setChar a b c f =>
    simp only [commandSetChar, Bool.and_eq_true] at h
    exact rowOps_legal _ _ (addressOk_iff.mp h.1) (indexOk_iff.mp h.2)
  case getDeviceCount =>
    intro o ho
    cases ho

/-- The checks of a command's record are those the spec lists (43_controller_config.md R175). -/
theorem accepts_iff {i : Instr} {c : Command} (hi : commandOf i = some c) {s : State} :
    c.accepts s = true ↔ ChecksPass s i := by
  cases i <;> simp only [commandOf, Option.some.injEq, reduceCtorEq] at hi <;> subst hi <;>
    simp [ChecksPass, commandInit, commandShutdown, commandSetScanLimit, commandSetIntensity, commandClearDisplay, commandSetLed,
      commandSetRow, commandSetColumn, commandSetDigit, commandSetChar, commandGetDeviceCount, addressOk_iff, indexOk_iff,
      valueOk_iff, and_assoc]

/-- A list whose every entry may run ends in a next state. -/
theorem runOps_next {ops : List MicroOp} {s : State} (h : ∀ o ∈ ops, o.illegal s.n.val = none) :
    runOps ops s = .next (runAll ops s) := by
  rw [runOps, List.findSome?_eq_none_iff.mpr h]

/-- A host command is its record of checks, immediate effect and list. -/
theorem exec_command {i : Instr} {c : Command} (hi : commandOf i = some c) (s : State) : exec i s = c.run s := by
  cases i <;> simp only [commandOf, Option.some.injEq, reduceCtorEq] at hi <;> subst hi <;> rfl

theorem isHost_iff {i : Instr} : i.isHost = true ↔ ∃ c, commandOf i = some c := by
  cases i <;> simp [Instr.isHost, commandOf]

/-- An accepted command runs its whole list; a command that is not accepted has no effect (43_controller_config.md R175). -/
theorem exec_accepted {i : Instr} {c : Command} (hi : commandOf i = some c) {s : State} (h : c.accepts s = true) :
    exec i s = .next (runAll (c.ops (c.immediate s)) (c.immediate s)) := by
  rw [exec_command hi, Command.run, if_pos h, runOps_next (commandOf_legal hi h)]

theorem exec_dropped {i : Instr} {c : Command} (hi : commandOf i = some c) {s : State} (h : c.accepts s = false) :
    exec i s = .next s := by
  rw [exec_command hi, Command.run, h]
  rfl

/-- What the decoder answers is a host command. -/
theorem decodeCommand_host {w : CmdWord} {i : Instr} (h : decodeCommand w = .ok i) : ∃ c, commandOf i = some c := by
  unfold decodeCommand at h
  split at h
  · split at h <;> first | (cases h; done) | (obtain rfl := Decoded.ok.inj h; exact ⟨_, rfl⟩)
  · cases h

end Sys2Proof.Machine
end

