-- ==== Sys2Proof/Laws/Encoding.lean ====
section
/-! SUPPORT. What each field of an encoded word reads as, and how many bits the decoder looks at. -/

namespace Sys2Proof

/-- The bits of a pair: the data byte, the opcode, four zeros (30_encoding.md R80). -/
theorem encodePair_getLsbD (op : Opcode) (v : Byte) (i : Nat) : (encodePair op v).getLsbD i =
    if i < 8 then v.getLsbD i else if i - 8 < 4 then op.getLsbD (i - 8) else false := by
  have h : (encodePair op v).getLsbD i = _ := BitVec.getLsbD_append (x := 0#4 ++ op) (y := v)
  rw [h, BitVec.getLsbD_append]
  simp

/-- The bits of a command word, field by field (30_encoding.md R91). -/
theorem encodeCommand_getLsbD (cmd : BitVec 4) (f : Bool) (a b c : Byte) (i : Nat) :
    (encodeCommand cmd f a b c).getLsbD i =
      if i < 8 then c.getLsbD i else if i - 8 < 8 then b.getLsbD (i - 8) else if i - 8 - 8 < 8 then a.getLsbD (i - 8 - 8)
      else if i - 8 - 8 - 8 < 1 then (BitVec.ofBool f).getLsbD (i - 8 - 8 - 8)
      else if i - 8 - 8 - 8 - 1 < 3 then false else cmd.getLsbD (i - 8 - 8 - 8 - 1 - 3) := by
  have h : (encodeCommand cmd f a b c).getLsbD i = _ :=
    BitVec.getLsbD_append (x := cmd ++ 0#3 ++ BitVec.ofBool f ++ a ++ b) (y := c)
  rw [h, BitVec.getLsbD_append, BitVec.getLsbD_append, BitVec.getLsbD_append, BitVec.getLsbD_append]
  simp

/-- The opcode field of a pair. -/
theorem encodePair_op (op : Opcode) (v : Byte) : (encodePair op v).extractLsb' 8 4 = op := by
  refine BitVec.eq_of_getLsbD_eq fun i hi => ?_
  simp [encodePair_getLsbD, hi]

/-- The data byte of a pair. -/
theorem encodePair_data (op : Opcode) (v : Byte) : (encodePair op v).extractLsb' 0 8 = v := by
  refine BitVec.eq_of_getLsbD_eq fun i hi => ?_
  simp [encodePair_getLsbD, hi]

/-- The field CMD. -/
theorem encodeCommand_cmd (cmd : BitVec 4) (f : Bool) (a b c : Byte) :
    (encodeCommand cmd f a b c).extractLsb' 28 4 = cmd := by
  refine BitVec.eq_of_getLsbD_eq fun i hi => ?_
  have e : 28 + i - 8 - 8 - 8 - 1 - 3 = i := by omega
  simp only [BitVec.getLsbD_extractLsb', hi, decide_true, Bool.true_and, encodeCommand_getLsbD, e]
  repeat rw [if_neg (by omega)]

/-- The field RSV. -/
theorem encodeCommand_rsv (cmd : BitVec 4) (f : Bool) (a b c : Byte) :
    (encodeCommand cmd f a b c).extractLsb' 25 3 = 0#3 := by
  refine BitVec.eq_of_getLsbD_eq fun i hi => ?_
  simp only [BitVec.getLsbD_extractLsb', hi, decide_true, Bool.true_and, encodeCommand_getLsbD]
  rw [if_neg (by omega), if_neg (by omega), if_neg (by omega), if_neg (by omega), if_pos (by omega)]
  simp

/-- The field F. -/
theorem encodeCommand_f (cmd : BitVec 4) (f : Bool) (a b c : Byte) : (encodeCommand cmd f a b c).getLsbD 24 = f := by
  rw [encodeCommand_getLsbD]
  cases f <;> rfl

/-- The field A. -/
theorem encodeCommand_a (cmd : BitVec 4) (f : Bool) (a b c : Byte) :
    (encodeCommand cmd f a b c).extractLsb' 16 8 = a := by
  refine BitVec.eq_of_getLsbD_eq fun i hi => ?_
  simp only [BitVec.getLsbD_extractLsb', hi, decide_true, Bool.true_and, encodeCommand_getLsbD]
  rw [if_neg (by omega), if_neg (by omega), if_pos (by omega), show 16 + i - 8 - 8 = i by omega]

/-- The field B. -/
theorem encodeCommand_b (cmd : BitVec 4) (f : Bool) (a b c : Byte) :
    (encodeCommand cmd f a b c).extractLsb' 8 8 = b := by
  refine BitVec.eq_of_getLsbD_eq fun i hi => ?_
  simp only [BitVec.getLsbD_extractLsb', hi, decide_true, Bool.true_and, encodeCommand_getLsbD]
  rw [if_neg (by omega), if_pos (by omega), show 8 + i - 8 = i by omega]

/-- The field C. -/
theorem encodeCommand_c (cmd : BitVec 4) (f : Bool) (a b c : Byte) :
    (encodeCommand cmd f a b c).extractLsb' 0 8 = c := by
  refine BitVec.eq_of_getLsbD_eq fun i hi => ?_
  simp [encodeCommand_getLsbD, hi]

/-- The decoder answers on an encoded command word by its code alone, once its fields are read. -/
theorem decodeCommand_encodeCommand (cmd : BitVec 4) (f : Bool) (a b c : Byte) :
    decodeCommand (encodeCommand cmd f a b c) =
      match cmd.toNat with
      | 1 => .ok (.init a)
      | 2 => .ok (.shutdown a f)
      | 3 => .ok (.setScanLimit a c)
      | 4 => .ok (.setIntensity a c)
      | 5 => .ok (.clearDisplay a)
      | 6 => .ok (.setLed a b c f)
      | 7 => .ok (.setRow a b c)
      | 8 => .ok (.setColumn a b c)
      | 9 => .ok (.setDigit a b c f)
      | 10 => .ok (.setChar a b c f)
      | 11 => .ok .getDeviceCount
      | _ => .illegal (.reservedCode cmd) := by
  rw [decodeCommand, encodeCommand_rsv, if_pos rfl, encodeCommand_cmd, encodeCommand_a, encodeCommand_b,
    encodeCommand_c, encodeCommand_f] <;> rfl

end Sys2Proof
end

