-- ==== Sys2Proof/Laws/Frame.lean ====
section
/-! SUPPORT. What one transfer is, in the spec's own terms: the frame bit by bit, the pin writes, and what each device of a chain
of any length holds afterwards. -/

namespace Sys2Proof.Machine

section buffer

variable {s : State} (h : s.fb.wf) (t : Nat) (op : Opcode) (data : Byte) (d : Nat) (hd : d < s.n.val)

include h hd

theorem buildFB_opcode : (buildFB t op data s).fb.read (2 * d) = if d = t then op.setWidth 8 else 0x00#8 := by
  rw [buildFB_read h]
  split_ifs <;> first | rfl | omega

theorem buildFB_data : (buildFB t op data s).fb.read (2 * d + 1) = if d = t then data else 0x00#8 := by
  rw [buildFB_read h]
  split_ifs <;> first | rfl | omega

end buffer

/-- The two buffer bytes of a device are its pair (20_memory.md R57). -/
theorem pairOf_bytes (x : Transfer) (d : Nat) :
    pairOf x d =
      (if d = x.target then x.op.setWidth 8 else 0x00#8) ++ (if d = x.target then x.data else 0x00#8) := by
  unfold pairOf encodePair
  split
  · congr 1
    refine BitVec.eq_of_getLsbD_eq fun i hi => ?_
    have := BitVec.getLsbD_append (x := 0#4) (y := x.op) (i := i)
    rw [this]
    by_cases h4 : i < 4
    · simp [h4, hi]
    · have : BitVec.getLsbD x.op i = false := BitVec.getLsbD_of_ge _ _ (by omega)
      simp [h4, this]
  · rfl

/-- `BuildFB` leaves the buffer of its transfer (41_bus_serializer.md R127). -/
theorem buildFB_holds {s : State} (h : s.fb.wf) (x : Transfer) : (buildFB x.target x.op x.data s).BufferHolds x :=
  fun d hd => ⟨buildFB_opcode h _ _ _ d hd, buildFB_data h _ _ _ d hd⟩

/-- The bits the block sends from a buffer are those of the spec's frame (20_memory.md R58). -/
theorem frameBits_holds {fb : Memory} {x : Transfer} : ∀ n,
    (∀ d, d < n → fb.read (2 * d) = (if d = x.target then x.op.setWidth 8 else 0x00#8) ∧
      fb.read (2 * d + 1) = (if d = x.target then x.data else 0x00#8)) →
    frameBits fb n = (List.range (16 * n)).map (frameBit n x) := by
  intro n
  induction n with
  | zero => intro _; rfl
  | succ n ih =>
    intro h
    rw [frameBits, ih fun d hd => h d (by omega), byteBits_append, (h n (by omega)).1, (h n (by omega)).2,
      ← pairOf_bytes, show 16 * (n + 1) = 16 + 16 * n by omega, List.range_add, List.map_append]
    refine congrArg₂ (· ++ ·) ?_ ?_
    · unfold pairBits
      apply List.map_congr_left
      intro j hj
      have := List.mem_range.mp hj
      unfold frameBit
      rw [show j / 16 = 0 by omega, show j % 16 = j by omega]
      rfl
    · rw [List.map_map]
      apply List.map_congr_left
      intro j hj
      simp only [Function.comp, frameBit]
      rw [show (16 + j) / 16 = j / 16 + 1 by omega, show (16 + j) % 16 = j % 16 by omega,
        show n + 1 - 1 - (j / 16 + 1) = n - 1 - j / 16 by omega]

/-- The pin writes the block makes from a buffer are those of the spec's transfer (41_bus_serializer.md R128). -/
theorem framePins_holds {s : State} {x : Transfer} (h : s.BufferHolds x) : framePins s.fb s.n.val = transferPins s.n.val x := by
  rw [framePins, frameBits_holds _ h, transferPins, List.flatMap_map]
  rfl

theorem framePins_transfer {s : State} (h : s.fb.wf) (x : Transfer) :
    framePins (buildFB x.target x.op x.data s).fb s.n = transferPins s.n.val x := framePins_holds (buildFB_holds h x)

/-- The pair at rest in device `d` after the frame. -/
theorem framePairs_transfer {s : State} (h : s.fb.wf) (x : Transfer) (d : Nat) (hd : d < s.n.val) :
    (framePairs (buildFB x.target x.op x.data s).fb s.n).reverse.getD d 0#16 = pairOf x d := by
  rw [framePairs_reverse_getD _ _ _ hd, buildFB_opcode h _ _ _ _ hd, buildFB_data h _ _ _ _ hd, ← pairOf_bytes]

/-- One frame on a chain of any length, device by device (70_reset_and_hazards.md R262, R263). -/
theorem xfer_getElem {s : State} (h : s.fb.wf) (hc : s.clk = false) (x : Transfer) (d : Nat) :
    (xfer x s).chain[d]? = (s.chain[d]?).map (fun dev => Device.latch { dev with
      sr := (if d < s.n.val then pairOf x d else ((s.chain[d - s.n.val]?).map Device.sr).getD 0#16) }) := by
  rw [xfer_chain x s hc, List.getElem?_map, pushPairs_get, Option.map_map, framePairs_length]
  congr 1
  funext dev
  simp only [Function.comp]
  by_cases hd : d < s.n.val
  · simp only [hd, if_true, framePairs_transfer h x d hd]
  · simp only [hd, if_false]

/-! ### The latch, device by device -/

theorem latch_sr (dev : Device) : dev.latch.sr = dev.sr := by
  unfold Device.latch
  split <;> rfl

/-- The latch writes the register the pair names, and no other (41_bus_serializer.md R132). -/
theorem latch_get (dev : Device) (a : DevReg) : dev.latch.regs.get a =
    if DevReg.ofOpcode (dev.sr.extractLsb' 8 4) = some a then dev.sr.extractLsb' 0 8 else dev.regs.get a := by
  unfold Device.latch
  split
  · rename_i b hb
    rw [hb]
    simp only [DeviceRegs.get_set, Option.some.injEq, eq_comm]
  · rename_i hb
    simp [hb]

/-- What a transfer does to the registers of an initialised device: the target's register that the opcode names takes the data
byte, all others stay. -/
theorem xfer_dreg {s : State} (h : s.fb.wf) (hc : s.clk = false) (x : Transfer) (d : Nat) (hd : d < s.n.val)
    (a : DevReg) : (xfer x s).dreg d a =
      if d = x.target ∧ DevReg.ofOpcode x.op = some a then (s.chain[d]?).map (fun _ => x.data) else s.dreg d a := by
  unfold State.dreg
  rw [xfer_getElem h hc, Option.map_map]
  cases s.chain[d]? with
  | none => simp
  | some dev =>
    simp only [Option.map_some, Function.comp, latch_get, hd, if_true]
    unfold pairOf
    by_cases ht : d = x.target
    · simp only [ht, if_true, encodePair_op, encodePair_data, true_and]
      split <;> rfl
    · simp only [ht, if_false, false_and]
      rfl

end Sys2Proof.Machine
end

