-- ==== Sys2Proof/Laws/PerInstr.lean ====
section
/-! SUPPORT. Statements made instruction by instruction. Family RoundTrip: decoding the encoded instruction gives it back. -/

namespace Sys2Proof.Laws.RoundTrip

/-- Decoding the word of a well-formed instruction, at the instruction's own position, gives the instruction back. -/
def Statement (i : Instr) : Prop := i.WellFormed → decode i.position (encode i) = .ok i

theorem noop (d : Nat) (v : Byte) : Statement (.noop d v) := fun _ => by
  simp [decode, encode, decodePair, encodePair_op, encodePair_data, Instr.position]

theorem digit0 (d : Nat) (v : Byte) : Statement (.digit0 d v) := fun _ => by
  simp [decode, encode, decodePair, encodePair_op, encodePair_data, Instr.position]

theorem digit1 (d : Nat) (v : Byte) : Statement (.digit1 d v) := fun _ => by
  simp [decode, encode, decodePair, encodePair_op, encodePair_data, Instr.position]

theorem digit2 (d : Nat) (v : Byte) : Statement (.digit2 d v) := fun _ => by
  simp [decode, encode, decodePair, encodePair_op, encodePair_data, Instr.position]

theorem digit3 (d : Nat) (v : Byte) : Statement (.digit3 d v) := fun _ => by
  simp [decode, encode, decodePair, encodePair_op, encodePair_data, Instr.position]

theorem digit4 (d : Nat) (v : Byte) : Statement (.digit4 d v) := fun _ => by
  simp [decode, encode, decodePair, encodePair_op, encodePair_data, Instr.position]

theorem digit5 (d : Nat) (v : Byte) : Statement (.digit5 d v) := fun _ => by
  simp [decode, encode, decodePair, encodePair_op, encodePair_data, Instr.position]

theorem digit6 (d : Nat) (v : Byte) : Statement (.digit6 d v) := fun _ => by
  simp [decode, encode, decodePair, encodePair_op, encodePair_data, Instr.position]

theorem digit7 (d : Nat) (v : Byte) : Statement (.digit7 d v) := fun _ => by
  simp [decode, encode, decodePair, encodePair_op, encodePair_data, Instr.position]

theorem decodeMode (d : Nat) (v : Byte) : Statement (.decodeMode d v) := fun _ => by
  simp [decode, encode, decodePair, encodePair_op, encodePair_data, Instr.position]

theorem intensity (d : Nat) (v : Byte) : Statement (.intensity d v) := fun _ => by
  simp [decode, encode, decodePair, encodePair_op, encodePair_data, Instr.position]

theorem scanLimit (d : Nat) (v : Byte) : Statement (.scanLimit d v) := fun _ => by
  simp [decode, encode, decodePair, encodePair_op, encodePair_data, Instr.position]

theorem shutdownOp (d : Nat) (v : Byte) : Statement (.shutdownOp d v) := fun _ => by
  simp [decode, encode, decodePair, encodePair_op, encodePair_data, Instr.position]

theorem rsvd13 (d : Nat) (v : Byte) : Statement (.rsvd13 d v) := fun _ => by
  simp [decode, encode, decodePair, encodePair_op, encodePair_data, Instr.position]

theorem rsvd14 (d : Nat) (v : Byte) : Statement (.rsvd14 d v) := fun _ => by
  simp [decode, encode, decodePair, encodePair_op, encodePair_data, Instr.position]

theorem displayTest (d : Nat) (v : Byte) : Statement (.displayTest d v) := fun _ => by
  simp [decode, encode, decodePair, encodePair_op, encodePair_data, Instr.position]

theorem init (a : Byte) : Statement (.init a) := fun _ => decodeCommand_encodeCommand _ _ _ _ _

theorem shutdown (a : Byte) (f : Bool) : Statement (.shutdown a f) := fun _ => decodeCommand_encodeCommand _ _ _ _ _

theorem setScanLimit (a c : Byte) : Statement (.setScanLimit a c) := fun _ => decodeCommand_encodeCommand _ _ _ _ _

theorem setIntensity (a c : Byte) : Statement (.setIntensity a c) := fun _ => decodeCommand_encodeCommand _ _ _ _ _

theorem clearDisplay (a : Byte) : Statement (.clearDisplay a) := fun _ => decodeCommand_encodeCommand _ _ _ _ _

theorem setLed (a b c : Byte) (f : Bool) : Statement (.setLed a b c f) := fun _ => decodeCommand_encodeCommand _ _ _ _ _

theorem setRow (a b c : Byte) : Statement (.setRow a b c) := fun _ => decodeCommand_encodeCommand _ _ _ _ _

theorem setColumn (a b c : Byte) : Statement (.setColumn a b c) := fun _ => decodeCommand_encodeCommand _ _ _ _ _

theorem setDigit (a b c : Byte) (f : Bool) : Statement (.setDigit a b c f) := fun _ => decodeCommand_encodeCommand _ _ _ _ _

theorem setChar (a b c : Byte) (f : Bool) : Statement (.setChar a b c f) := fun _ => decodeCommand_encodeCommand _ _ _ _ _

theorem getDeviceCount : Statement .getDeviceCount := fun _ => decodeCommand_encodeCommand _ _ _ _ _

end Sys2Proof.Laws.RoundTrip
end

