-- ==== Sys2Proof/Laws/Steps.lean ====
section
/-! SUPPORT. The sequencer's small steps: what one of them is, case by case, and what none of them changes. -/

namespace Sys2Proof.Machine

theorem loadFB_fbWf {x : Transfer} {s : State} (h : s.fb.wf) : (loadFB x s).fb.wf := by
  unfold loadFB
  split
  · exact buildFB_wf h _ _ _
  · exact h

/-! ### Several steps -/

theorem run_next (M : Host.Core) {k : Nat} {s t : M.State} (h : M.step s = .next t) : M.run (k + 1) s = M.run k t := by
  rw [Host.Core.run, h]

theorem run_refused (M : Host.Core) {k : Nat} {s : M.State} {r : M.Refusal} (h : M.step s = .refused r) :
    M.run (k + 1) s = .refused r := by
  rw [Host.Core.run, h]

/-! ### Pin writes do not look at the sequencer's registers -/

theorem pin_withPos (w : PinWrite) (s : State) (p : BitVec 9) : pin w { s with pos := p } = { pin w s with pos := p } := by
  obtain ⟨q, v⟩ := w
  cases q <;> simp only [pin, drivePin] <;> first | rfl | (split <;> rfl)

theorem runPins_withPos (ws : List PinWrite) (s : State) (p : BitVec 9) :
    runPins ws { s with pos := p } = { runPins ws s with pos := p } := by
  induction ws generalizing s with
  | nil => rfl
  | cons w ws ih => rw [runPins_cons, runPins_cons, pin_withPos, ih]

/-! ### What one small step is -/

/-- The three cases of a small step of a transfer: a pin write before the last, the last, or a position outside the frame. -/
theorem pinStep_before {len : Nat} {x : Transfer} {s : State} {w : PinWrite}
    (hw : (framePins s.fb s.n)[s.pos.toNat]? = some w) (hp : s.pos.toNat < 48 * s.n.val + 1) :
    pinStep len x s = .next { pin w s with pos := s.pos + 1#9 } := by
  rw [pinStep, hw]
  exact if_pos (by omega)

/-- The last pin write of a frame raises chip-select. -/
theorem framePins_last (fb : Memory) (n : Nat) : (framePins fb n)[48 * n + 1]? = some ⟨.cs, true⟩ := by
  have h := framePins_length fb n
  simp only [framePins, List.length_cons, List.length_append, List.length_nil] at h
  rw [framePins, List.getElem?_cons_succ, List.getElem?_append_right (by omega),
    show 48 * n - ((frameBits fb n).flatMap bitPins).length = 0 by omega]
  rfl

theorem pinStep_last {len : Nat} {x : Transfer} {s : State} (hp : s.pos.toNat = 48 * s.n.val + 1) :
    pinStep len x s = .next (nextOp len (logTransfer x (pin ⟨.cs, true⟩ s))) := by
  rw [pinStep, hp, framePins_last]
  exact if_neg (by omega)

theorem pinStep_outside {len : Nat} {x : Transfer} {s : State} (hp : 48 * s.n.val + 1 < s.pos.toNat) :
    pinStep len x s = .refused .sequencerLost := by
  rw [pinStep, List.getElem?_eq_none (by rw [framePins_length]; omega)]

/-- What no small step changes. -/
structure SmallFrame (s t : State) : Prop where
  params : t.params = s.params
  n : t.n = s.n
  inited : t.inited = s.inited
  cw : t.cw = s.cw
  rsp : t.rsp = s.rsp
  rspValid : t.rspValid = s.rspValid
  inputs : t.inputs = s.inputs
  wired : t.chain.length = s.chain.length

theorem pinStep_frame {len : Nat} {x : Transfer} {s t : State} (h : pinStep len x s = .next t) : SmallFrame s t := by
  unfold pinStep at h
  split at h
  · cases h
  · split at h <;> simp only [Host.Outcome.next.injEq] at h <;> subst h <;> constructor <;> simp [logTransfer]

theorem opsStep_frame {ops : List MicroOp} {s t : State} (h : opsStep ops s = .next t) : SmallFrame s t := by
  unfold opsStep at h
  split at h
  · cases h
  · rename_i op _
    split at h
    · cases h
    · cases op with
      | shWrite d r a b =>
        simp only [MicroOp.smallStep, Host.Outcome.next.injEq] at h
        subst h
        constructor <;> simp
      | xfer u o y =>
        obtain ⟨h1, h2, h3, h4, h5, h6, h7, h8⟩ := pinStep_frame h
        constructor <;> simp_all

theorem smallStep_frame {s t : State} (h : smallStep s = .next t) : SmallFrame s t := by
  unfold smallStep at h
  split at h
  · split at h
    · exact opsStep_frame h
    · cases h
  · cases h

/-- What `nextOp` does to the sequencer's registers, once the list is no longer than UOP can count (10_state.md R30). -/
theorem nextOp_ends {len : Nat} {s : State} (hl : len ≤ 160) (hb : s.busy = true) : EntryEnds len s (nextOp len s) := by
  unfold EntryEnds nextOp
  split
  · exact ⟨hb, by simp; omega, rfl⟩
  · exact ⟨rfl, rfl, rfl⟩

/-- A command's list is a function of N and of the parameters alone, so no small step changes it. -/
theorem commandOf_ops {i : Instr} {c : Command} (hi : commandOf i = some c) {s t : State} (hn : t.n = s.n)
    (hp : t.params = s.params) : c.ops t = c.ops s := by
  cases i <;> simp only [commandOf, Option.some.injEq, reduceCtorEq] at hi <;> subst hi <;>
    simp [commandInit, commandShutdown, commandSetScanLimit, commandSetIntensity, commandClearDisplay, commandSetLed,
      commandSetRow, commandSetColumn, commandSetDigit, commandSetChar, commandGetDeviceCount, hn, hp]

/-! ### The frame, write by write -/

/-- Every pin write of a frame but the first and the last belongs to one bit: data, clock high, clock low in turn. -/
theorem framePins_bit (fb : Memory) (n p : Nat) (h1 : 0 < p) (h2 : p < 48 * n + 1) :
    ∃ b, (framePins fb n)[p]? = (bitPins b)[(p - 1) % 3]? := by
  have all : ∀ (bits : List Bool) (k : Nat), k < 3 * bits.length → ∃ b, (bits.flatMap bitPins)[k]? = (bitPins b)[k % 3]? := by
    intro bits
    induction bits with
    | nil => intro k hk; simp at hk
    | cons b bits ih =>
      intro k hk
      rw [List.flatMap_cons]
      by_cases h : k < 3
      · exact ⟨b, by rw [List.getElem?_append_left (by simpa [bitPins] using h), Nat.mod_eq_of_lt h]⟩
      · obtain ⟨b', hb'⟩ := ih (k - 3) (by simp at hk; omega)
        refine ⟨b', ?_⟩
        rw [List.getElem?_append_right (by simp [bitPins]; omega), show (bitPins b).length = 3 from rfl, hb',
          show (k - 3) % 3 = k % 3 by omega]
  obtain ⟨q, rfl⟩ : ∃ q, p = q + 1 := ⟨p - 1, by omega⟩
  obtain ⟨b, hb⟩ := all (frameBits fb n) q (by simp; omega)
  refine ⟨b, ?_⟩
  have h := framePins_length fb n
  simp only [framePins, List.length_cons, List.length_append, List.length_nil] at h
  rw [framePins, List.getElem?_cons_succ, List.getElem?_append_left (by omega), hb]
  rfl

/-- No command has more micro-operations than UOP can count (10_state.md R30). -/
theorem commandOf_length {i : Instr} {c : Command} (hi : commandOf i = some c) (s : State) : (c.ops s).length ≤ 160 := by
  have hr : ∀ hs d r v, (rowOps hs d r v).length ≤ 2 := by
    intro hs d r v
    cases hs <;> simp [rowOps, ifShadow]
  have hc : ∀ hs d, (clearOps hs d).length ≤ 16 := by
    intro hs d
    cases hs <;> simp [clearOps, rowOps, ifShadow, List.range, List.range.loop]
  cases i <;> simp only [commandOf, Option.some.injEq, reduceCtorEq] at hi <;> subst hi
  case init a =>
    have hd : ∀ d, (initDeviceOps s.params.hasShadow d).length ≤ 20 := by
      intro d
      have := hc s.params.hasShadow d
      simp [initDeviceOps]
      omega
    have : ∀ l : List Nat, (l.map (fun d => (initDeviceOps s.params.hasShadow d).length)).sum ≤ 20 * l.length := by
      intro l
      induction l with
      | nil => simp
      | cons x l ih =>
        have := hd x
        simp
        omega
    have := this (List.range s.n.val)
    have hn := s.n.isLt
    simp at this
    simp [commandInit]
    omega
  case clearDisplay a => exact le_trans (hc _ _) (by decide)
  case setRow => exact le_trans (hr _ _ _ _) (by decide)
  case setDigit => exact le_trans (hr _ _ _ _) (by decide)
  case setChar => exact le_trans (hr _ _ _ _) (by decide)
  all_goals
    simp [commandShutdown, commandSetScanLimit, commandSetIntensity, commandSetLed, commandSetColumn,
      commandGetDeviceCount, ledOps]

/-! ### What one step is -/

/-- The five things a step can be: a reset, a device that loses power, a small step of the command in progress (or nothing, when
the block is idle), the acceptance of a word, a whole command. -/
theorem step_cases {s t : State} (h : step s = .next t) :
    (∃ rest, s.inputs = .reset :: rest ∧ t = blockReset { s with rspValid := false, inputs := rest }) ∨
    (∃ d dev rest, s.inputs = .devicePower d dev :: rest ∧
      t = devicePower d dev { s with rspValid := false, inputs := rest }) ∨
    (∃ ins, (ins = s.inputs ∨ s.inputs = .tick :: ins) ∧ advance { s with rspValid := false, inputs := ins } = .next t) ∨
    (∃ w rest, s.busy = false ∧ s.inputs = .accept w :: rest ∧
      t = acceptWord w { s with rspValid := false, inputs := rest }) ∨
    (∃ w rest, s.busy = false ∧ s.inputs = .command w :: rest ∧
      runWord w { s with rspValid := false, inputs := rest } = .next t) := by
  unfold step stepBody at h
  split at h
  · exact .inr (.inr (.inl ⟨s.inputs, .inl rfl, h⟩))
  · exact .inl ⟨_, ‹_›, (Host.Outcome.next.inj h).symm⟩
  · exact .inr (.inl ⟨_, _, _, ‹_›, (Host.Outcome.next.inj h).symm⟩)
  · exact .inr (.inr (.inl ⟨_, .inr ‹_›, h⟩))
  · split at h
    · exact .inr (.inr (.inl ⟨s.inputs, .inl rfl, h⟩))
    · rename_i hb
      exact .inr (.inr (.inr (.inl ⟨_, _, by simpa using hb, ‹_›, (Host.Outcome.next.inj h).symm⟩)))
  · split at h
    · exact .inr (.inr (.inl ⟨s.inputs, .inl rfl, h⟩))
    · rename_i hb
      exact .inr (.inr (.inr (.inr ⟨_, _, by simpa using hb, ‹_›, h⟩)))

/-- A busy block that takes no word goes on with the command in CW. -/
theorem step_takesNoWord {s : State} {rest : List Input} (hb : s.busy = true) (h : s.TakesNoWord rest) :
    step s = smallStep { s with rspValid := false, inputs := rest } := by
  unfold step stepBody
  obtain ⟨h, rfl⟩ | h | ⟨⟨w, more, h | h⟩, rfl⟩ := h <;> simp [h, hb, advance]

/-- A step in which the port brings nothing changes what a small step changes. -/
theorem advance_frame {s t : State} (h : advance s = .next t) : SmallFrame s t := by
  unfold advance at h
  split at h
  · exact smallStep_frame h
  · obtain rfl := Host.Outcome.next.inj h
    constructor <;> rfl

/-- The acceptance of a word as a small step: CW takes it, and then nothing, or the command's immediate effect, and BUSY when the
command has micro-operations. -/
theorem acceptWord_cases (w : CmdWord) (s : State) :
    acceptWord w s = { s with cw := w } ∨
    ∃ i c, decodeCommand w = .ok i ∧ commandOf i = some c ∧ c.accepts { s with cw := w } = true ∧
      (acceptWord w s = c.immediate { s with cw := w } ∧ c.ops (c.immediate { s with cw := w }) = [] ∨
       acceptWord w s = { c.immediate { s with cw := w } with busy := true, uop := 0#8, pos := 0#9 } ∧
         c.ops (c.immediate { s with cw := w }) ≠ []) := by
  unfold acceptWord
  split
  · rename_i i hi
    split
    · rename_i c hc
      cases ha : c.accepts { s with cw := w } with
      | false => exact .inl (by rw [Command.begin, ha]; rfl)
      | true =>
        refine .inr ⟨i, c, hi, hc, ha, ?_⟩
        rw [Command.begin, if_pos ha]
        split
        · exact .inl ⟨rfl, ‹_›⟩
        · exact .inr ⟨rfl, by simp [*]⟩
    · exact .inl rfl
  · exact .inl rfl

/-- What a command writes in the step of its acceptance: nothing, but INIT writes N and INITED, and GETDEVICECOUNT the response
(43_controller_config.md R177, R182). -/
theorem commandOf_immediate {i : Instr} {c : Command} (hi : commandOf i = some c) (s : State) :
    c.immediate s = s ∨
    (∃ a, i = .init a ∧ c.immediate s = { s with n := clampLength a, inited := true }) ∨
    (i = .getDeviceCount ∧ c.immediate s = { s with rsp := BitVec.ofNat 8 s.n.val, rspValid := true }) := by
  cases i <;> simp only [commandOf, Option.some.injEq, reduceCtorEq] at hi <;> subst hi <;>
    first
    | exact .inl rfl
    | exact .inr (.inl ⟨_, rfl, rfl⟩)
    | exact .inr (.inr ⟨rfl, rfl⟩)

end Sys2Proof.Machine
end

