-- ==== Sys2Proof/Tests/Slice0.lean ====
section
/-! SUPPORT. Tests of the model and witnesses of the statements' hypotheses. Every expected value is written out from the spec: the
words bit by bit from 30_encoding.md R80, R84, R91 to R93, the results from the vectors of 95_test_vectors.md (named in each
comment; its start states are those with `P = N` and the fixture table SEGROM_T). -/

namespace Sys2Proof.Tests

open Sys2Proof.Machine

set_option Elab.async false

/-! ### Helpers -/

/-- A block initialised for `n` devices on a chain of `n` wired devices, all registers 0, idle. -/
def ready (n : Fin 9) : State :=
  { State.powerOn ⟨true, Config.segromT⟩ (List.replicate n.val Device.zero) with n := n, inited := true }

/-- The same without the shadow. -/
def readyMinimal (n : Fin 9) : State := { ready n with params := ⟨false, Config.segromT⟩ }

/-- The outcome is a next state of which `p` holds. -/
def ends (o : Host.Outcome State Fault Refusal) (p : State → Bool) : Bool :=
  match o with
  | .next t => p t
  | _ => false

/-- A block whose shadow row 1 of device 0 is 0x0F and row 6 is 0xF0 (vector D9's start). -/
def readyD9 : State := { ready 1 with srf := [(1, 0x0F#8), (6, 0xF0#8)] }

/-- The eight rows of device 0 in the shadow. -/
def rowsOf (s : State) : List Byte := (List.range 8).map (fun r => s.sh 0 r)

/-- The data bytes of a transfer log all of whose entries go to device 0 and digits 0, 1, 2, ... in order. -/
def digitFrames (vs : List Byte) : List Transfer := vs.mapIdx (fun r v => ⟨0, BitVec.ofNat 4 (r + 1), v⟩)

/-! ### Well-formedness: a position of the chain is at most 7 (00_scope.md R6) -/

theorem test_wf_noop : ¬ (Instr.noop 8 0x00#8).WellFormed := by decide
theorem test_wf_digit0 : ¬ (Instr.digit0 8 0x00#8).WellFormed := by decide
theorem test_wf_digit1 : ¬ (Instr.digit1 8 0x00#8).WellFormed := by decide
theorem test_wf_digit2 : ¬ (Instr.digit2 8 0x00#8).WellFormed := by decide
theorem test_wf_digit3 : ¬ (Instr.digit3 8 0x00#8).WellFormed := by decide
theorem test_wf_digit4 : ¬ (Instr.digit4 8 0x00#8).WellFormed := by decide
theorem test_wf_digit5 : ¬ (Instr.digit5 8 0x00#8).WellFormed := by decide
theorem test_wf_digit6 : ¬ (Instr.digit6 8 0x00#8).WellFormed := by decide
theorem test_wf_digit7 : ¬ (Instr.digit7 8 0x00#8).WellFormed := by decide
theorem test_wf_decodeMode : ¬ (Instr.decodeMode 8 0x00#8).WellFormed := by decide
theorem test_wf_intensity : ¬ (Instr.intensity 8 0x00#8).WellFormed := by decide
theorem test_wf_scanLimit : ¬ (Instr.scanLimit 8 0x00#8).WellFormed := by decide
theorem test_wf_shutdownOp : ¬ (Instr.shutdownOp 8 0x00#8).WellFormed := by decide
theorem test_wf_rsvd13 : ¬ (Instr.rsvd13 8 0x00#8).WellFormed := by decide
theorem test_wf_rsvd14 : ¬ (Instr.rsvd14 8 0x00#8).WellFormed := by decide
theorem test_wf_displayTest : ¬ (Instr.displayTest 8 0x00#8).WellFormed := by decide

/-! ### Decoding: a pair is 0b0000, the opcode, the data byte (30_encoding.md R80, R84); vectors W2 to W20 -/

theorem test_decode_noop : decodePair 5 0b0000000011111111#16 = .noop 5 0xFF#8 := by decide
theorem test_decode_digit0 : decodePair 5 0b0000000110101010#16 = .digit0 5 0xAA#8 := by decide
theorem test_decode_digit1 : decodePair 5 0b0000001000001111#16 = .digit1 5 0x0F#8 := by decide
theorem test_decode_digit2 : decodePair 5 0b0000001110000000#16 = .digit2 5 0x80#8 := by decide
theorem test_decode_digit3 : decodePair 5 0b0000010011111111#16 = .digit3 5 0xFF#8 := by decide
theorem test_decode_digit4 : decodePair 5 0b0000010100110000#16 = .digit4 5 0x30#8 := by decide
theorem test_decode_digit5 : decodePair 5 0b0000011000000000#16 = .digit5 5 0x00#8 := by decide
theorem test_decode_digit6 : decodePair 5 0b0000011110000000#16 = .digit6 5 0x80#8 := by decide
theorem test_decode_digit7 : decodePair 5 0b0000100000000001#16 = .digit7 5 0x01#8 := by decide
theorem test_decode_decodeMode : decodePair 5 0b0000100100000000#16 = .decodeMode 5 0x00#8 := by decide
theorem test_decode_intensity : decodePair 5 0b0000101000001000#16 = .intensity 5 0x08#8 := by decide
theorem test_decode_scanLimit : decodePair 5 0b0000101100000111#16 = .scanLimit 5 0x07#8 := by decide
theorem test_decode_shutdownOp : decodePair 5 0b0000110000000001#16 = .shutdownOp 5 0x01#8 := by decide
theorem test_decode_rsvd13 : decodePair 5 0b0000110101010101#16 = .rsvd13 5 0x55#8 := by decide
theorem test_decode_rsvd14 : decodePair 5 0b0000111001010101#16 = .rsvd14 5 0x55#8 := by decide
theorem test_decode_displayTest : decodePair 5 0b0000111100000000#16 = .displayTest 5 0x00#8 := by decide

/-- W21, W23: the upper four bits are ignored. -/
theorem test_decode_upper_bits :
    decodePair 5 0b1111111100000010#16 = .displayTest 5 0x02#8 ∧
    decodePair 5 0b1111000000100000#16 = .noop 5 0x20#8 := by decide

/-! ### Decoding: a command is CMD, 0b000, F, A, B, C (30_encoding.md R91 to R93); vectors of section 3.4 and 3.5 -/

theorem test_decode_init : decodeCommand 0b00010000000000010000000000000000#32 = .ok (.init 1#8) := by decide
theorem test_decode_shutdown : decodeCommand 0b00100001000000000000000000000000#32 = .ok (.shutdown 0#8 true) := by decide
theorem test_decode_setScanLimit :
    decodeCommand 0b00110000000000010000000000001000#32 = .ok (.setScanLimit 1#8 8#8) := by decide
theorem test_decode_setIntensity :
    decodeCommand 0b01000000000000100000000000010000#32 = .ok (.setIntensity 2#8 16#8) := by decide
theorem test_decode_clearDisplay : decodeCommand 0b01010000000000010000000000000000#32 = .ok (.clearDisplay 1#8) := by decide
theorem test_decode_setLed :
    decodeCommand 0b01100001000000010000001000000101#32 = .ok (.setLed 1#8 2#8 5#8 true) := by decide
theorem test_decode_setRow :
    decodeCommand 0b01110000000000100000011110000001#32 = .ok (.setRow 2#8 7#8 0x81#8) := by decide
theorem test_decode_setColumn :
    decodeCommand 0b10000000000000000000001010100101#32 = .ok (.setColumn 0#8 2#8 0xA5#8) := by decide
theorem test_decode_setDigit :
    decodeCommand 0b10010001000000000000001100001000#32 = .ok (.setDigit 0#8 3#8 8#8 true) := by decide
theorem test_decode_setChar :
    decodeCommand 0b10100001000000000000000111001000#32 = .ok (.setChar 0#8 1#8 200#8 true) := by decide
theorem test_decode_getDeviceCount : decodeCommand 0b10110000000000000000000000000000#32 = .ok .getDeviceCount := by decide

/-- X16, X17, X18, X20: illegal words (30_encoding.md R94). -/
theorem test_decode_illegal :
    decodeCommand 0x00000000#32 = .illegal (.reservedCode 0#4) ∧
    decodeCommand 0xC0000000#32 = .illegal (.reservedCode 12#4) ∧
    decodeCommand 0xFFFFFFFF#32 = .illegal (.reservedBits 7#3) ∧
    decodeCommand 0x780000FF#32 = .illegal (.reservedBits 4#3) := by decide

/-- K22: SHUTDOWN 0, 0 with other bits in the fields it does not use (30_encoding.md R91). -/
theorem test_decode_unused_fields : decodeCommand 0x200055AA#32 = .ok (.shutdown 0#8 false) := by decide

/-! ### Wire opcodes, placed in device 0 of the machine after reset: vectors W2 to W20 -/

/-- W2. -/
theorem test_step_noop :
    ends (step (State.reset.withFetchWord 16 0x00FF)) (fun t => t.chain.map Device.regs == State.reset.chain.map Device.regs) = true := by
  decide
/-- W3. -/
theorem test_step_digit0 :
    ends (step (State.reset.withFetchWord 16 0x01AA)) (fun t => t.dreg 0 .digit0 == some 0xAA#8) = true := by decide
/-- W4. -/
theorem test_step_digit1 :
    ends (step (State.reset.withFetchWord 16 0x020F)) (fun t => t.dreg 0 .digit1 == some 0x0F#8) = true := by decide
/-- W5. -/
theorem test_step_digit2 :
    ends (step (State.reset.withFetchWord 16 0x0380)) (fun t => t.dreg 0 .digit2 == some 0x80#8) = true := by decide
/-- W6; device 1 executes NOOP. -/
theorem test_step_digit3 :
    ends (step (State.reset.withFetchWord 16 0x04FF))
      (fun t => t.dreg 0 .digit3 == some 0xFF#8 && t.dreg 1 .digit3 == some 0x00#8) = true := by decide
/-- W7. -/
theorem test_step_digit4 :
    ends (step (State.reset.withFetchWord 16 0x0530)) (fun t => t.dreg 0 .digit4 == some 0x30#8) = true := by decide
/-- W8 with another byte (42_wire_opcodes.md R156). -/
theorem test_step_digit5 :
    ends (step (State.reset.withFetchWord 16 0x0611)) (fun t => t.dreg 0 .digit5 == some 0x11#8) = true := by decide
/-- W9. -/
theorem test_step_digit6 :
    ends (step (State.reset.withFetchWord 16 0x0780)) (fun t => t.dreg 0 .digit6 == some 0x80#8) = true := by decide
/-- W10. -/
theorem test_step_digit7 :
    ends (step (State.reset.withFetchWord 16 0x0801)) (fun t => t.dreg 0 .digit7 == some 0x01#8) = true := by decide
/-- W11 with another byte (42_wire_opcodes.md R159). -/
theorem test_step_decodeMode :
    ends (step (State.reset.withFetchWord 16 0x09FF)) (fun t => t.dreg 0 .decodeMode == some 0xFF#8) = true := by decide
/-- W13: stored whole. -/
theorem test_step_intensity :
    ends (step (State.reset.withFetchWord 16 0x0A10)) (fun t => t.dreg 0 .intensity == some 0x10#8) = true := by decide
/-- W15: stored whole. -/
theorem test_step_scanLimit :
    ends (step (State.reset.withFetchWord 16 0x0BFF)) (fun t => t.dreg 0 .scanLimit == some 0xFF#8) = true := by decide
/-- W17. -/
theorem test_step_shutdownOp :
    ends (step (State.reset.withFetchWord 16 0x0C01)) (fun t => t.dreg 0 .shutdown == some 0x01#8) = true := by decide
/-- W18. -/
theorem test_step_rsvd13 :
    ends (step (State.reset.withFetchWord 16 0x0D55)) (fun t => t.chain.map Device.regs == State.reset.chain.map Device.regs) = true := by
  decide
/-- W19. -/
theorem test_step_rsvd14 :
    ends (step (State.reset.withFetchWord 16 0x0E55)) (fun t => t.chain.map Device.regs == State.reset.chain.map Device.regs) = true := by
  decide
/-- W22: upper four bits ignored. -/
theorem test_step_displayTest :
    ends (step (State.reset.withFetchWord 16 0x1FF0)) (fun t => t.dreg 0 .displayTest == some 0xF0#8) = true := by decide

/-! ### Host commands -/

/-- S10, K1: the twelve frames of INIT 1 and its 600 pin writes. -/
theorem test_init :
    ends (step ((State.powerOn ⟨true, Config.segromT⟩ [Device.zero]).withFetchWord 32 0x10010000))
      (fun t => t.xferLog == [⟨0, 15#4, 0#8⟩, ⟨0, 11#4, 7#8⟩, ⟨0, 9#4, 0#8⟩, ⟨0, 1#4, 0#8⟩, ⟨0, 2#4, 0#8⟩, ⟨0, 3#4, 0#8⟩,
          ⟨0, 4#4, 0#8⟩, ⟨0, 5#4, 0#8⟩, ⟨0, 6#4, 0#8⟩, ⟨0, 7#4, 0#8⟩, ⟨0, 8#4, 0#8⟩, ⟨0, 12#4, 0#8⟩] &&
        t.n == 1 && t.inited && t.pinLog.length == 600 && t.shiftReg 0 == some 0x0C00#16) = true := by decide +kernel
/-- K7: a second INIT is dropped. K4: 9 is clamped to 8. -/
theorem test_init_again_and_clamp : ends (exec (.init 3#8) (ready 1)) (· == ready 1) = true ∧ clampLength 9#8 = 8 := by decide +kernel
/-- K10, with what device 0 and device 1 hold after it. -/
theorem test_shutdown :
    ends (step ((ready 2).withFetchWord 32 0x20010000))
      (fun t => t.xferLog == [⟨1, 12#4, 1#8⟩] && t.shiftReg 1 == some 0x0C01#16 && t.shiftReg 0 == some 0#16 &&
        t.dreg 1 .shutdown == some 1#8) = true := by decide +kernel
/-- K8: the inverse of the flag. -/
theorem test_shutdown_on :
    ends (step ((ready 1).withFetchWord 32 0x21000000)) (fun t => t.xferLog == [⟨0, 12#4, 0#8⟩]) = true := by decide +kernel
/-- K13. -/
theorem test_setScanLimit :
    ends (step ((ready 3).withFetchWord 32 0x30010008))
      (fun t => t.xferLog == [⟨1, 11#4, 8#8⟩] && t.dreg 1 .scanLimit == some 8#8 && t.shiftReg 2 == some 0#16) = true := by
  decide +kernel
/-- K17. -/
theorem test_setIntensity :
    ends (step ((ready 3).withFetchWord 32 0x40020010))
      (fun t => t.xferLog == [⟨2, 10#4, 16#8⟩] && t.dreg 2 .intensity == some 16#8) = true := by decide +kernel
/-- X4. -/
theorem test_setIntensity_dropped : ends (exec (.setIntensity 3#8 1#8) (ready 3)) (· == ready 3) = true := by decide +kernel
/-- D22. -/
theorem test_clearDisplay :
    ends (step (readyD9.withFetchWord 32 0x50000000))
      (fun t => t.xferLog == digitFrames [0#8, 0#8, 0#8, 0#8, 0#8, 0#8, 0#8, 0#8] && t.srf == []) = true := by decide +kernel
/-- D4: SETLED 0, 0, 7, 1 after row 0 is 0x80. -/
theorem test_setLed :
    ends (step (State.withFetchWord { ready 1 with srf := [(0, 0x80#8)] } 32 0x61000007))
      (fun t => t.xferLog == [⟨0, 1#4, 0x81#8⟩] && t.sh 0 0 == 0x81#8 && t.dreg 0 .digit0 == some 0x81#8) = true := by decide +kernel
/-- D5: and column 0 off again. -/
theorem test_setLed_off :
    ends (step (State.withFetchWord { ready 1 with srf := [(0, 0x81#8)] } 32 0x60000000))
      (fun t => t.xferLog == [⟨0, 1#4, 0x01#8⟩] && t.sh 0 0 == 0x01#8) = true := by decide +kernel
/-- H5: P < N, the only device is not reached, the shadow is written all the same. -/
theorem test_setRow :
    ends (step (State.withFetchWord { ready 2 with chain := [Device.zero] } 32 0x700100AA))
      (fun t => t.sh 1 0 == 0xAA#8 && t.shiftReg 0 == some 0#16 && t.dreg 0 .digit0 == some 0#8) = true := by decide +kernel
/-- X8. -/
theorem test_setRow_dropped : ends (exec (.setRow 0#8 8#8 0#8) (ready 1)) (· == ready 1) = true := by decide +kernel
/-- D9. -/
theorem test_setColumn :
    ends (step (readyD9.withFetchWord 32 0x800002A5))
      (fun t => t.xferLog == digitFrames [0x20#8, 0x0F#8, 0x20#8, 0#8, 0#8, 0x20#8, 0xD0#8, 0x20#8] &&
        rowsOf t == [0x20#8, 0x0F#8, 0x20#8, 0#8, 0#8, 0x20#8, 0xD0#8, 0x20#8]) = true := by decide +kernel
/-- D10: bit 7 of the value goes to row 0. -/
theorem test_setColumn_transpose :
    ends (step ((ready 1).withFetchWord 32 0x80000781))
      (fun t => rowsOf t == [1#8, 0#8, 0#8, 0#8, 0#8, 0#8, 0#8, 1#8]) = true := by decide +kernel
/-- S3 with N = 2. -/
theorem test_setDigit :
    ends (step ((ready 2).withFetchWord 32 0x91010308))
      (fun t => t.xferLog == [⟨1, 4#4, 0xFF#8⟩] && t.sh 1 3 == 0xFF#8 && t.dreg 1 .digit3 == some 0xFF#8) = true := by decide +kernel
/-- X12. -/
theorem test_setDigit_dropped : ends (exec (.setDigit 0#8 2#8 16#8 false) (ready 1)) (· == ready 1) = true := by decide +kernel
/-- D18: the code 200 is replaced by 32, the decimal point stays. -/
theorem test_setChar :
    ends (step ((ready 1).withFetchWord 32 0xA10001C8))
      (fun t => t.xferLog == [⟨0, 2#4, 0x80#8⟩] && t.sh 0 1 == 0x80#8) = true := by decide +kernel
/-- X14: the address is checked first. -/
theorem test_setChar_dropped : ends (exec (.setChar 1#8 0#8 200#8 false) (ready 1)) (· == ready 1) = true := by decide +kernel
/-- K20. -/
theorem test_getDeviceCount :
    ends (step ((ready 1).withFetchWord 32 0xB0000000)) (fun t => t.rsp == 1#8 && t.rspValid && t.xferTrace == []) = true := by
  decide +kernel
/-- M3, M1: dropped without the shadow. -/
theorem test_minimal_drops :
    ends (exec .getDeviceCount (readyMinimal 1)) (· == readyMinimal 1) = true ∧
    ends (exec (.setLed 0#8 0#8 0#8 true) (readyMinimal 1)) (· == readyMinimal 1) = true := by decide +kernel

/-! ### Pins, frames, small steps, reset -/

/-- B1: the pin log of `XFER(0, 10, 0x08)` with N = 1. -/
theorem test_pin_log :
    (xfer ⟨0, 10#4, 0x08#8⟩ (ready 1)).pinLog =
      ⟨.cs, false⟩ :: ([false, false, false, false, true, false, true, false, false, false, false, false, true, false, false,
        false].flatMap (fun b => [⟨.din, b⟩, ⟨.clk, true⟩, ⟨.clk, false⟩]) ++ [⟨.cs, true⟩]) := by decide +kernel
/-- B2: the chain of two devices after 16, 17 and 32 clock pulses of `XFER(1, 4, 0xFF)`. -/
theorem test_chain_trace :
    let s : State := { ready 2 with chain := [{ Device.zero with sr := 0xAAAA#16 }, { Device.zero with sr := 0x5555#16 }] }
    let ws := framePins (buildFB 1 4#4 0xFF#8 s).fb 2
    (runPins (ws.take 49) s).chain.map Device.sr = [0x04FF#16, 0xAAAA#16] ∧
    (runPins (ws.take 52) s).chain.map Device.sr = [0x09FE#16, 0x5554#16] ∧
    (runPins (ws.take 97) s).chain.map Device.sr = [0x0000#16, 0x04FF#16] := by decide +kernel
/-- H3, j = 8: reset inside the frame 0x020F after 8 clock pulses. -/
theorem test_reset_in_frame :
    let s : State := { ready 1 with chain := [{ Device.zero with sr := 0x01FF#16 }] }
    let t := blockReset (runPins ((framePins (buildFB 0 2#4 0x0F#8 s).fb 1).take 25) s)
    t.shiftReg 0 = some 0xFF02#16 ∧ t.dreg 0 .displayTest = some 0x02#8 ∧ t.n = 0 ∧ t.cs = true := by decide +kernel
/-- 30_encoding.md R90: the acceptance of SHUTDOWN 0, 0 as a small step. -/
theorem test_accept :
    ends (step { ready 1 with inputs := [.accept 0x20000000#32] })
      (fun t => t.busy && t.cw == 0x20000000#32 && t.pinTrace == [] && t.uop == 0#8 && t.pos == 0#9) = true := by decide +kernel
/-- 41_bus_serializer.md R128: the first small step of its transfer. -/
theorem test_first_pin :
    ends (step { ready 1 with busy := true, cw := 0x20000000#32 })
      (fun t => t.pinLog == [⟨.cs, false⟩] && t.pos == 1#9 && t.fb.read 0 == 0x0C#8 && t.fb.read 1 == 0x01#8) = true := by decide +kernel

/-! ### Witnesses: for every statement of Certificates/Slice0/Obligations.lean that has hypotheses, states and operands that meet
them, at the ends of their ranges; `W` stands for the statement's name -/

/-- An outcome that ends in a next state, as an equation. -/
theorem exists_of_ends {o : Host.Outcome State Fault Refusal} {p : State → Bool} (h : ends o p = true) :
    ∃ t, o = .next t ∧ p t = true := by
  cases o with
  | next t => exact ⟨t, rfl, h⟩
  | fault r => cases h
  | refused r => cases h

/-- The block in the middle of SHUTDOWN 0, 0, before the first pin write. -/
def midCommand : State := { ready 1 with busy := true, cw := 0x20000000#32 }

/-- An uninitialised block on one device. -/
def fresh : State := State.powerOn ⟨true, Config.segromT⟩ [Device.zero]

/-- A transfer. -/
def tr (t : Nat) (op : Opcode) (v : Byte) : Transfer := ⟨t, op, v⟩

theorem ready_pins (n : Fin 9) : (ready n).PinsIdle := ⟨rfl, rfl⟩

theorem ready_wired (n : Fin 9) : (ready n).WiredRight := by simp [State.WiredRight, ready, State.powerOn]

theorem witness_WellFormedInstructionsDecodeBack :
    (Instr.noop 0 0xFF#8).WellFormed ∧ (Instr.displayTest 7 0#8).WellFormed ∧ (Instr.setChar 255#8 255#8 255#8 true).WellFormed := by
  decide

theorem witness_EveryPairDecodesByItsLowTwelveBits :
    (0xFF02#16 : Pair) &&& 0x0FFF#16 = (0x0F02#16 : Pair) &&& 0x0FFF#16 ∧ (0xFF02#16 : Pair) ≠ 0x0F02#16 := by decide

theorem witness_IllegalWordsAreAcceptedAndDropped :
    (ready 1).busy = false ∧ { ready 1 with inputs := [.command 0xC0000000#32] }.inputs = .command 0xC0000000#32 :: [] ∧
    { ready 1 with inputs := [.accept 0xC0000000#32] }.inputs = .accept 0xC0000000#32 :: [] ∧
    decodeCommand 0xC0000000#32 = .illegal (.reservedCode 12#4) ∧ decodeCommand 0x0FFFFFFF#32 = .illegal (.reservedBits 7#3) ∧
    decodeCommand 0x00000000#32 = .illegal (.reservedCode 0#4) ∧ decodeCommand 0xF0000000#32 = .illegal (.reservedCode 15#4) ∧
    (readyMinimal 1).params.hasShadow = false ∧ (readyMinimal 1).busy = false ∧
    ((0x61000000#32).extractLsb' 28 4).toNat = 6 ∧ ((0x800000FF#32).extractLsb' 28 4).toNat = 8 ∧
    ((0xB0000000#32).extractLsb' 28 4).toNat = 11 := by decide +kernel

theorem witness_StepRunsTheDecodedCommand :
    (ready 1).busy = false ∧ { ready 1 with inputs := [.command 0xB0000000#32] }.inputs = .command 0xB0000000#32 :: [] ∧
    decodeCommand 0xB0000000#32 = .ok .getDeviceCount := by decide +kernel

/-- The four ways a busy block takes no word, at the last pin write. -/
theorem witness_LatchStepRunsTheDecodedPairs :
    let s := State.reset.withFetchWord 16 0x04FF
    s.TakesNoWord [] ∧ { s with inputs := [] }.TakesNoWord [] ∧
    { s with inputs := [.command 0x00000000#32] }.TakesNoWord [.command 0x00000000#32] ∧
    { s with inputs := [.accept 0xB0000000#32] }.TakesNoWord [.accept 0xB0000000#32] ∧ s.busy = true ∧ s.cs = false ∧ decodeCommand s.cw = .ok (.shutdown 0#8 false) ∧
    commandOf (.shutdown 0#8 false) = some (commandShutdown 0#8 false) ∧
    ((commandShutdown 0#8 false).ops s)[s.uop.toNat]? = some (.xfer 0 12#4 (.byte 0x01#8)) ∧
    0 < s.n.val ∧ (12#4 : Opcode) ≠ 13#4 ∧ (12#4 : Opcode) ≠ 14#4 ∧ s.pos.toNat = 48 * s.n.val + 1 :=
  ⟨.inr (.inl rfl), .inl ⟨rfl, rfl⟩, .inr (.inr ⟨⟨_, _, .inl rfl⟩, rfl⟩), .inr (.inr ⟨⟨_, _, .inr rfl⟩, rfl⟩), rfl, rfl,
    by decide, rfl, rfl, by decide, by decide, by decide, by decide⟩

theorem witness_LatchIsTheExecutionOfEveryPair :
    State.reset.chain[0]? = some Device.zero ∧ State.reset.chain[7]? = some Device.zero := by decide

theorem witness_PlacedWordsRunNext :
    decodeCommand 0x10010000#32 = .ok (.init 1#8) ∧ State.reset.chain ≠ [] := by decide

theorem witness_BusyBlockLeavesTheWordWaiting :
    midCommand.busy = true ∧
    (∃ t, step { midCommand with inputs := [.command 0xB0000000#32] } = .next t ∧ t.busy = true) ∧
    (∃ t, step { midCommand with inputs := [.accept 0xB0000000#32] } = .next t ∧ t.busy = true) :=
  ⟨rfl, exists_of_ends (p := fun t => t.busy) (by decide +kernel), exists_of_ends (p := fun t => t.busy) (by decide +kernel)⟩

theorem witness_DigitOpcodesStoreTheirRow : 0 < State.reset.chain.length ∧ 7 < State.reset.chain.length ∧
    State.reset.chain.length ≤ 8 := by decide

theorem witness_ControlOpcodesStoreTheirRegister : 0 < State.reset.chain.length ∧ 7 < State.reset.chain.length ∧
    State.reset.chain.length ≤ 8 := by decide

/-- Both edges, and a write of each pin that is no rising edge. -/
theorem witness_PinWritesAreRecordedAndOnlyRisingEdgesAct :
    (ready 1).clk = false ∧ { ready 1 with cs := false }.cs = false ∧
    ¬((⟨.din, true⟩ : PinWrite) = ⟨.clk, true⟩ ∧ (ready 1).clk = false) ∧
    ¬((⟨.cs, true⟩ : PinWrite) = ⟨.cs, true⟩ ∧ (ready 1).cs = false) ∧
    ¬((⟨.clk, false⟩ : PinWrite) = ⟨.clk, true⟩ ∧ (ready 1).clk = false) := by decide +kernel

theorem witness_ClockEdgeShiftsTheWholeChain :
    (ready 8).chain[0]? = some Device.zero ∧ (ready 8).chain[6]? = some Device.zero ∧
    (ready 8).chain[6 + 1]? = some Device.zero := by decide +kernel

theorem witness_TransferWritesThePinsInOrder :
    (ready 8).fb.wf ∧ (ready 8).clk = false ∧ (tr 7 1#4 1#8).target < (ready 8).n.val ∧ (tr 0 8#4 0#8).target < (ready 8).n.val := by
  decide +kernel

theorem witness_TransferPinCounts :
    (xfer (tr 0 10#4 8#8) (ready 1)).pinLog = (ready 1).pinLog ++ (xfer (tr 0 10#4 8#8) (ready 1)).pinLog := by decide +kernel

theorem witness_TransferResultOnAChainWiredRight :
    (ready 8).fb.wf ∧ (ready 8).clk = false ∧ (ready 8).WiredRight ∧ (tr 7 15#4 1#8).target < (ready 8).n.val ∧
    DevReg.ofOpcode (tr 7 15#4 1#8).op = some .displayTest ∧ DevReg.ofOpcode (tr 0 14#4 1#8).op = none ∧
    DevReg.ofOpcode (tr 0 1#4 1#8).op = some .digit0 :=
  ⟨by decide +kernel, rfl, ready_wired 8, by decide, rfl, rfl, rfl⟩

/-- One initialised device on a chain of two: device 0 is below `N`, device 1 is not. -/
theorem witness_TransferResultOnAnyChain :
    let s := { ready 2 with n := 1 }
    s.fb.wf ∧ s.clk = false ∧ (tr 0 1#4 1#8).target < s.n.val ∧ s.chain[0]? = some Device.zero ∧ 0 < s.n.val ∧
    s.chain[1]? = some Device.zero ∧ s.n.val ≤ 1 := by decide +kernel

theorem witness_HandBuiltTransfersOutsideThePreconditionAreRefused :
    (ready 1).n.val ≤ 1 ∧ 0 < (ready 1).n.val ∧ (12#4 : Opcode) ≠ 13#4 ∧ (12#4 : Opcode) ≠ 14#4 ∧ (15#4 : Opcode) ≠ 13#4 ∧
    (15#4 : Opcode) ≠ 14#4 := by decide +kernel

theorem witness_ShadowWriteChangesTheMaskedBitsOfOneLane :
    readyD9.srf.wf ∧ (2 : Nat) ≠ lane 0 1 ∧ (0 : Nat) ≠ lane 0 1 := by decide +kernel

theorem witness_DebugPortReadsTheShadow : (ready 1).params.hasShadow = true ∧ (readyMinimal 1).params.hasShadow = false := by
  decide +kernel

theorem witness_InitConfiguresEveryDevice :
    (ready 1).inited = true ∧ fresh.inited = false ∧ fresh.srf.wf ∧ fresh.fb.wf ∧ fresh.PinsIdle :=
  ⟨rfl, rfl, by decide, by decide, rfl, rfl⟩

/-- An address that is dropped and the largest that runs, for SHUTDOWN, SETSCANLIMIT, SETINTENSITY and CLEARDISPLAY. -/
theorem witness_ShutdownSendsTheInverseOfItsFlag :
    (ready 2).n.val ≤ (2#8).toNat ∧ (1#8).toNat < (ready 2).n.val ∧ (ready 2).fb.wf ∧ (ready 2).PinsIdle :=
  ⟨by decide, by decide, by decide +kernel, ready_pins 2⟩

theorem witness_SetScanLimitForwardsEveryValue :
    (ready 2).n.val ≤ (2#8).toNat ∧ (1#8).toNat < (ready 2).n.val ∧ (ready 2).fb.wf ∧ (ready 2).PinsIdle :=
  witness_ShutdownSendsTheInverseOfItsFlag

theorem witness_SetIntensityForwardsEveryValue :
    (ready 2).n.val ≤ (2#8).toNat ∧ (1#8).toNat < (ready 2).n.val ∧ (ready 2).fb.wf ∧ (ready 2).PinsIdle :=
  witness_ShutdownSendsTheInverseOfItsFlag

theorem witness_GetDeviceCountReturnsTheChainLength :
    (readyMinimal 1).params.hasShadow = false ∧ (ready 8).params.hasShadow = true := by decide +kernel

theorem witness_ClearDisplayClearsTheRowsOfOneDevice :
    (ready 2).n.val ≤ (2#8).toNat ∧ (1#8).toNat < (ready 2).n.val ∧ (ready 2).srf.wf ∧ (ready 2).fb.wf ∧ (ready 2).PinsIdle :=
  ⟨by decide, by decide, by decide +kernel, by decide +kernel, ready_pins 2⟩

theorem witness_SetLedChangesOneBitOfOneRow :
    (readyMinimal 1).params.hasShadow = false ∧ (ready 1).n.val ≤ (1#8).toNat ∧ 7 < (8#8).toNat ∧
    (ready 1).params.hasShadow = true ∧ (0#8).toNat < (ready 1).n.val ∧ (0#8).toNat ≤ 7 ∧ (7#8).toNat ≤ 7 ∧
    (ready 1).srf.wf ∧ (ready 1).fb.wf ∧ (ready 1).PinsIdle :=
  ⟨rfl, by decide, by decide, rfl, by decide, by decide, by decide, by decide +kernel, by decide +kernel, ready_pins 1⟩

theorem witness_SetRowOverwritesOneRow :
    (ready 1).n.val ≤ (1#8).toNat ∧ 7 < (8#8).toNat ∧ (0#8).toNat < (ready 1).n.val ∧ (7#8).toNat ≤ 7 ∧
    (ready 1).srf.wf ∧ (ready 1).fb.wf ∧ (ready 1).PinsIdle :=
  ⟨by decide, by decide, by decide, by decide, by decide +kernel, by decide +kernel, ready_pins 1⟩

theorem witness_SetColumnChangesOneBitOfEveryRow :
    (readyMinimal 1).params.hasShadow = false ∧ (ready 1).n.val ≤ (1#8).toNat ∧ 7 < (8#8).toNat ∧
    (ready 1).params.hasShadow = true ∧ (0#8).toNat < (ready 1).n.val ∧ (7#8).toNat ≤ 7 ∧
    (ready 1).srf.wf ∧ (ready 1).fb.wf ∧ (ready 1).PinsIdle :=
  ⟨rfl, by decide, by decide, rfl, by decide, by decide, by decide +kernel, by decide +kernel, ready_pins 1⟩

theorem witness_SetDigitSendsTheTableEntry :
    (ready 1).n.val ≤ (1#8).toNat ∧ 7 < (8#8).toNat ∧ 15 < (16#8).toNat ∧ (15#8).toNat ≤ 15 ∧ (0#8).toNat < (ready 1).n.val ∧
    (7#8).toNat ≤ 7 ∧ (ready 1).srf.wf ∧ (ready 1).fb.wf ∧ (ready 1).PinsIdle :=
  ⟨by decide, by decide, by decide, by decide, by decide, by decide, by decide +kernel, by decide +kernel, ready_pins 1⟩

theorem witness_SetCharSendsTheTableEntry :
    (ready 1).n.val ≤ (1#8).toNat ∧ 7 < (8#8).toNat ∧ (127#8).toNat ≤ 127 ∧ 127 < (128#8).toNat ∧
    (0#8).toNat < (ready 1).n.val ∧ (7#8).toNat ≤ 7 ∧ (ready 1).srf.wf ∧ (ready 1).fb.wf ∧ (ready 1).PinsIdle :=
  ⟨by decide, by decide, by decide, by decide, by decide, by decide, by decide +kernel, by decide +kernel, ready_pins 1⟩

theorem witness_SegmentEncoderReadsOneTable :
    let p : Params := ⟨true, Config.segromT⟩
    p.SegP1 ∧ p.SegP3 ∧ p.SegP4 ∧ 127 < (128#8).toNat := by decide +kernel

theorem witness_SetColumnEqualsEightSetLeds :
    (ready 1).params.hasShadow = true ∧ (0#8).toNat < (ready 1).n.val ∧ (7#8).toNat ≤ 7 := by decide +kernel

theorem witness_SetLedIsIdempotent :
    (ready 1).params.hasShadow = true ∧ (0#8).toNat < (ready 1).n.val ∧ (7#8).toNat ≤ 7 ∧ (ready 1).srf.wf ∧ (ready 1).fb.wf ∧
    (ready 1).PinsIdle ∧ (ready 1).WiredRight ∧
    ∃ t u, exec (.setLed 0#8 7#8 7#8 true) (ready 1) = .next t ∧ exec (.setLed 0#8 7#8 7#8 true) t = .next u := by
  refine ⟨rfl, by decide, by decide, by decide +kernel, by decide +kernel, ready_pins 1, ready_wired 1, ?_⟩
  obtain ⟨t, h, h2⟩ := exists_of_ends (o := exec (.setLed 0#8 7#8 7#8 true) (ready 1))
    (p := fun t => ends (exec (.setLed 0#8 7#8 7#8 true) t) (fun _ => true)) (by decide +kernel)
  obtain ⟨u, h3, -⟩ := exists_of_ends h2
  exact ⟨t, u, h, h3⟩

theorem witness_DisplayCommandsTouchOneDevice :
    displayAddress (.setRow 1#8 7#8 0xFF#8) = some 1#8 ∧ displayAddress (.clearDisplay 1#8) = some 1#8 ∧
    (ready 2).srf.wf ∧ (ready 2).fb.wf ∧ (ready 2).PinsIdle ∧ (ready 2).WiredRight ∧ (0 : Nat) ≠ (1#8).toNat ∧
    ∃ t, exec (.setRow 1#8 7#8 0xFF#8) (ready 2) = .next t ∧ (t.sh 1 7 == 0xFF#8) = true :=
  ⟨rfl, rfl, by decide +kernel, by decide +kernel, ready_pins 2, ready_wired 2, by decide,
    exists_of_ends (p := fun t => t.sh 1 7 == 0xFF#8) (by decide +kernel)⟩

theorem witness_MinimalSetSendsTheSameFrames :
    ∃ t, exec (.setRow 0#8 0#8 0xFF#8) (ready 1) = .next t ∧ (t.sh 0 0 == 0xFF#8) = true :=
  exists_of_ends (p := fun t => t.sh 0 0 == 0xFF#8) (by decide +kernel)

/-- An idle state of an initialised block meets the invariant. -/
theorem ready_inv : (ready 1).Inv where
  srfWf := by decide +kernel
  fbWf := by decide +kernel
  initedIff := by decide +kernel
  unwritten := fun _ _ => rfl
  idle := fun _ => ⟨rfl, rfl, rfl, ready_pins 1⟩
  running := fun h => by cases h

/-- So does a state in the middle of a command. -/
theorem midCommand_inv : midCommand.Inv where
  srfWf := by decide +kernel
  fbWf := by decide +kernel
  initedIff := by decide +kernel
  unwritten := fun _ _ => rfl
  idle := fun h => by cases h
  running := fun _ =>
    ⟨⟨.shutdown 0#8 false, commandShutdown 0#8 false, .xfer 0 12#4 (.byte 0x01#8), by decide +kernel, rfl,
      by decide +kernel, rfl, Nat.zero_le _⟩, ⟨rfl, rfl⟩⟩

theorem witness_NoStepStops : (ready 1).Inv ∧ midCommand.Inv := ⟨ready_inv, midCommand_inv⟩

theorem witness_StepKeepsTheInvariant :
    midCommand.Inv ∧ ∃ t, step midCommand = .next t ∧ t.busy = true :=
  ⟨midCommand_inv, exists_of_ends (p := fun t => t.busy) (by decide +kernel)⟩

theorem witness_SmallStepsComposeToTheBigStep :
    (ready 1).Idle ∧ (ready 1).inputs = [] ∧
    ∃ t, step { ready 1 with inputs := [.command 0x70000781#32] } = .next t ∧ (t.sh 0 7 == 0x81#8) = true :=
  ⟨⟨rfl, rfl, rfl, ready_pins 1⟩, rfl, exists_of_ends (p := fun t => t.sh 0 7 == 0x81#8) (by decide +kernel)⟩

theorem witness_ShadowEqualsLastSentIsKept :
    (ready 1).params.hasShadow = true ∧ (ready 1).srf.wf ∧ (ready 1).ShadowIsLastSent ∧
    ∃ t, exec (.setRow 0#8 7#8 0x81#8) (ready 1) = .next t ∧ (t.sh 0 7 == 0x81#8) = true :=
  ⟨rfl, by decide +kernel, fun _ _ _ _ => rfl, exists_of_ends (p := fun t => t.sh 0 7 == 0x81#8) (by decide +kernel)⟩

theorem ready_matches : (ready 1).ShadowMatchesChain := by
  intro d r q hd _ _
  have : d = 0 := Nat.lt_one_iff.mp hd
  subst this
  cases q <;> rfl

theorem witness_DigitRegistersFollowTheShadow :
    (Instr.setRow 0#8 7#8 0x81#8).isHost = true ∧ (ready 1).params.hasShadow = true ∧ (ready 1).srf.wf ∧ (ready 1).fb.wf ∧
    (ready 1).PinsIdle ∧ (ready 1).ShadowMatchesChain ∧
    (∃ t, exec (.setRow 0#8 7#8 0x81#8) (ready 1) = .next t ∧ (t.chain.length == t.n.val && t.sh 0 7 == 0x81#8) = true) ∧
    fresh.params.hasShadow = true ∧ fresh.srf.wf ∧ fresh.fb.wf ∧ fresh.PinsIdle ∧ fresh.inited = false ∧
    (∃ t, exec (.init 1#8) fresh = .next t ∧ (t.chain.length == t.n.val) = true) :=
  ⟨rfl, rfl, by decide +kernel, by decide +kernel, ready_pins 1, ready_matches,
    exists_of_ends (p := fun t => t.chain.length == t.n.val && t.sh 0 7 == 0x81#8) (by decide +kernel),
    rfl, by decide, by decide, ⟨rfl, rfl⟩, rfl, exists_of_ends (p := fun t => t.chain.length == t.n.val) (by decide +kernel)⟩

theorem witness_ShadowIsWrittenBeforeTheWire :
    commandOf (.setRow 0#8 7#8 0x81#8) = some (commandSetRow 0#8 7#8 0x81#8) ∧ (ready 1).params.hasShadow = true ∧
    (commandSetRow 0#8 7#8 0x81#8).accepts (ready 1) = true ∧
    ((commandSetRow 0#8 7#8 0x81#8).ops ((commandSetRow 0#8 7#8 0x81#8).immediate (ready 1)))[1]? =
      some (.xfer 0 (rowOpcode 7) (.byte 0x81#8)) := ⟨rfl, rfl, rfl, rfl⟩

theorem witness_CommandsSendOnlyAssignedOpcodes :
    commandOf (.init 1#8) = some (commandInit 1#8) ∧ (commandInit 1#8).accepts fresh = true ∧
    .xfer 0 15#4 (.byte 0x00#8) ∈ (commandInit 1#8).ops ((commandInit 1#8).immediate fresh) ∧
    .xfer 0 12#4 (.byte 0x00#8) ∈ (commandInit 1#8).ops ((commandInit 1#8).immediate fresh) ∧
    commandOf (.setIntensity 0#8 255#8) = some (commandSetIntensity 0#8 255#8) ∧
    (commandSetIntensity 0#8 255#8).accepts (ready 1) = true ∧
    .xfer 0 10#4 (.byte 0xFF#8) ∈ (commandSetIntensity 0#8 255#8).ops ((commandSetIntensity 0#8 255#8).immediate (ready 1)) :=
  ⟨rfl, rfl, by decide +kernel, by decide +kernel, rfl, rfl, by decide +kernel⟩

theorem witness_StepCountsOfACommandThatRuns :
    commandOf (.init 1#8) = some (commandInit 1#8) ∧ (commandInit 1#8).accepts fresh = true ∧
    ∃ t, exec (.init 1#8) fresh = .next t ∧ t.inited = true :=
  ⟨rfl, rfl, exists_of_ends (p := fun t => t.inited) (by decide +kernel)⟩

theorem witness_ChainLengthIsWrittenAtMostOnce :
    (∃ t, exec (.init 3#8) (ready 1) = .next t ∧ t.inited = true) ∧ (ready 1).inited = true ∧
    (∃ t, exec (.setRow 0#8 0#8 1#8) fresh = .next t ∧ (!t.inited) = true) ∧ (∀ a, Instr.setRow 0#8 0#8 1#8 ≠ .init a) ∧
    (∃ t, step { ready 1 with inputs := [.command 0x10030000#32] } = .next t ∧ t.inited = true) ∧
    (∀ rest, [Input.command 0x10030000#32] ≠ .reset :: rest) :=
  ⟨exists_of_ends (p := fun t => t.inited) (by decide +kernel), rfl,
    exists_of_ends (p := fun t => !t.inited) (by decide +kernel), (fun _ h => by cases h),
    exists_of_ends (p := fun t => t.inited) (by decide +kernel), (fun _ h => by cases h)⟩

theorem witness_ParametersNeverChange : ∃ t, step { ready 1 with inputs := [.reset] } = .next t ∧ (!t.inited) = true :=
  exists_of_ends (p := fun t => !t.inited) (by decide +kernel)

theorem witness_ResponseIsValidOnlyForGetDeviceCount :
    ∃ t, step { ready 8 with inputs := [.command 0xB0000000#32] } = .next t ∧ t.rspValid = true :=
  exists_of_ends (p := fun t => t.rspValid) (by decide +kernel)

theorem witness_SomeDeviceRegistersHaveOneWriter :
    (Instr.setScanLimit 0#8 7#8).isHost = true ∧ (ready 1).fb.wf ∧ (ready 1).PinsIdle ∧
    (∃ t, exec (.setScanLimit 0#8 7#8) (ready 1) = .next t ∧ (t.chain.length == t.n.val) = true) ∧
    (∀ a v, Instr.setScanLimit 0#8 7#8 ≠ .setIntensity a v) ∧ (∀ a, Instr.setScanLimit 0#8 7#8 ≠ .init a) :=
  ⟨rfl, by decide +kernel, ready_pins 1, exists_of_ends (p := fun t => t.chain.length == t.n.val) (by decide +kernel),
    (fun _ _ h => by cases h), (fun _ h => by cases h)⟩

/-- Reset between frames and inside one. -/
theorem witness_ResetTakesTheResetState :
    { ready 1 with inputs := [.reset] }.inputs = .reset :: [] ∧ (ready 1).cs = true ∧
    { ready 1 with cs := false, inputs := [.reset] }.cs = false := ⟨rfl, rfl, rfl⟩

theorem witness_ResetInsideAFrameLatchesAPartialFrame :
    (ready 1).clk = false ∧ (tr 0 2#4 0x0F#8).target < (ready 1).n.val ∧ 0 ≤ 16 * (ready 1).n.val ∧ 16 ≤ 16 * (ready 1).n.val := by
  decide +kernel

theorem witness_DevicePowerTouchesOneDevice :
    { State.reset with inputs := [.devicePower 7 Device.zero] }.inputs = .devicePower 7 Device.zero :: [] ∧
    7 < State.reset.chain.length ∧ (6 : Nat) ≠ 7 := by decide +kernel

/-- SETROW 0, 7, 0x81 in progress at its shadow write, and at the first and at the last pin write of its transfer. -/
def midRow : State := { ready 1 with busy := true, cw := 0x70000781#32 }
def midRowFirstPin : State := { midRow with uop := 1#8 }
def midRowLastPin : State := { midRow with uop := 1#8, pos := 49#9, cs := false }

theorem midRow_running {s : State} (h : s.cw = 0x70000781#32) (hp : s.params = (ready 1).params) (hn : s.n = 1)
    (op : MicroOp) (hop : ((commandSetRow 0#8 7#8 0x81#8).ops s)[s.uop.toNat]? = some op) (hfit : s.PosFits op)
    (hpins : s.PinsAtPos) : s.Running := by
  refine ⟨⟨.setRow 0#8 7#8 0x81#8, commandSetRow 0#8 7#8 0x81#8, op, by rw [h]; decide +kernel, rfl, ?_, hop, hfit⟩, hpins⟩
  rw [show (commandSetRow 0#8 7#8 0x81#8).ops s = rowOps s.params.hasShadow 0 7 0x81#8 from rfl, hp, hn]
  decide +kernel

theorem midRow_inv : midRow.Inv where
  srfWf := by decide +kernel
  fbWf := by decide +kernel
  initedIff := by decide +kernel
  unwritten := fun _ _ => rfl
  idle := fun h => by cases h
  running := fun _ => midRow_running rfl rfl rfl (.shWrite 0 7 0x81#8 0xFF#8) rfl rfl ⟨rfl, rfl⟩

theorem midRowFirstPin_inv : midRowFirstPin.Inv where
  srfWf := by decide +kernel
  fbWf := by decide +kernel
  initedIff := by decide +kernel
  unwritten := fun _ _ => rfl
  idle := fun h => by cases h
  running := fun _ => midRow_running rfl rfl rfl (.xfer 0 8#4 (.byte 0x81#8)) rfl (Nat.zero_le _) ⟨rfl, rfl⟩

theorem midRowLastPin_inv : midRowLastPin.Inv where
  srfWf := by decide +kernel
  fbWf := by decide +kernel
  initedIff := by decide +kernel
  unwritten := fun _ _ => rfl
  idle := fun h => by cases h
  running := fun _ => midRow_running rfl rfl rfl (.xfer 0 8#4 (.byte 0x81#8)) rfl (Nat.le_of_eq rfl) ⟨rfl, rfl⟩

/-- A shadow write, the first pin write and the last, in each way the block takes no word. -/
theorem witness_BusyStepIsOnePinWriteOrOneShadowWrite :
    midRow.Inv ∧ midRowFirstPin.Inv ∧ midRowLastPin.Inv ∧ midRow.busy = true ∧ midRowFirstPin.busy = true ∧
    midRowLastPin.busy = true ∧ midRow.TakesNoWord [] ∧ { midRow with inputs := [.tick] }.TakesNoWord [] ∧
    { midRow with inputs := [.command 0xB0000000#32] }.TakesNoWord [.command 0xB0000000#32] ∧
    { midRow with inputs := [.accept 0xB0000000#32] }.TakesNoWord [.accept 0xB0000000#32] ∧
    midRowFirstPin.pos = 0#9 ∧ midRowFirstPin.pos.toNat < 48 * midRowFirstPin.n.val + 1 ∧
    midRowLastPin.pos.toNat = 48 * midRowLastPin.n.val + 1 :=
  ⟨midRow_inv, midRowFirstPin_inv, midRowLastPin_inv, rfl, rfl, rfl, .inl ⟨rfl, rfl⟩, .inr (.inl rfl),
    .inr (.inr ⟨⟨_, _, .inl rfl⟩, rfl⟩), .inr (.inr ⟨⟨_, _, .inr rfl⟩, rfl⟩), rfl, by decide +kernel, by decide +kernel⟩

/-- An illegal word; INIT, dropped and running; GETDEVICECOUNT; SETROW, dropped (row 8) and running (row 7). -/
theorem witness_AcceptanceIsOneStep :
    (ready 1).busy = false ∧ { ready 1 with inputs := [.accept 0x70000781#32] }.inputs = .accept 0x70000781#32 :: [] ∧
    decodeCommand 0xC0000000#32 = .illegal (.reservedCode 12#4) ∧
    decodeCommand 0x10030000#32 = .ok (.init 3#8) ∧ ¬ ChecksPass (ready 1) (.init 3#8) ∧ ChecksPass fresh (.init 3#8) ∧
    decodeCommand 0xB0000000#32 = .ok .getDeviceCount ∧ ChecksPass (ready 1) .getDeviceCount ∧
    decodeCommand 0x70000800#32 = .ok (.setRow 0#8 8#8 0#8) ∧ ¬ ChecksPass (ready 1) (.setRow 0#8 8#8 0#8) ∧
    decodeCommand 0x70000781#32 = .ok (.setRow 0#8 7#8 0x81#8) ∧ ChecksPass (ready 1) (.setRow 0#8 7#8 0x81#8) :=
  ⟨rfl, rfl, by decide, by decide, (fun h => by cases h), rfl, by decide, rfl, by decide, (fun h => absurd h.2 (by decide)),
    by decide, ⟨by decide, by decide⟩⟩

/-- 10_state.md R30: the shadow write ends its entry, UOP advances; with the last pin write of the last entry the list ends. -/
theorem test_small_steps :
    ends (step midRow) (fun t => t.uop == 1#8 && t.pos == 0#9 && t.busy && t.sh 0 7 == 0x81#8 && t.pinLog == []) = true ∧
    ends (step midRowLastPin) (fun t => !t.busy && t.uop == 0#8 && t.pos == 0#9 && t.cs && t.pinLog == [⟨.cs, true⟩] &&
      t.xferLog == [⟨0, 8#4, 0x81#8⟩]) = true := by decide +kernel

/-- 30_encoding.md R90, K19, X8: GETDEVICECOUNT and a drop complete in the step of their acceptance. -/
theorem test_accept_completes :
    ends (step { ready 1 with inputs := [.accept 0xB0000000#32] }) (fun t => !t.busy && t.rspValid && t.rsp == 1#8) = true ∧
    ends (step { ready 1 with inputs := [.accept 0x70000800#32] }) (fun t => !t.busy && t.pinLog == [] && t.srf == []) = true := by
  decide +kernel

end Sys2Proof.Tests
end

section
/-! The refinement of a command run as one step by its small steps (00_scope.md R17, 92_eei_decisions.md D34). The sequencer's
registers are the only fields in which a state in the middle of a command and the state of the big step differ; `endCommand` resets
them and commutes with everything a micro-operation does, so it maps the small steps to the big one. -/

namespace Sys2Proof.Machine

/-! ### Reaching a state by steps -/

/-- Some number of steps leads from the one state to the other. -/
def State.Reaches : State → State → Prop := Relation.ReflTransGen (fun s t => step s = .next t)

theorem State.Reaches.head {s t u : State} (hstep : step s = .next t) (h : t.Reaches u) : s.Reaches u :=
  Relation.ReflTransGen.head hstep h

theorem State.Reaches.exists_run {s t : State} (h : s.Reaches t) : ∃ k, Host.Core.run core k s = .next t := by
  induction h using Relation.ReflTransGen.head_induction_on with
  | refl => exact ⟨0, rfl⟩
  | head hstep _ ih =>
    obtain ⟨k, hk⟩ := ih
    exact ⟨k + 1, (run_next core hstep).trans hk⟩

/-! ### The sequencer's registers are not looked at by what a micro-operation does -/

theorem endCommand_of_idle {s : State} (hb : s.busy = false) (hu : s.uop = 0#8) (hp : s.pos = 0#9) : endCommand s = s := by
  cases s
  simp_all [endCommand]

theorem endCommand_nextOp (len : Nat) (s : State) : endCommand (nextOp len s) = endCommand s := by
  unfold nextOp
  split <;> rfl

theorem endCommand_pin (w : PinWrite) (s : State) : endCommand (pin w s) = pin w (endCommand s) := by
  obtain ⟨p, v⟩ := w
  cases p <;> simp only [pin, drivePin, apply_ite endCommand] <;> rfl

theorem endCommand_runPins (ws : List PinWrite) (s : State) : endCommand (runPins ws s) = runPins ws (endCommand s) := by
  induction ws generalizing s with
  | nil => rfl
  | cons w ws ih => rw [runPins_cons, runPins_cons, ih, endCommand_pin]

theorem endCommand_xfer (x : Transfer) (s : State) : endCommand (xfer x s) = xfer x (endCommand s) :=
  congrArg (logTransfer x) (endCommand_runPins _ (buildFB x.target x.op x.data s))

theorem endCommand_MicroOp_run (op : MicroOp) (s : State) : endCommand (op.run s) = op.run (endCommand s) := by
  cases op with
  | shWrite d r wdata wmask => rfl
  | xfer u o data => cases data <;> exact endCommand_xfer _ s

/-! ### A command in progress, with nothing more from the host -/

/-- The block is in the middle of the command `c`, every entry of which may run, and the host brings nothing more. -/
structure State.RunsAlone (s : State) (c : Command) : Prop where
  busy : s.busy = true
  inputs : s.inputs = []
  rspValid : s.rspValid = false
  command : ∃ i, decodeCommand s.cw = .ok i ∧ commandOf i = some c
  legal : ∀ o ∈ c.ops s, o.illegal s.n = none

section RunsAlone

variable {s t : State} {c : Command} (h : s.RunsAlone c)

include h

theorem State.RunsAlone.step_eq_smallStep : step s = smallStep s := by
  have hs : { s with rspValid := false, inputs := [] } = s := by
    obtain ⟨-, hi, hr, -, -⟩ := h
    cases s
    simp_all
  rw [step_takesNoWord h.busy (.inl ⟨h.inputs, rfl⟩), hs]

/-- The next step is a small step of the entry at UOP. -/
theorem State.RunsAlone.step_entry {op : MicroOp} (hop : (c.ops s)[s.uop.toNat]? = some op) :
    step s = op.smallStep (c.ops s).length s := by
  obtain ⟨i, hi, hc⟩ := h.command
  rw [h.step_eq_smallStep, smallStep, hi]
  simp only [hc, opsStep, hop, h.legal op (List.mem_of_getElem? hop)]

/-- In a transfer the next step is a pin write of it, the buffer built. -/
theorem State.RunsAlone.step_xfer {u : Nat} {o : Opcode} {data : XferData} {b : Byte}
    (hop : (c.ops s)[s.uop.toNat]? = some (.xfer u o data)) (hb : data.value s = b) :
    step s = pinStep (c.ops s).length ⟨u, o, b⟩ (loadFB ⟨u, o, b⟩ s) :=
  hb ▸ h.step_entry hop

/-- In a transfer a step before the last is the pin write at POS. -/
theorem State.RunsAlone.step_pin {u : Nat} {o : Opcode} {data : XferData} {b : Byte} {w : PinWrite}
    (hop : (c.ops s)[s.uop.toNat]? = some (.xfer u o data)) (hb : data.value s = b)
    (hlt : s.pos.toNat < 48 * s.n.val + 1) (hw : (framePins (loadFB ⟨u, o, b⟩ s).fb s.n)[s.pos.toNat]? = some w) :
    step s = .next { pin w (loadFB ⟨u, o, b⟩ s) with pos := s.pos + 1#9 } := by
  rw [h.step_xfer hop hb, pinStep_before (by simpa using hw) (by simpa using hlt), loadFB_pos]

theorem State.RunsAlone.ops_eq (hf : SmallFrame s t) : c.ops t = c.ops s := by
  obtain ⟨i, -, hc⟩ := h.command
  exact commandOf_ops hc hf.n hf.params

theorem State.RunsAlone.of_frame (hf : SmallFrame s t) (hb : t.busy = true) : t.RunsAlone c where
  busy := hb
  inputs := hf.inputs.trans h.inputs
  rspValid := hf.rspValid.trans h.rspValid
  command := hf.cw ▸ h.command
  legal := by rw [h.ops_eq hf, hf.n]; exact h.legal

theorem State.RunsAlone.frame_of_step (hs : step s = .next t) : SmallFrame s t :=
  smallStep_frame (h.step_eq_smallStep ▸ hs)

end RunsAlone

/-! ### A transfer, pin write by pin write -/

theorem XferData.value_congr {s t : State} (h : t.srf = s.srf) (data : XferData) : data.value t = data.value s := by
  cases data <;> simp [XferData.value, State.sh, h]

theorem nextOp_withPos (len : Nat) (s : State) (p : BitVec 9) : nextOp len { s with pos := p } = nextOp len s := by
  unfold nextOp
  split <;> rfl

/-- The pin writes from POS on, and the entry in the transfer log: what is left of the transfer `x`. -/
def finishTransfer (x : Transfer) (s : State) : State :=
  logTransfer x (runPins ((framePins (loadFB x s).fb s.n).drop s.pos.toNat) (loadFB x s))

theorem finishTransfer_of_pos_zero {s : State} (h : s.pos = 0#9) (x : Transfer) : finishTransfer x s = xfer x s := by
  simp [finishTransfer, loadFB, xfer, h]

theorem finishTransfer_last {s : State} (h : s.pos.toNat = 48 * s.n.val + 1) (x : Transfer) :
    finishTransfer x s = logTransfer x (pin ⟨.cs, true⟩ (loadFB x s)) := by
  have hdrop : (framePins (loadFB x s).fb s.n).drop (48 * s.n.val + 1) = [⟨.cs, true⟩] := by
    obtain ⟨hlt, hw⟩ := List.getElem?_eq_some_iff.mp (framePins_last (loadFB x s).fb s.n)
    rw [List.drop_eq_getElem_cons hlt, hw, List.drop_of_length_le (by simp)]
  rw [finishTransfer, h, hdrop]
  rfl

theorem toNat_pos_succ {s : State} (h : s.pos.toNat < 48 * s.n.val + 1) : (s.pos + 1#9).toNat = s.pos.toNat + 1 := by
  have := s.n.isLt
  bv_omega

/-- A pin write before the last leaves of the transfer what was left of it. -/
theorem finishTransfer_pin {s : State} (h : s.pos.toNat < 48 * s.n.val + 1) {x : Transfer} {w : PinWrite}
    (hw : (framePins (loadFB x s).fb s.n)[s.pos.toNat]? = some w) :
    finishTransfer x { pin w (loadFB x s) with pos := s.pos + 1#9 } = { finishTransfer x s with pos := s.pos + 1#9 } := by
  have hne : s.pos + 1#9 ≠ 0#9 := fun h0 => by simpa [h0] using toNat_pos_succ h
  have hload : loadFB x { pin w (loadFB x s) with pos := s.pos + 1#9 } = { pin w (loadFB x s) with pos := s.pos + 1#9 } :=
    if_neg hne
  obtain ⟨hlt, hget⟩ := List.getElem?_eq_some_iff.mp hw
  rw [finishTransfer, hload]
  change logTransfer x (runPins ((framePins (pin w (loadFB x s)).fb (pin w (loadFB x s)).n).drop (s.pos + 1#9).toNat) _) = _
  rw [pin_fb, pin_n, loadFB_n, toNat_pos_succ h, runPins_withPos, finishTransfer, List.drop_eq_getElem_cons hlt, hget,
    runPins_cons]
  rfl

/-- A transfer in progress reaches its end, pin write by pin write (10_state.md R30, 41_bus_serializer.md R128); `m` are left
before the last. -/
theorem State.RunsAlone.reaches_finishTransfer {c : Command} {u : Nat} {o : Opcode} {data : XferData} {b : Byte} (m : Nat)
    {s : State} (h : s.RunsAlone c) (hop : (c.ops s)[s.uop.toNat]? = some (.xfer u o data)) (hb : data.value s = b)
    (hm : s.pos.toNat + m = 48 * s.n.val + 1) :
    s.Reaches (nextOp (c.ops s).length (finishTransfer ⟨u, o, b⟩ s)) := by
  induction m generalizing s with
  | zero =>
    rw [finishTransfer_last hm]
    exact .single ((h.step_xfer hop hb).trans (pinStep_last (by simpa using hm)))
  | succ m ih =>
    have hlt : s.pos.toNat < 48 * s.n.val + 1 := by omega
    obtain ⟨w, hw⟩ : ∃ w, (framePins (loadFB ⟨u, o, b⟩ s).fb s.n)[s.pos.toNat]? = some w :=
      ⟨_, List.getElem?_eq_getElem (by simp; omega)⟩
    have hstep := h.step_pin hop hb hlt hw
    have hframe := h.frame_of_step hstep
    have hops := h.ops_eq hframe
    have hrest := ih (h.of_frame hframe (by simpa using h.busy)) (by rw [hops]; simpa using hop)
      ((XferData.value_congr (by simp) data).trans hb) (by simp only [toNat_pos_succ hlt, pin_n, loadFB_n]; omega)
    rw [hops, finishTransfer_pin hlt hw, nextOp_withPos] at hrest
    exact hrest.head hstep

/-! ### A whole entry, and the rest of the list -/

/-- An entry about to run reaches its end, as its one big step leaves it. -/
theorem State.RunsAlone.reaches_run {c : Command} {op : MicroOp} {s : State} (h : s.RunsAlone c)
    (hop : (c.ops s)[s.uop.toNat]? = some op) (hp : s.pos = 0#9) :
    s.Reaches (nextOp (c.ops s).length (op.run s)) := by
  cases op with
  | shWrite d r wdata wmask => exact .single (h.step_entry hop)
  | xfer u o data =>
    have := h.reaches_finishTransfer (48 * s.n.val + 1) hop rfl (by simp [hp])
    rwa [finishTransfer_of_pos_zero hp] at this

theorem MicroOp_run_wired (op : MicroOp) (s : State) : (op.run s).chain.length = s.chain.length := by
  cases op <;> simp [MicroOp.run]

theorem smallFrame_nextOp_run (len : Nat) (op : MicroOp) (s : State) : SmallFrame s (nextOp len (op.run s)) := by
  constructor <;> simp [MicroOp_run_wired]

/-- At the start of the entry whose list from there on is `rest`, the block reaches the end of the command, as the big steps of
`rest` leave it. -/
theorem State.RunsAlone.reaches_runAll {c : Command} {done rest : List MicroOp} {s : State} (h : s.RunsAlone c)
    (hops : c.ops s = done ++ rest) (hne : rest ≠ []) (hu : s.uop.toNat = done.length) (hp : s.pos = 0#9) :
    s.Reaches (runAll rest (endCommand s)) := by
  induction rest generalizing done s with
  | nil => exact absurd rfl hne
  | cons op rest ih =>
    set t := nextOp (c.ops s).length (op.run s) with ht
    have hst : s.Reaches t := h.reaches_run (by simp [hops, hu]) hp
    have hend : endCommand t = op.run (endCommand s) := by rw [ht, endCommand_nextOp, endCommand_MicroOp_run]
    have hlen : (c.ops s).length ≤ 160 := by
      obtain ⟨i, -, hc⟩ := h.command
      exact commandOf_length hc s
    have hends : EntryEnds (c.ops s).length (op.run s) t := nextOp_ends hlen (by simpa using h.busy)
    unfold EntryEnds at hends
    rw [runAll_cons, ← hend]
    by_cases hr : rest = []
    · subst hr
      rw [if_neg (by simp [hops, hu])] at hends
      obtain ⟨hb, hu', hp'⟩ := hends
      rw [runAll_nil, endCommand_of_idle hb hu' hp']
      exact hst
    · have hmore : 0 < rest.length := List.length_pos_iff.mpr hr
      rw [if_pos (by simp [hops, hu]; omega)] at hends
      obtain ⟨hb, hu', hp'⟩ := hends
      have hframe : SmallFrame s t := smallFrame_nextOp_run _ op s
      refine hst.trans (ih (done := done ++ [op]) (h.of_frame hframe hb) ?_ hr (by simp [hu', hu]) hp')
      rw [h.ops_eq hframe, hops, List.append_assoc, List.singleton_append]

/-! ### From the acceptance to the end -/

/-- What a command writes in the step of its acceptance is no register of the sequencer, not CW and not the host's inputs. -/
theorem immediate_sequencer {i : Instr} {c : Command} (hc : commandOf i = some c) (s : State) :
    (c.immediate s).busy = s.busy ∧ (c.immediate s).uop = s.uop ∧ (c.immediate s).pos = s.pos ∧
    (c.immediate s).cw = s.cw ∧ (c.immediate s).inputs = s.inputs := by
  obtain him | ⟨a, -, him⟩ | ⟨-, him⟩ := commandOf_immediate hc s <;> simp [him]

/-- Only GETDEVICECOUNT, which has no micro-operations, raises `rsp_valid` (43_controller_config.md R182). -/
theorem immediate_rspValid {i : Instr} {c : Command} (hc : commandOf i = some c) {s : State}
    (hne : c.ops (c.immediate s) ≠ []) : (c.immediate s).rspValid = s.rspValid := by
  obtain him | ⟨a, -, him⟩ | ⟨rfl, -⟩ := commandOf_immediate hc s
  · rw [him]
  · rw [him]
  · obtain rfl := Option.some.inj hc
    exact absurd rfl hne

/-- An accepted command with micro-operations, at its first entry. -/
theorem runsAlone_of_accepts {i : Instr} {c : Command} {s : State} (hi : decodeCommand s.cw = .ok i)
    (hc : commandOf i = some c) (ha : c.accepts s = true) (hin : s.inputs = []) (hr : s.rspValid = false)
    (hne : c.ops (c.immediate s) ≠ []) :
    State.RunsAlone { c.immediate s with busy := true, uop := 0#8, pos := 0#9 } c := by
  obtain ⟨-, -, -, hcw, hinputs⟩ := immediate_sequencer hc s
  have hops : c.ops { c.immediate s with busy := true, uop := 0#8, pos := 0#9 } = c.ops (c.immediate s) :=
    commandOf_ops hc rfl rfl
  exact
    { busy := rfl
      inputs := hinputs.trans hin
      rspValid := (immediate_rspValid hc hne).trans hr
      command := ⟨i, hcw ▸ hi, hc⟩
      legal := fun o ho => commandOf_legal hc ha o (hops ▸ ho) }

/-- The acceptance of a command reaches what the command does as one big step. -/
theorem begin_reaches {i : Instr} {c : Command} {s t : State} (hi : decodeCommand s.cw = .ok i) (hc : commandOf i = some c)
    (hidle : s.Idle) (hin : s.inputs = []) (hr : s.rspValid = false) (h : exec i s = .next t) :
    (c.begin s).Reaches t := by
  cases ha : c.accepts s with
  | false =>
    obtain rfl := Host.Outcome.next.inj ((exec_dropped hc ha).symm.trans h)
    simpa [Command.begin, ha] using .refl
  | true =>
    obtain rfl := Host.Outcome.next.inj ((exec_accepted hc ha).symm.trans h)
    rw [Command.begin, if_pos ha]
    split
    next hnil =>
      rw [hnil]
      exact .refl
    next hcons =>
      obtain ⟨hb, hu, hp, -, -⟩ := immediate_sequencer hc s
      have hend : endCommand (c.immediate s) = c.immediate s :=
        endCommand_of_idle (hb.trans hidle.notBusy) (hu.trans hidle.uopZero) (hp.trans hidle.posZero)
      have hruns := runsAlone_of_accepts hi hc ha hin hr (by simp [hcons])
      have hreach := hruns.reaches_runAll (done := []) (rest := c.ops (c.immediate s)) (commandOf_ops hc rfl rfl)
        (by simp [hcons]) rfl rfl
      exact hend ▸ hreach

/-- The acceptance of a word reaches what the word does as one big step. -/
theorem acceptWord_reaches {w : CmdWord} {s t : State} (hidle : s.Idle) (hin : s.inputs = []) (hr : s.rspValid = false)
    (h : runWord w s = .next t) : (acceptWord w s).Reaches t := by
  unfold runWord at h
  unfold acceptWord
  cases hd : decodeCommand w with
  | illegal e =>
    simp only [hd, drop, Host.Outcome.next.injEq] at h
    subst h
    exact .refl
  | ok i =>
    obtain ⟨c, hc⟩ := decodeCommand_host hd
    simp only [hd, hc] at h ⊢
    exact begin_reaches hd hc ⟨hidle.notBusy, hidle.uopZero, hidle.posZero, hidle.pins⟩ hin hr h

theorem step_accept {s : State} (hb : s.busy = false) (w : CmdWord) :
    step { s with inputs := [.accept w] } = .next (acceptWord w { s with rspValid := false, inputs := [] }) := by
  simp [step, stepBody, hb]

theorem step_command {s : State} (hb : s.busy = false) (w : CmdWord) :
    step { s with inputs := [.command w] } = runWord w { s with rspValid := false, inputs := [] } := by
  simp [step, stepBody, hb]

/-- Settles O42: the acceptance is one step, after which every entry of the command's list reaches, small step by small step, what
it does as one big step. -/
theorem smallStepsComposeToTheBigStep : Obligations.SmallStepsComposeToTheBigStep := by
  unfold Obligations.SmallStepsComposeToTheBigStep
  intro s t w hidle _ h
  rw [step_command hidle.notBusy] at h
  have hreach := acceptWord_reaches (s := { s with rspValid := false, inputs := [] })
    ⟨hidle.notBusy, hidle.uopZero, hidle.posZero, hidle.pins⟩ rfl rfl h
  exact (hreach.head (step_accept hidle.notBusy w)).exists_run

end Sys2Proof.Machine
end

section
/-! What one step does, said once: the rules of the operations it is made of, and the shadow write or the pin write that a small
step of a command in progress is (10_state.md R30, 00_scope.md R17). -/

namespace Sys2Proof.Machine

/-! ### Rules of the shared operations -/

@[simp] theorem drivePin_cs (p : Pin) (v : Bool) (s : State) : (drivePin p v s).cs = if p = .cs then v else s.cs := by
  cases p with
  | cs => simp only [drivePin, if_true]; split <;> rfl
  | clk => simp only [drivePin, reduceCtorEq, if_false]; split <;> rfl
  | din => rfl

@[simp] theorem drivePin_clk (p : Pin) (v : Bool) (s : State) : (drivePin p v s).clk = if p = .clk then v else s.clk := by
  cases p with
  | cs => simp only [drivePin, reduceCtorEq, if_false]; split <;> rfl
  | clk => simp only [drivePin, if_true]; split <;> rfl
  | din => rfl

@[simp] theorem drivePin_wired (p : Pin) (v : Bool) (s : State) : (drivePin p v s).chain.length = s.chain.length := by
  cases p <;> simp only [drivePin]
  case cs => split <;> simp [chainLatch]
  case clk => split <;> simp [chainShift]

/-- What the chain does at a pin write depends on the pins and on the chain alone. -/
theorem pin_chain_congr (w : PinWrite) {s t : State} (hcs : t.cs = s.cs) (hclk : t.clk = s.clk) (hdin : t.din = s.din)
    (hchain : t.chain = s.chain) : (pin w t).chain = (pin w s).chain := by
  obtain ⟨p, v⟩ := w
  cases p <;> simp only [pin, drivePin, hcs, hclk]
  case cs => split <;> simp [chainLatch, hchain]
  case clk => split <;> simp [chainShift, hchain, hdin]
  case din => exact hchain

theorem loadFB_fb (x : Transfer) (s : State) :
    (loadFB x s).fb = if s.pos = 0#9 then (buildFB x.target x.op x.data s).fb else s.fb := by
  unfold loadFB
  split <;> rfl

theorem loadFB_holds {x : Transfer} {s : State} (hfb : s.fb.wf) (h : s.pos = 0#9 ∨ s.BufferHolds x) :
    (loadFB x s).BufferHolds x := by
  unfold loadFB
  split
  · exact buildFB_holds hfb x
  · exact h.resolve_left ‹_›

/-- The clamp of INIT never gives 0 (30_encoding.md R97). -/
theorem one_le_clampLength (a : Byte) : 1 ≤ (clampLength a).val := by
  unfold clampLength
  split
  · decide
  · split
    · exact Nat.one_le_iff_ne_zero.mpr ‹_›
    · decide

/-- The end of an entry touches the sequencer's registers only. -/
theorem nextOp_eq (len : Nat) (s : State) : ∃ b k p, nextOp len s = { s with busy := b, uop := k, pos := p } := by
  unfold nextOp
  split
  · exact ⟨s.busy, _, _, rfl⟩
  · exact ⟨_, _, _, rfl⟩

theorem runAll_frame (ops : List MicroOp) (s : State) : SmallFrame s (runAll ops s) where
  params := runAll_params ops s
  n := runAll_n ops s
  inited := runAll_inited ops s
  cw := runAll_cw ops s
  rsp := runAll_rsp ops s
  rspValid := runAll_rspValid ops s
  inputs := runAll_inputs ops s
  wired := runAll_keeps (P := fun t => t.chain.length = s.chain.length) ops
    (fun o _ t ht => (MicroOp_run_wired o t).trans ht) rfl

/-- A word run as one step: CW takes it, and then nothing, or the whole list of a command that passes its checks. -/
theorem runWord_cases {w : CmdWord} {s t : State} (h : runWord w s = .next t) :
    t = { s with cw := w } ∨
    ∃ i c, decodeCommand w = .ok i ∧ commandOf i = some c ∧ c.accepts { s with cw := w } = true ∧
      t = runAll (c.ops (c.immediate { s with cw := w })) (c.immediate { s with cw := w }) := by
  unfold runWord at h
  split at h
  next i hi =>
    obtain ⟨c, hc⟩ := decodeCommand_host hi
    cases ha : c.accepts { s with cw := w } with
    | false => exact .inl (Host.Outcome.next.inj ((exec_dropped hc ha).symm.trans h)).symm
    | true => exact .inr ⟨i, c, hi, hc, ha, (Host.Outcome.next.inj ((exec_accepted hc ha).symm.trans h)).symm⟩
  next => exact .inl (Host.Outcome.next.inj h).symm

/-! ### One pin write of a transfer -/

/-- The pin write at POS, whatever becomes of the sequencer's registers and of the transfer log: those two the caller says. -/
theorem pinWriteStep_of_eq {len : Nat} {x : Transfer} {w : PinWrite} {s t : State} {b : Bool} {k : BitVec 8} {p : BitVec 9}
    {log : List Transfer} (hfb : s.fb.wf) (hw : (framePins (loadFB x s).fb s.n.val)[s.pos.toNat]? = some w)
    (ht : t = { pin w (loadFB x s) with busy := b, uop := k, pos := p, xferTrace := log })
    (goesOn : s.pos.toNat < 48 * s.n.val + 1 →
      t.pos.toNat = s.pos.toNat + 1 ∧ t.uop = s.uop ∧ t.busy = true ∧ t.xferLog = s.xferLog)
    (ends : s.pos.toNat = 48 * s.n.val + 1 → t.xferLog = s.xferLog ++ [x] ∧ EntryEnds len s t) :
    PinWriteStep len x w s t := by
  have hbuf : t.fb = (loadFB x s).fb := by simp [ht]
  have hn : t.n = s.n := by simp [ht]
  refine { buffer := hbuf.trans (loadFB_fb x s), entry := hbuf ▸ hw, frame := fun h => ?_, pins := ?_, pinLog := ?_,
           chain := ?_, shadow := ?_, goesOn := goesOn, ends := ends }
  · have hload := loadFB_holds hfb h
    have hholds : t.BufferHolds x := by
      unfold State.BufferHolds
      rw [hbuf, hn, ← loadFB_n x s]
      exact hload
    refine ⟨hholds, ?_⟩
    have hpins := framePins_holds hload
    rw [loadFB_n] at hpins
    exact hpins ▸ hw
  · simp [ht]
  · simp [ht, State.pinLog]
  · rw [ht]
    exact pin_chain_congr w (loadFB_cs x s) (loadFB_clk x s) (loadFB_din x s) (loadFB_chain x s)
  · simp [ht]

/-- One small step of a transfer is the pin write at POS. -/
theorem xferStep_writesPin {len : Nat} {x : Transfer} {s : State} (hfb : s.fb.wf) (hpos : s.pos.toNat ≤ 48 * s.n.val + 1)
    (hlen : len ≤ 160) (hb : s.busy = true) : ∃ w t, xferStep len x s = .next t ∧ PinWriteStep len x w s t := by
  rcases Nat.lt_or_eq_of_le hpos with hlt | hlast
  · obtain ⟨w, hw⟩ : ∃ w, (framePins (loadFB x s).fb s.n.val)[s.pos.toNat]? = some w :=
      ⟨_, List.getElem?_eq_getElem (by simp; omega)⟩
    refine ⟨w, _, pinStep_before (by simpa using hw) (by simpa using hlt), pinWriteStep_of_eq hfb hw rfl ?_ (by omega)⟩
    intro _
    exact ⟨by simpa using toNat_pos_succ hlt, by simp, by simpa using hb, by simp [State.xferLog]⟩
  · have hw : (framePins (loadFB x s).fb s.n.val)[s.pos.toNat]? = some ⟨.cs, true⟩ := hlast ▸ framePins_last _ _
    obtain ⟨b, k, p, hnext⟩ := nextOp_eq len (logTransfer x (pin ⟨.cs, true⟩ (loadFB x s)))
    have hends := nextOp_ends (s := logTransfer x (pin ⟨.cs, true⟩ (loadFB x s))) hlen (by simpa using hb)
    refine ⟨_, _, pinStep_last (by simpa using hlast), pinWriteStep_of_eq hfb hw hnext (by omega) ?_⟩
    intro _
    exact ⟨by simp [State.xferLog, logTransfer], by simpa [EntryEnds] using hends⟩

/-! ### The entry a running command stands at -/

/-- CW holds the command `c`, every entry of its list may run, and UOP names the entry `op`. -/
structure State.AtEntry (s : State) (c : Command) (op : MicroOp) : Prop where
  command : ∃ i, decodeCommand s.cw = .ok i ∧ commandOf i = some c
  legal : ∀ o ∈ c.ops s, o.illegal s.n = none
  entry : (c.ops s)[s.uop.toNat]? = some op

theorem State.running_iff {s : State} : s.Running ↔ ∃ c op, s.AtEntry c op ∧ s.PosFits op ∧ s.PinsAtPos := by
  constructor
  · rintro ⟨⟨i, c, op, hi, hc, hlegal, hentry, hpos⟩, hpins⟩
    exact ⟨c, op, ⟨⟨i, hi, hc⟩, hlegal, hentry⟩, hpos, hpins⟩
  · rintro ⟨c, op, ⟨⟨i, hi, hc⟩, hlegal, hentry⟩, hpos, hpins⟩
    exact ⟨⟨i, c, op, hi, hc, hlegal, hentry, hpos⟩, hpins⟩

/-- From `s` to `t` the entry `op` of a list of length `len` makes one small step: its shadow write, or one pin write. -/
def MicroOp.StepsTo (len : Nat) (s t : State) : MicroOp → Prop
  | .shWrite d r wdata wmask => ShadowStep len d r wdata wmask s t
  | .xfer u o x => ∃ w, PinWriteStep len ⟨u, o, x.value s⟩ w s t

section AtEntry

variable {s t : State} {c : Command} {op : MicroOp} (h : s.AtEntry c op)

include h

theorem State.AtEntry.op_legal : op.illegal s.n = none := h.legal op (List.mem_of_getElem? h.entry)

theorem State.AtEntry.length_le : (c.ops s).length ≤ 160 := by
  obtain ⟨i, -, hc⟩ := h.command
  exact commandOf_length hc s

theorem State.AtEntry.ops_eq (hn : t.n = s.n) (hp : t.params = s.params) : c.ops t = c.ops s := by
  obtain ⟨i, -, hc⟩ := h.command
  exact commandOf_ops hc hn hp

theorem State.AtEntry.smallStep_eq : Machine.smallStep s = op.smallStep (c.ops s).length s := by
  obtain ⟨i, hi, hc⟩ := h.command
  rw [Machine.smallStep, hi]
  simp only [hc, opsStep, h.entry, h.op_legal]

/-- The small step of a running command is one step of the entry at UOP. -/
theorem State.AtEntry.smallStep_next (hfb : s.fb.wf) (hb : s.busy = true) (hpos : s.PosFits op) :
    ∃ t, Machine.smallStep s = .next t ∧ op.StepsTo (c.ops s).length s t := by
  rw [h.smallStep_eq]
  cases op with
  | shWrite d r wdata wmask =>
    have hends := nextOp_ends (s := shWrite d r wdata wmask s) h.length_le hb
    exact ⟨_, rfl, by simp, by simp, by simp [State.pinLog, State.xferLog], by simp, by simp, hends⟩
  | xfer u o x =>
    obtain ⟨w, t, hstep, hpin⟩ := xferStep_writesPin hfb hpos h.length_le hb
    exact ⟨t, hstep, w, hpin⟩

end AtEntry

end Sys2Proof.Machine
end

section
/-! The invariant of the machine (10_state.md R20 to R30). It is the data part, which does not look at the sequencer, together with
a block that is idle or stands at an entry of the command in CW. -/

namespace Sys2Proof.Machine

/-! ### The data part of the invariant -/

/-- The clauses of the invariant about SRF, FB, N and INITED. -/
structure State.DataInv (s : State) : Prop where
  srfWf : s.srf.wf
  fbWf : s.fb.wf
  initedIff : s.inited = true ↔ 1 ≤ s.n.val
  unwritten : ∀ a, 8 * s.n.val ≤ a → s.srf.read a = 0x00#8

theorem State.Inv.data {s : State} (h : s.Inv) : s.DataInv := ⟨h.srfWf, h.fbWf, h.initedIff, h.unwritten⟩

section DataInv

variable {s t : State} (h : s.DataInv)

include h

theorem State.DataInv.inv_of_idle (hi : s.Idle) : s.Inv where
  srfWf := h.srfWf
  fbWf := h.fbWf
  initedIff := h.initedIff
  unwritten := h.unwritten
  idle _ := hi
  running hb := by simp [hi.notBusy] at hb

theorem State.DataInv.inv_of_running (hb : s.busy = true) (hr : s.Running) : s.Inv where
  srfWf := h.srfWf
  fbWf := h.fbWf
  initedIff := h.initedIff
  unwritten := h.unwritten
  idle hi := by simp [hb] at hi
  running _ := hr

theorem State.DataInv.congr (hsrf : t.srf = s.srf) (hfb : t.fb.wf) (hn : t.n = s.n) (hinited : t.inited = s.inited) :
    t.DataInv where
  srfWf := hsrf ▸ h.srfWf
  fbWf := hfb
  initedIff := by rw [hinited, hn]; exact h.initedIff
  unwritten := by rw [hsrf, hn]; exact h.unwritten

/-- A shadow write that may run stays inside the lanes of the devices that exist. -/
theorem State.DataInv.shWrite {d r : Nat} {wdata wmask : Byte} (hl : (MicroOp.shWrite d r wdata wmask).illegal s.n = none) :
    (shWrite d r wdata wmask s).DataInv where
  srfWf := Memory.wf_write h.srfWf _ _
  fbWf := h.fbWf
  initedIff := h.initedIff
  unwritten a ha := by
    obtain ⟨hd, hr⟩ : d < s.n.val ∧ r ≤ 7 := by simpa [MicroOp.illegal] using hl
    rw [shWrite_n] at ha
    rw [shWrite_read h.srfWf, if_neg (by unfold lane; omega)]
    exact h.unwritten a ha

theorem State.DataInv.run {op : MicroOp} (hl : op.illegal s.n = none) : (op.run s).DataInv := by
  cases op with
  | shWrite d r wdata wmask => exact h.shWrite hl
  | xfer u o x => exact h.congr (xfer_srf _ s) (MicroOp_run_fbWf h.fbWf _) (xfer_n _ s) (xfer_inited _ s)

theorem State.DataInv.runAll {ops : List MicroOp} (hl : ∀ o ∈ ops, o.illegal s.n = none) : (runAll ops s).DataInv :=
  (runAll_keeps (P := fun t => t.n = s.n ∧ t.DataInv) ops
    (fun o ho t ht => ⟨(MicroOp_run_n o t).trans ht.1, ht.2.run (ht.1 ▸ hl o ho)⟩) ⟨rfl, h⟩).2

/-- A small step of an entry that may run keeps the data part. -/
theorem State.DataInv.stepsTo {len : Nat} {op : MicroOp} (hl : op.illegal s.n = none) (hf : SmallFrame s t)
    (hs : op.StepsTo len s t) : t.DataInv := by
  cases op with
  | shWrite d r wdata wmask => exact (h.shWrite hl).congr hs.shadow (hs.buffer ▸ h.fbWf) hf.n hf.inited
  | xfer u o x =>
    obtain ⟨w, hpin⟩ := hs
    refine h.congr hpin.shadow ?_ hf.n hf.inited
    rw [hpin.buffer]
    split
    · exact buildFB_wf h.fbWf _ _ _
    · exact h.fbWf

/-- What a command that passes its checks writes at once keeps the data part: INIT finds N = 0 and gives it 1 to 8
(43_controller_config.md R177, R178). -/
theorem State.DataInv.immediate {i : Instr} {c : Command} (hc : commandOf i = some c) (ha : c.accepts s = true) :
    (c.immediate s).DataInv := by
  obtain him | ⟨a, rfl, him⟩ | ⟨-, him⟩ := commandOf_immediate hc s
  · rw [him]
    exact h
  · have hinited : s.inited = false := (accepts_iff hc).mp ha
    have hn : ¬ 1 ≤ s.n.val := fun hn => by simp [h.initedIff.mpr hn] at hinited
    rw [him]
    exact ⟨h.srfWf, h.fbWf, by simp [one_le_clampLength], fun a _ => h.unwritten a (by omega)⟩
  · rw [him]
    exact h.congr rfl h.fbWf rfl rfl

end DataInv

/-! ### States that differ only outside the invariant -/

theorem State.Idle.congr {s t : State} (h : s.Idle) (hb : t.busy = s.busy) (hu : t.uop = s.uop) (hp : t.pos = s.pos)
    (hcs : t.cs = s.cs) (hclk : t.clk = s.clk) : t.Idle where
  notBusy := hb.trans h.notBusy
  uopZero := hu.trans h.uopZero
  posZero := hp.trans h.posZero
  pins := ⟨hcs.trans h.pins.1, hclk.trans h.pins.2⟩

/-- The fields the invariant looks at are the same. -/
structure SameBlock (s t : State) : Prop where
  params : t.params = s.params
  n : t.n = s.n
  inited : t.inited = s.inited
  srf : t.srf = s.srf
  fb : t.fb = s.fb
  busy : t.busy = s.busy
  cw : t.cw = s.cw
  uop : t.uop = s.uop
  pos : t.pos = s.pos
  cs : t.cs = s.cs
  clk : t.clk = s.clk

theorem State.AtEntry.congr {s t : State} {c : Command} {op : MicroOp} (h : s.AtEntry c op) (hs : SameBlock s t) :
    t.AtEntry c op where
  command := hs.cw ▸ h.command
  legal := by rw [h.ops_eq hs.n hs.params, hs.n]; exact h.legal
  entry := by rw [h.ops_eq hs.n hs.params, hs.uop]; exact h.entry

theorem State.Running.congr {s t : State} (h : s.Running) (hs : SameBlock s t) : t.Running := by
  obtain ⟨c, op, hat, hpos, hpins⟩ := State.running_iff.mp h
  refine State.running_iff.mpr ⟨c, op, hat.congr hs, ?_, ?_⟩
  · cases op with
    | shWrite d r wdata wmask => exact hs.pos.trans hpos
    | xfer u o x =>
      simp only [State.PosFits, hs.pos, hs.n]
      exact hpos
  · simp only [State.PinsAtPos, State.PinsIdle, hs.pos, hs.cs, hs.clk]
    exact hpins

theorem State.Inv.congr {s t : State} (h : s.Inv) (hs : SameBlock s t) : t.Inv := by
  have hdata : t.DataInv := h.data.congr hs.srf (hs.fb ▸ h.fbWf) hs.n hs.inited
  cases hb : s.busy with
  | false => exact hdata.inv_of_idle ((h.idle hb).congr hs.busy hs.uop hs.pos hs.cs hs.clk)
  | true => exact hdata.inv_of_running (hs.busy.trans hb) ((h.running hb).congr hs)

/-! ### The pins along a transfer -/

/-- A pin write before the last leaves the pins where the next position has them (41_bus_serializer.md R128). -/
theorem State.PinsAtPos.pin_before {s : State} (h : s.PinsAtPos) {fb : Memory} {w : PinWrite}
    (hw : (framePins fb s.n.val)[s.pos.toNat]? = some w) (hlt : s.pos.toNat < 48 * s.n.val + 1) :
    (pin w s).cs = false ∧ (pin w s).clk = decide (s.pos.toNat % 3 = 2) := by
  unfold State.PinsAtPos at h
  split at h
  next hzero =>
    obtain rfl : ⟨.cs, false⟩ = w := by simpa [hzero, framePins] using hw
    simp [hzero, h.2]
  next hne =>
    have hpos : 0 < s.pos.toNat := Nat.pos_of_ne_zero fun h0 => hne (BitVec.eq_of_toNat_eq h0)
    obtain ⟨hcs, hclk⟩ := h
    obtain ⟨b, hbit⟩ := framePins_bit fb s.n.val s.pos.toNat hpos hlt
    rw [hbit] at hw
    obtain hm | hm | hm : (s.pos.toNat - 1) % 3 = 0 ∨ (s.pos.toNat - 1) % 3 = 1 ∨ (s.pos.toNat - 1) % 3 = 2 := by omega
    · obtain rfl : ⟨.din, b⟩ = w := by simpa [hm, bitPins] using hw
      simp [hcs, hclk, hm, show s.pos.toNat % 3 = 1 by omega]
    · obtain rfl : ⟨.clk, true⟩ = w := by simpa [hm, bitPins] using hw
      simp [hcs, show s.pos.toNat % 3 = 2 by omega]
    · obtain rfl : ⟨.clk, false⟩ = w := by simpa [hm, bitPins] using hw
      simp [hcs, show s.pos.toNat % 3 = 0 by omega]

/-- The last pin write of a transfer leaves the pins idle (41_bus_serializer.md R133). -/
theorem State.PinsAtPos.pin_last {s : State} (h : s.PinsAtPos) {fb : Memory} {w : PinWrite}
    (hw : (framePins fb s.n.val)[s.pos.toNat]? = some w) (hlast : s.pos.toNat = 48 * s.n.val + 1) :
    (pin w s).cs = true ∧ (pin w s).clk = false := by
  rw [hlast, framePins_last] at hw
  obtain rfl := Option.some.inj hw
  unfold State.PinsAtPos at h
  rw [if_neg (fun h0 => by simp [h0] at hlast)] at h
  have hmod : 48 * s.n.val % 3 ≠ 2 := by omega
  simp [h.2, hlast, hmod]

/-! ### The small step keeps the invariant -/

section AtEntry

variable {s t : State} {c : Command} {op : MicroOp} (h : s.AtEntry c op)

include h

theorem State.AtEntry.of_frame {op' : MicroOp} (hf : SmallFrame s t) (hentry : (c.ops s)[t.uop.toNat]? = some op') :
    t.AtEntry c op' where
  command := hf.cw ▸ h.command
  legal := by rw [h.ops_eq hf.n hf.params, hf.n]; exact h.legal
  entry := by rw [h.ops_eq hf.n hf.params]; exact hentry

/-- Where an entry ends with idle pins, the block is idle, or at the start of the next entry. -/
theorem State.AtEntry.inv_of_ends (hf : SmallFrame s t) (hdata : t.DataInv) (hpins : t.PinsIdle)
    (hends : EntryEnds (c.ops s).length s t) : t.Inv := by
  unfold EntryEnds at hends
  split at hends
  next hmore =>
    obtain ⟨hb, hu, hp⟩ := hends
    have hat : t.AtEntry c (c.ops s)[s.uop.toNat + 1] := h.of_frame hf (by rw [hu]; exact List.getElem?_eq_getElem hmore)
    refine hdata.inv_of_running hb (State.running_iff.mpr ⟨c, _, hat, ?_, ?_⟩)
    · cases (c.ops s)[s.uop.toNat + 1] with
      | shWrite d r wdata wmask => exact hp
      | xfer u o x => simp [State.PosFits, hp]
    · exact (if_pos hp).mpr hpins
  next =>
    obtain ⟨hb, hu, hp⟩ := hends
    exact hdata.inv_of_idle ⟨hb, hu, hp, hpins⟩

theorem State.AtEntry.inv_of_stepsTo (hdata : s.DataInv) (hpos : s.PosFits op) (hpins : s.PinsAtPos) (hf : SmallFrame s t)
    (hs : op.StepsTo (c.ops s).length s t) : t.Inv := by
  have hdata' : t.DataInv := hdata.stepsTo h.op_legal hf hs
  cases op with
  | shWrite d r wdata wmask =>
    obtain ⟨hcs, hclk, -⟩ := hs.pins
    obtain ⟨hcs', hclk'⟩ : s.PinsIdle := (if_pos hpos).mp hpins
    exact h.inv_of_ends hf hdata' ⟨hcs.trans hcs', hclk.trans hclk'⟩ hs.ends
  | xfer u o x =>
    obtain ⟨w, hpin⟩ := hs
    obtain ⟨hcs, hclk, -⟩ := hpin.pins
    rcases Nat.lt_or_eq_of_le hpos with hlt | hlast
    · obtain ⟨hcs', hclk'⟩ := hpins.pin_before hpin.entry hlt
      obtain ⟨hp, hu, hb, -⟩ := hpin.goesOn hlt
      refine hdata'.inv_of_running hb (State.running_iff.mpr ⟨c, _, h.of_frame hf (hu ▸ h.entry), ?_, ?_⟩)
      · simp only [State.PosFits, hp, hf.n]
        omega
      · refine (if_neg (fun h0 => by simp [h0] at hp)).mpr ⟨hcs.trans hcs', hclk.trans ?_⟩
        rw [hclk', hp, Nat.add_sub_cancel]
    · obtain ⟨hcs', hclk'⟩ := hpins.pin_last hpin.entry hlast
      exact h.inv_of_ends hf hdata' ⟨hcs.trans hcs', hclk.trans hclk'⟩ (hpin.ends hlast).2

end AtEntry

theorem smallStep_keeps_inv {s t : State} (h : s.Inv) (hb : s.busy = true) (hstep : smallStep s = .next t) : t.Inv := by
  obtain ⟨c, op, hat, hpos, hpins⟩ := State.running_iff.mp (h.running hb)
  obtain ⟨u, hu, hs⟩ := hat.smallStep_next h.fbWf hb hpos
  obtain rfl := Host.Outcome.next.inj (hu.symm.trans hstep)
  exact hat.inv_of_stepsTo h.data hpos hpins (smallStep_frame hstep) hs

theorem advance_keeps_inv {s t : State} (h : s.Inv) (hstep : advance s = .next t) : t.Inv := by
  unfold advance at hstep
  split at hstep
  · exact smallStep_keeps_inv h ‹_› hstep
  · exact Host.Outcome.next.inj hstep ▸ h

/-! ### Taking a word keeps the invariant -/

/-- A command accepted by an idle block writes no pin at once, so the block stays idle. -/
theorem State.Idle.immediate {i : Instr} {c : Command} (hc : commandOf i = some c) {s : State} (h : s.Idle) :
    (c.immediate s).Idle := by
  obtain him | ⟨a, -, him⟩ | ⟨-, him⟩ := commandOf_immediate hc s <;> rw [him]
  · exact h
  · exact h.congr rfl rfl rfl rfl rfl
  · exact h.congr rfl rfl rfl rfl rfl

/-- An accepted command whose list is not empty is at its first entry (30_encoding.md R90, 10_state.md R30). -/
theorem atEntry_of_accepts {i : Instr} {c : Command} {s : State} {op : MicroOp} {ops : List MicroOp}
    (hi : decodeCommand s.cw = .ok i) (hc : commandOf i = some c) (ha : c.accepts s = true)
    (hops : c.ops (c.immediate s) = op :: ops) :
    State.AtEntry { c.immediate s with busy := true, uop := 0#8, pos := 0#9 } c op := by
  have hsame : c.ops { c.immediate s with busy := true, uop := 0#8, pos := 0#9 } = c.ops (c.immediate s) :=
    commandOf_ops hc rfl rfl
  obtain ⟨-, -, -, hcw, -⟩ := immediate_sequencer hc s
  exact ⟨⟨i, hcw ▸ hi, hc⟩, hsame ▸ commandOf_legal hc ha, by simp [hsame, hops]⟩

theorem acceptWord_keeps_inv {s : State} (w : CmdWord) (h : s.DataInv) (hidle : s.Idle) : (acceptWord w s).Inv := by
  have hdata : State.DataInv { s with cw := w } := h.congr rfl h.fbWf rfl rfl
  have hidle' : State.Idle { s with cw := w } := hidle.congr rfl rfl rfl rfl rfl
  obtain hw | ⟨i, c, hi, hc, ha, ⟨hw, -⟩ | ⟨hw, hne⟩⟩ := acceptWord_cases w s <;> rw [hw]
  · exact hdata.inv_of_idle hidle'
  · exact (hdata.immediate hc ha).inv_of_idle (hidle'.immediate hc)
  · have himm := hdata.immediate hc ha
    obtain ⟨op, ops, hops⟩ := List.exists_cons_of_ne_nil hne
    have hat := atEntry_of_accepts (s := { s with cw := w }) hi hc ha hops
    refine State.DataInv.inv_of_running (himm.congr rfl himm.fbWf rfl rfl) rfl
      (State.running_iff.mpr ⟨c, op, hat, ?_, (if_pos rfl).mpr (hidle'.immediate hc).pins⟩)
    cases op with
    | shWrite d r wdata wmask => rfl
    | xfer u o x => exact Nat.zero_le _

theorem State.Idle.runAll {s : State} (h : s.Idle) (ops : List MicroOp) : (runAll ops s).Idle where
  notBusy := (runAll_busy ops s).trans h.notBusy
  uopZero := (runAll_uop ops s).trans h.uopZero
  posZero := (runAll_pos ops s).trans h.posZero
  pins := runAll_keeps (P := State.PinsIdle) ops (fun o _ _ hp => MicroOp_run_pins hp o) h.pins

theorem runWord_keeps_inv {w : CmdWord} {s t : State} (h : s.DataInv) (hidle : s.Idle) (hrun : runWord w s = .next t) :
    t.Inv := by
  have hdata : State.DataInv { s with cw := w } := h.congr rfl h.fbWf rfl rfl
  have hidle' : State.Idle { s with cw := w } := hidle.congr rfl rfl rfl rfl rfl
  obtain rfl | ⟨i, c, -, hc, ha, rfl⟩ := runWord_cases hrun
  · exact hdata.inv_of_idle hidle'
  · exact ((hdata.immediate hc ha).runAll (commandOf_legal hc ha)).inv_of_idle ((hidle'.immediate hc).runAll _)

/-! ### Power-on, reset, and every step -/

/-- With no device, a cleared shadow and the pins idle, an idle block meets the invariant, whatever FB holds. -/
theorem inv_of_cleared {s : State} (hn : s.n = 0) (hinited : s.inited = false) (hsrf : s.srf = []) (hfb : s.fb.wf)
    (hidle : s.Idle) : s.Inv :=
  State.DataInv.inv_of_idle ⟨by rw [hsrf]; exact Memory.wf_nil, hfb, by simp [hn, hinited], by simp [hsrf]⟩ hidle

theorem powerOn_inv (p : Params) (ds : List Device) : (State.powerOn p ds).Inv :=
  inv_of_cleared rfl rfl rfl Memory.wf_nil ⟨rfl, rfl, rfl, rfl, rfl⟩

/-- Reset drives the pins to their idle levels (70_reset_and_hazards.md R250, R251). -/
theorem blockReset_pins (s : State) : (blockReset s).PinsIdle := by
  simp [State.PinsIdle, blockReset]

theorem blockReset_inv {s : State} (hfb : s.fb.wf) : (blockReset s).Inv :=
  inv_of_cleared rfl rfl rfl (by simpa [blockReset] using hfb) ⟨rfl, rfl, rfl, blockReset_pins s⟩

/-- What the host will do and the strobe are outside the invariant. -/
theorem State.Inv.withInput {s : State} (h : s.Inv) (rv : Bool) (ins : List Input) :
    State.Inv { s with rspValid := rv, inputs := ins } :=
  h.congr ⟨rfl, rfl, rfl, rfl, rfl, rfl, rfl, rfl, rfl, rfl, rfl⟩

/-- Settles O40: the block after power-on is idle and cleared. -/
theorem resetMeetsTheInvariant : Obligations.ResetMeetsTheInvariant := by
  unfold Obligations.ResetMeetsTheInvariant
  exact ⟨powerOn_inv _ _, powerOn_inv⟩

/-- Settles O41: each of the five things a step can be keeps the invariant. -/
theorem stepKeepsTheInvariant : Obligations.StepKeepsTheInvariant := by
  unfold Obligations.StepKeepsTheInvariant
  intro s t h hstep
  obtain ⟨rest, -, rfl⟩ | ⟨d, dev, rest, -, rfl⟩ | ⟨ins, -, hadv⟩ | ⟨w, rest, hb, -, rfl⟩ | ⟨w, rest, hb, -, hrun⟩ :=
    step_cases hstep
  case inl => exact blockReset_inv h.fbWf
  case inr.inl => exact h.congr ⟨rfl, rfl, rfl, rfl, rfl, rfl, rfl, rfl, rfl, rfl, rfl⟩
  case inr.inr.inl => exact advance_keeps_inv (h.withInput _ _) hadv
  case inr.inr.inr.inl =>
    have h' := h.withInput false rest
    exact acceptWord_keeps_inv w h'.data (h'.idle hb)
  case inr.inr.inr.inr =>
    have h' := h.withInput false rest
    exact runWord_keeps_inv h'.data (h'.idle hb) hrun

end Sys2Proof.Machine
end

section
/-! A busy block under the invariant makes one pin write or one shadow write a step (00_scope.md R17, 10_state.md R30). -/

namespace Sys2Proof.Machine

theorem ShadowStep.of_withInput {len d r : Nat} {wdata wmask : Byte} {s t : State} {rv : Bool} {ins : List Input}
    (h : ShadowStep len d r wdata wmask { s with rspValid := rv, inputs := ins } t) :
    ShadowStep len d r wdata wmask s t := ⟨h.shadow, h.pins, h.logs, h.buffer, h.chain, h.ends⟩

theorem PinWriteStep.of_withInput {len : Nat} {x : Transfer} {w : PinWrite} {s t : State} {rv : Bool} {ins : List Input}
    (h : PinWriteStep len x w { s with rspValid := rv, inputs := ins } t) : PinWriteStep len x w s t :=
  ⟨h.buffer, h.entry, h.frame, by simpa using h.pins, h.pinLog, h.chain.trans (pin_chain_congr w rfl rfl rfl rfl), h.shadow,
    h.goesOn, h.ends⟩

/-- Settles O55: the invariant gives the entry at UOP, and the step is that entry's small step. -/
theorem busyStepIsOnePinWriteOrOneShadowWrite : Obligations.BusyStepIsOnePinWriteOrOneShadowWrite := by
  unfold Obligations.BusyStepIsOnePinWriteOrOneShadowWrite
  intro s rest h hb hrest
  have h' := h.withInput false rest
  obtain ⟨c, op, hat, hpos, -⟩ := State.running_iff.mp (h'.running hb)
  obtain ⟨t, hstep, hs⟩ := hat.smallStep_next h'.fbWf hb hpos
  have hf := smallStep_frame hstep
  obtain ⟨i, hi, hc⟩ := hat.command
  have hops : c.ops { s with rspValid := false, inputs := rest } = c.ops s := commandOf_ops hc rfl rfl
  rw [hops] at hs
  refine ⟨i, c, op, t, hi, hc, hops ▸ hat.entry, (step_takesNoWord hb hrest).trans hstep,
    ⟨hf.params, hf.n, hf.inited, hf.cw, hf.rsp, hf.rspValid, hf.inputs⟩, ?_⟩
  cases op with
  | shWrite d r wdata wmask => exact hs.of_withInput
  | xfer u o x =>
    obtain ⟨w, hpin⟩ := hs
    rw [XferData.value_congr rfl x] at hpin
    exact ⟨w, hpin.of_withInput⟩

end Sys2Proof.Machine
end

section
/-! What one step does to the registers outside the sequencer: the parameters, N, INITED, RSP, `rsp_valid` and the number of wired
devices (10_state.md R20, R21, R31, R37). -/

namespace Sys2Proof.Machine

/-! ### What a step may change -/

/-- Taking the word `w` leaves these registers as they are, or as the immediate effect of the accepted command leaves them. -/
def WordFrame (w : CmdWord) (s t : State) : Prop :=
  SmallFrame { s with cw := w } t ∨
  ∃ i c, decodeCommand w = .ok i ∧ commandOf i = some c ∧ c.accepts { s with cw := w } = true ∧
    SmallFrame (c.immediate { s with cw := w }) t

theorem acceptWord_frame (w : CmdWord) (s : State) : WordFrame w s (acceptWord w s) := by
  obtain hw | ⟨i, c, hi, hc, ha, ⟨hw, -⟩ | ⟨hw, -⟩⟩ := acceptWord_cases w s <;> rw [hw]
  · exact .inl ⟨rfl, rfl, rfl, rfl, rfl, rfl, rfl, rfl⟩
  · exact .inr ⟨i, c, hi, hc, ha, rfl, rfl, rfl, rfl, rfl, rfl, rfl, rfl⟩
  · exact .inr ⟨i, c, hi, hc, ha, rfl, rfl, rfl, rfl, rfl, rfl, rfl, rfl⟩

theorem runWord_frame {w : CmdWord} {s t : State} (h : runWord w s = .next t) : WordFrame w s t := by
  obtain rfl | ⟨i, c, hi, hc, ha, rfl⟩ := runWord_cases h
  · exact .inl ⟨rfl, rfl, rfl, rfl, rfl, rfl, rfl, rfl⟩
  · exact .inr ⟨i, c, hi, hc, ha, runAll_frame _ _⟩

/-- Apart from a reset, a step writes none of these registers but `rsp_valid`, which falls, and CW; or it accepts a command and
writes them as that command does at once. -/
theorem step_frame {s t : State} (h : step s = .next t) :
    (∃ rest, s.inputs = .reset :: rest ∧ t = blockReset { s with rspValid := false, inputs := rest }) ∨
    (∃ ins w, SmallFrame { s with rspValid := false, inputs := ins, cw := w } t) ∨
    (∃ w rest i c, s.busy = false ∧ (s.inputs = .command w :: rest ∨ s.inputs = .accept w :: rest) ∧
      decodeCommand w = .ok i ∧ commandOf i = some c ∧
      c.accepts { s with rspValid := false, inputs := rest, cw := w } = true ∧
      SmallFrame (c.immediate { s with rspValid := false, inputs := rest, cw := w }) t) := by
  obtain ⟨rest, hin, rfl⟩ | ⟨d, dev, rest, -, rfl⟩ | ⟨ins, -, hadv⟩ | ⟨w, rest, hb, hin, rfl⟩ | ⟨w, rest, hb, hin, hrun⟩ :=
    step_cases h
  case inl => exact .inl ⟨rest, hin, rfl⟩
  case inr.inl => exact .inr (.inl ⟨rest, s.cw, rfl, rfl, rfl, rfl, rfl, rfl, rfl, by simp [devicePower]⟩)
  case inr.inr.inl => exact .inr (.inl ⟨ins, s.cw, advance_frame hadv⟩)
  case inr.inr.inr.inl =>
    obtain hf | ⟨i, c, hi, hc, ha, hf⟩ := acceptWord_frame w { s with rspValid := false, inputs := rest }
    · exact .inr (.inl ⟨rest, w, hf⟩)
    · exact .inr (.inr ⟨w, rest, i, c, hb, .inr hin, hi, hc, ha, hf⟩)
  case inr.inr.inr.inr =>
    obtain hf | ⟨i, c, hi, hc, ha, hf⟩ := runWord_frame hrun
    · exact .inr (.inl ⟨rest, w, hf⟩)
    · exact .inr (.inr ⟨w, rest, i, c, hb, .inl hin, hi, hc, ha, hf⟩)

/-! ### N and INITED -/

/-- Of the commands that pass their checks only INIT writes N and INITED at once, and only when INITED = 0
(43_controller_config.md R177, R178). -/
theorem immediate_chainLength {i : Instr} {c : Command} (hc : commandOf i = some c) {s : State} (ha : c.accepts s = true)
    (h : s.inited = true ∨ ∀ a, i ≠ .init a) : (c.immediate s).n = s.n ∧ (c.immediate s).inited = s.inited := by
  obtain him | ⟨a, rfl, him⟩ | ⟨-, him⟩ := commandOf_immediate hc s
  · simp [him]
  · have hinited : s.inited = false := (accepts_iff hc).mp ha
    simp [hinited] at h
  · simp [him]

/-- A wire opcode writes device registers only. -/
theorem exec_wire_chainLength {i : Instr} (hc : commandOf i = none) {s t : State} (h : exec i s = .next t) :
    t.n = s.n ∧ t.inited = s.inited := by
  cases i <;> simp only [commandOf, reduceCtorEq] at hc <;> obtain rfl := Host.Outcome.next.inj h <;> exact ⟨rfl, rfl⟩

theorem exec_chainLength {i : Instr} {s t : State} (h : exec i s = .next t) (hi : s.inited = true ∨ ∀ a, i ≠ .init a) :
    t.n = s.n ∧ t.inited = s.inited := by
  cases hc : commandOf i with
  | none => exact exec_wire_chainLength hc h
  | some c =>
    cases ha : c.accepts s with
    | false =>
      obtain rfl := Host.Outcome.next.inj ((exec_dropped hc ha).symm.trans h)
      exact ⟨rfl, rfl⟩
    | true =>
      obtain rfl := Host.Outcome.next.inj ((exec_accepted hc ha).symm.trans h)
      rw [runAll_n, runAll_inited]
      exact immediate_chainLength hc ha hi

/-- Settles O48: INIT is the only writer, and it is dropped when INITED = 1. -/
theorem chainLengthIsWrittenAtMostOnce : Obligations.ChainLengthIsWrittenAtMostOnce := by
  unfold Obligations.ChainLengthIsWrittenAtMostOnce
  refine ⟨fun i s t => exec_chainLength, fun s t h hinited hreset => ?_⟩
  obtain ⟨rest, hin, -⟩ | ⟨ins, w, hf⟩ | ⟨w, rest, i, c, -, -, -, hc, ha, hf⟩ := step_frame h
  · exact absurd hin (hreset rest)
  · exact ⟨hf.n, hf.inited.trans hinited⟩
  · obtain ⟨hn, hi⟩ := immediate_chainLength hc ha (.inl hinited)
    exact ⟨hf.n.trans hn, hf.inited.trans (hi.trans hinited)⟩

/-! ### The parameters -/

/-- Settles O49: neither a reset nor the immediate effect of a command writes a parameter or wires a device. -/
theorem parametersNeverChange : Obligations.ParametersNeverChange := by
  unfold Obligations.ParametersNeverChange
  intro s t h
  obtain ⟨rest, -, rfl⟩ | ⟨ins, w, hf⟩ | ⟨w, rest, i, c, -, -, -, hc, -, hf⟩ := step_frame h
  · simp [blockReset]
  · exact ⟨hf.params, hf.wired⟩
  · rw [hf.params, hf.wired]
    obtain him | ⟨a, -, him⟩ | ⟨-, him⟩ :=
      commandOf_immediate hc { s with rspValid := false, inputs := rest, cw := w } <;> simp [him]

/-! ### The response -/

/-- Settles O50: the strobe falls at the start of every step, and of the immediate effects only GETDEVICECOUNT's raises it. -/
theorem responseIsValidOnlyForGetDeviceCount : Obligations.ResponseIsValidOnlyForGetDeviceCount := by
  unfold Obligations.ResponseIsValidOnlyForGetDeviceCount
  intro s t h hvalid
  obtain ⟨rest, -, rfl⟩ | ⟨ins, w, hf⟩ | ⟨w, rest, i, c, hb, hin, hi, hc, ha, hf⟩ := step_frame h
  · cases hvalid
  · cases hf.rspValid.symm.trans hvalid
  · have hv := hf.rspValid.symm.trans hvalid
    obtain him | ⟨a, -, him⟩ | ⟨rfl, him⟩ :=
      commandOf_immediate hc { s with rspValid := false, inputs := rest, cw := w }
    · simp [him] at hv
    · simp [him] at hv
    · have hshadow := (accepts_iff hc).mp ha
      have hrsp : t.rsp = BitVec.ofNat 8 s.n.val := by rw [hf.rsp, him]
      refine ⟨hb, hshadow, ?_, w, rest, hin, hi⟩
      rw [hrsp, BitVec.toNat_ofNat]
      exact Nat.mod_eq_of_lt (by omega)

/-! ### The debug port -/

/-- Settles O21: the address splits into `d` and `r`. -/
theorem debugPortReadsTheShadow : Obligations.DebugPortReadsTheShadow := by
  unfold Obligations.DebugPortReadsTheShadow
  intro s d r hd hr
  have hdev : ((BitVec.ofNat 6 (8 * d + r)).extractLsb' 3 3).toNat = d := by
    simp only [BitVec.extractLsb'_toNat, BitVec.toNat_ofNat, Nat.shiftRight_eq_div_pow]
    omega
  have hrow : ((BitVec.ofNat 6 (8 * d + r)).extractLsb' 0 3).toNat = r := by
    simp only [BitVec.extractLsb'_toNat, BitVec.toNat_ofNat, Nat.shiftRight_eq_div_pow]
    omega
  constructor <;> intro hs <;> simp [State.debugRead, hs, hdev, hrow]

end Sys2Proof.Machine
end

section
/-! The shadow before the wire (20_memory.md R66, 43_controller_config.md R176): in a list of micro-operations every row transfer
stands right behind the shadow write of its byte. The property is kept by appending lists, so it is shown of the lists the commands
share and put together as the commands are. -/

namespace Sys2Proof.Machine

/-! ### The opcodes of the rows -/

theorem rowOpcode_toNat {r : Nat} (h : r ≤ 7) : (rowOpcode r).toNat = r + 1 := by
  rw [rowOpcode, BitVec.toNat_ofNat]
  exact Nat.mod_eq_of_lt (by omega)

theorem rowOpcode_injective {q r : Nat} (hq : q ≤ 7) (hr : r ≤ 7) (h : rowOpcode q = rowOpcode r) : q = r := by
  have := congrArg BitVec.toNat h
  rw [rowOpcode_toNat hq, rowOpcode_toNat hr] at this
  omega

/-! ### Lists in which the shadow comes first -/

/-- A shadow write of lane `(d, r)` after which the data `x` is that lane: read from it, or the byte the write put there whole. -/
def MicroOp.Provides (d r : Nat) (x : XferData) (op : MicroOp) : Prop :=
  ∃ wdata wmask, op = .shWrite d r wdata wmask ∧ (x = .shadow d r ∨ (wmask = 0xFF#8 ∧ x = .byte wdata))

/-- Every row transfer of the list stands right behind the shadow write of its byte. -/
def RowsFollowShadow (ops : List MicroOp) : Prop :=
  ∀ (k d r : Nat) (x : XferData), r ≤ 7 → ops[k]? = some (.xfer d (rowOpcode r) x) →
    ∃ j op, k = j + 1 ∧ ops[j]? = some op ∧ op.Provides d r x

theorem RowsFollowShadow.nil : RowsFollowShadow [] := by
  intro k d r x _ h
  cases h

/-- A transfer of an opcode above the rows' may stand anywhere. -/
theorem RowsFollowShadow.cons_xfer {t : Nat} {op : Opcode} {data : XferData} {ops : List MicroOp} (hop : 8 < op.toNat)
    (h : RowsFollowShadow ops) : RowsFollowShadow (.xfer t op data :: ops) := by
  intro k d r x hr hk
  cases k with
  | zero =>
    obtain ⟨-, rfl, -⟩ := MicroOp.xfer.inj (Option.some.inj hk)
    rw [rowOpcode_toNat hr] at hop
    omega
  | succ k =>
    obtain ⟨j, o, rfl, hj, ho⟩ := h k d r x hr hk
    exact ⟨j + 1, o, rfl, hj, ho⟩

/-- No row transfer begins the second list, so none of its row transfers loses the shadow write before it. -/
theorem RowsFollowShadow.append {ops ops' : List MicroOp} (h : RowsFollowShadow ops) (h' : RowsFollowShadow ops') :
    RowsFollowShadow (ops ++ ops') := by
  intro k d r x hr hk
  by_cases hlt : k < ops.length
  · rw [List.getElem?_append_left hlt] at hk
    obtain ⟨j, o, rfl, hj, ho⟩ := h k d r x hr hk
    exact ⟨j, o, rfl, by rwa [List.getElem?_append_left (by omega)], ho⟩
  · rw [List.getElem?_append_right (by omega)] at hk
    obtain ⟨j, o, hkj, hj, ho⟩ := h' _ d r x hr hk
    refine ⟨ops.length + j, o, by omega, ?_, ho⟩
    rwa [List.getElem?_append_right (by omega), Nat.add_sub_cancel_left]

theorem RowsFollowShadow.flatMap {α : Type} {l : List α} {f : α → List MicroOp} (h : ∀ a ∈ l, RowsFollowShadow (f a)) :
    RowsFollowShadow (l.flatMap f) := by
  induction l with
  | nil => exact .nil
  | cons a l ih => exact (h a (by simp)).append (ih fun b hb => h b (by simp [hb]))

/-- A shadow write and the transfer of the row it provides. -/
theorem RowsFollowShadow.pair {w : MicroOp} {d r : Nat} {data : XferData} (hr : r ≤ 7) (hw : w.Provides d r data) :
    RowsFollowShadow [w, .xfer d (rowOpcode r) data] := by
  intro k e q x hq hk
  match k with
  | 0 =>
    obtain ⟨_, _, rfl, -⟩ := hw
    cases hk
  | 1 =>
    obtain ⟨rfl, hrow, rfl⟩ := MicroOp.xfer.inj (Option.some.inj hk)
    obtain rfl := rowOpcode_injective hr hq hrow
    exact ⟨0, w, rfl, rfl, hw⟩
  | _ + 2 => cases hk

/-! ### The lists of the commands -/

theorem rowOps_rowsFollowShadow (d : Nat) {r : Nat} (v : Byte) (hr : r ≤ 7) : RowsFollowShadow (rowOps true d r v) :=
  .pair hr ⟨v, 0xFF#8, rfl, .inr ⟨rfl, rfl⟩⟩

theorem ledOps_rowsFollowShadow (d : Nat) {r : Nat} (c : Nat) (on : Bool) (hr : r ≤ 7) :
    RowsFollowShadow (ledOps d r c on) :=
  .pair hr ⟨level on, columnMask c, rfl, .inl rfl⟩

theorem clearOps_rowsFollowShadow (d : Nat) : RowsFollowShadow (clearOps true d) :=
  .flatMap fun _ hr => rowOps_rowsFollowShadow d _ (Nat.le_of_lt_succ (List.mem_range.mp hr))

theorem initDeviceOps_rowsFollowShadow (d : Nat) : RowsFollowShadow (initDeviceOps true d) :=
  have before : RowsFollowShadow [.xfer d 15#4 (.byte 0x00#8), .xfer d 11#4 (.byte 0x07#8), .xfer d 9#4 (.byte 0x00#8)] :=
    .cons_xfer (by decide) (.cons_xfer (by decide) (.cons_xfer (by decide) .nil))
  have after : RowsFollowShadow [.xfer d 12#4 (.byte 0x00#8)] := .cons_xfer (by decide) .nil
  (before.append (clearOps_rowsFollowShadow d)).append after

/-- In the list of an accepted command every row transfer follows its shadow write, when there is a shadow. -/
theorem commandOf_rowsFollowShadow {i : Instr} {c : Command} (hi : commandOf i = some c) {s : State}
    (hs : s.params.hasShadow = true) (h : c.accepts s = true) : RowsFollowShadow (c.ops (c.immediate s)) := by
  have hchecks := (accepts_iff hi).mp h
  cases i <;> simp only [commandOf, Option.some.injEq, reduceCtorEq] at hi <;> subst hi
  case init a =>
    simp only [commandInit, hs]
    exact .flatMap fun d _ => initDeviceOps_rowsFollowShadow d
  case shutdown a f => exact .cons_xfer (by decide) .nil
  case setScanLimit a c => exact .cons_xfer (by decide) .nil
  case setIntensity a c => exact .cons_xfer (by decide) .nil
  case clearDisplay a =>
    simp only [commandClearDisplay, hs]
    exact clearOps_rowsFollowShadow _
  case setLed a b c f =>
    obtain ⟨-, -, hb, -⟩ := hchecks
    exact ledOps_rowsFollowShadow _ _ _ hb
  case setRow a b c =>
    obtain ⟨-, hb⟩ := hchecks
    simp only [commandSetRow, hs]
    exact rowOps_rowsFollowShadow _ _ hb
  case setColumn a b c =>
    exact .flatMap fun r hr => ledOps_rowsFollowShadow _ _ _ (Nat.le_of_lt_succ (List.mem_range.mp hr))
  case setDigit a b c f =>
    obtain ⟨-, hb, -⟩ := hchecks
    simp only [commandSetDigit, hs]
    exact rowOps_rowsFollowShadow _ _ hb
  case setChar a b c f =>
    obtain ⟨-, hb⟩ := hchecks
    simp only [commandSetChar, hs]
    exact rowOps_rowsFollowShadow _ _ hb
  case getDeviceCount => exact .nil

/-- Settles O45: the list of every accepted command is put together from lists in which the rows follow the shadow. -/
theorem shadowIsWrittenBeforeTheWire : Obligations.ShadowIsWrittenBeforeTheWire := by
  unfold Obligations.ShadowIsWrittenBeforeTheWire
  intro i c s k d r x hi hs ha hr hk
  obtain ⟨j, _, hkj, hj, wdata, wmask, rfl, hx⟩ := commandOf_rowsFollowShadow hi hs ha k d r x hr hk
  exact ⟨j, wdata, wmask, hkj, hj, hx⟩

end Sys2Proof.Machine
end

section
/-! Encoding and decoding (30_encoding.md R80 to R94): the round trip, and which command words are illegal. -/

namespace Sys2Proof.Machine

/-! ### The round trip -/

/-- Settles O1: the fields of an encoded word read back, format by format, for each instruction. -/
theorem wellFormedInstructionsDecodeBack : Obligations.WellFormedInstructionsDecodeBack := by
  unfold Obligations.WellFormedInstructionsDecodeBack
  intro i
  cases i with
  | noop d v => exact Laws.RoundTrip.noop d v
  | digit0 d v => exact Laws.RoundTrip.digit0 d v
  | digit1 d v => exact Laws.RoundTrip.digit1 d v
  | digit2 d v => exact Laws.RoundTrip.digit2 d v
  | digit3 d v => exact Laws.RoundTrip.digit3 d v
  | digit4 d v => exact Laws.RoundTrip.digit4 d v
  | digit5 d v => exact Laws.RoundTrip.digit5 d v
  | digit6 d v => exact Laws.RoundTrip.digit6 d v
  | digit7 d v => exact Laws.RoundTrip.digit7 d v
  | decodeMode d v => exact Laws.RoundTrip.decodeMode d v
  | intensity d v => exact Laws.RoundTrip.intensity d v
  | scanLimit d v => exact Laws.RoundTrip.scanLimit d v
  | shutdownOp d v => exact Laws.RoundTrip.shutdownOp d v
  | rsvd13 d v => exact Laws.RoundTrip.rsvd13 d v
  | rsvd14 d v => exact Laws.RoundTrip.rsvd14 d v
  | displayTest d v => exact Laws.RoundTrip.displayTest d v
  | init a => exact Laws.RoundTrip.init a
  | shutdown a f => exact Laws.RoundTrip.shutdown a f
  | setScanLimit a c => exact Laws.RoundTrip.setScanLimit a c
  | setIntensity a c => exact Laws.RoundTrip.setIntensity a c
  | clearDisplay a => exact Laws.RoundTrip.clearDisplay a
  | setLed a b c f => exact Laws.RoundTrip.setLed a b c f
  | setRow a b c => exact Laws.RoundTrip.setRow a b c
  | setColumn a b c => exact Laws.RoundTrip.setColumn a b c
  | setDigit a b c f => exact Laws.RoundTrip.setDigit a b c f
  | setChar a b c f => exact Laws.RoundTrip.setChar a b c f
  | getDeviceCount => exact Laws.RoundTrip.getDeviceCount

/-- Settles O4: each word is decoded by evaluating the decoder on its bits. -/
theorem sampleWordsDecode : Obligations.SampleWordsDecode := by
  unfold Obligations.SampleWordsDecode
  exact ⟨by decide, by decide, by decide, by decide, by decide, by decide, by decide, by decide⟩

/-! ### Illegal command words -/

theorem decodeCommand_reservedBits {w : CmdWord} (h : w.extractLsb' 25 3 ≠ 0#3) :
    decodeCommand w = .illegal (.reservedBits (w.extractLsb' 25 3)) := by
  rw [decodeCommand, if_neg h]

/-- A word is illegal exactly when RSV is not 0 or CMD is 0 or 12 to 15 (30_encoding.md R94). -/
theorem decodeCommand_illegal_iff {w : CmdWord} : (∃ e, decodeCommand w = .illegal e) ↔
    (w.extractLsb' 25 3 ≠ 0#3 ∨ (w.extractLsb' 28 4).toNat = 0 ∨ 12 ≤ (w.extractLsb' 28 4).toNat) := by
  by_cases hrsv : w.extractLsb' 25 3 = 0#3
  · rw [decodeCommand, if_pos hrsv]
    split
    case h_12 =>
      simp only [imp_false] at *
      exact iff_of_true ⟨_, rfl⟩ (.inr (by omega))
    all_goals simp [*]
  · simp [decodeCommand_reservedBits hrsv, hrsv]

/-- The legal words with CMD 6, 8 and 11 are the commands that need the shadow (30_encoding.md R94). -/
theorem checksPass_hasShadow {w : CmdWord} {i : Instr} (hi : decodeCommand w = .ok i)
    (hcmd : (w.extractLsb' 28 4).toNat = 6 ∨ (w.extractLsb' 28 4).toNat = 8 ∨ (w.extractLsb' 28 4).toNat = 11)
    {s : State} (h : ChecksPass s i) : s.params.hasShadow = true := by
  unfold decodeCommand at hi
  split at hi
  · obtain hcmd | hcmd | hcmd := hcmd <;> rw [hcmd] at hi <;> obtain rfl := Decoded.ok.inj hi
    · exact h.1
    · exact h.1
    · exact h
  · cases hi

end Sys2Proof.Machine
end

section
/-! Taking a word (30_encoding.md R90, R94, 43_controller_config.md R175 to R182): what an idle block does with the word presented,
in either form of the acceptance, and that a busy block leaves it waiting. -/

namespace Sys2Proof.Machine

/-! ### An idle block -/

section Idle

variable {s : State} {w : CmdWord} {rest : List Input} (hb : s.busy = false)

include hb

theorem step_of_command (hin : s.inputs = .command w :: rest) :
    step s = runWord w { s with rspValid := false, inputs := rest } := by
  simp [step, stepBody, hin, hb]

theorem step_of_accept (hin : s.inputs = .accept w :: rest) :
    step s = .next (acceptWord w { s with rspValid := false, inputs := rest }) := by
  simp [step, stepBody, hin, hb]

end Idle

theorem runWord_ok {w : CmdWord} {i : Instr} (hi : decodeCommand w = .ok i) (s : State) :
    runWord w s = exec i { s with cw := w } := by
  rw [runWord, hi]

/-- Settles O5: the word presented runs as its instruction. -/
theorem stepRunsTheDecodedCommand : Obligations.StepRunsTheDecodedCommand := by
  unfold Obligations.StepRunsTheDecodedCommand
  intro s w rest i hb hin hi
  rw [step_of_command hb hin, runWord_ok hi]

/-! ### A word that is dropped -/

/-- The word `w` only enters CW in `s`: it is illegal, or a check of its command fails (30_encoding.md R94,
43_controller_config.md R175). -/
def Drops (w : CmdWord) (s : State) : Prop := ∀ i, decodeCommand w = .ok i → ¬ ChecksPass { s with cw := w } i

theorem Drops.of_illegal {w : CmdWord} (h : ∃ e, decodeCommand w = .illegal e) (s : State) : Drops w s := by
  intro i hi
  obtain ⟨e, he⟩ := h
  cases he.symm.trans hi

theorem Drops.of_fails {w : CmdWord} {i : Instr} {s : State} (hi : decodeCommand w = .ok i)
    (h : ¬ ChecksPass { s with cw := w } i) : Drops w s := by
  intro j hj
  obtain rfl := Decoded.ok.inj (hi.symm.trans hj)
  exact h

theorem Drops.acceptWord {w : CmdWord} {s : State} (h : Drops w s) : acceptWord w s = { s with cw := w } := by
  obtain hw | ⟨i, c, hi, hc, ha, -⟩ := acceptWord_cases w s
  · exact hw
  · exact absurd ((accepts_iff hc).mp ha) (h i hi)

theorem Drops.runWord {w : CmdWord} {s : State} (h : Drops w s) : runWord w s = .next { s with cw := w } := by
  cases hd : decodeCommand w with
  | illegal e => rw [Machine.runWord, hd]; rfl
  | ok i =>
    obtain ⟨c, hc⟩ := decodeCommand_host hd
    have ha : c.accepts { s with cw := w } = false :=
      Bool.eq_false_iff.mpr fun ha => h i hd ((accepts_iff hc).mp ha)
    rw [runWord_ok hd, exec_dropped hc ha]

/-- In either form of the acceptance, the step that takes a word that drops only takes it (60_exceptions.md R220). -/
theorem Drops.step {w : CmdWord} {s : State} {rest : List Input} (hb : s.busy = false)
    (hin : s.inputs = .command w :: rest ∨ s.inputs = .accept w :: rest)
    (h : Drops w { s with rspValid := false, inputs := rest }) :
    step s = .next { s with inputs := rest, cw := w, rspValid := false } := by
  obtain hin | hin := hin
  · rw [step_of_command hb hin, h.runWord]
  · rw [step_of_accept hb hin, h.acceptWord]

/-- Settles O3: an illegal word drops, and without the shadow so do the commands that need it. -/
theorem illegalWordsAreAcceptedAndDropped : Obligations.IllegalWordsAreAcceptedAndDropped := by
  unfold Obligations.IllegalWordsAreAcceptedAndDropped
  intro w
  refine ⟨decodeCommand_illegal_iff, fun s rest hb hin hdrop => Drops.step hb hin ?_⟩
  obtain hillegal | ⟨hs, hcmd⟩ := hdrop
  · exact .of_illegal hillegal _
  · intro i hi hpass
    have hs' : s.params.hasShadow = true := checksPass_hasShadow hi hcmd hpass
    simp [hs] at hs'

/-! ### The acceptance of a command that runs -/

theorem rowOps_ne_nil (hs : Bool) (d r : Nat) (v : Byte) : rowOps hs d r v ≠ [] := by simp [rowOps]

theorem initDeviceOps_ne_nil (hs : Bool) (d : Nat) : initDeviceOps hs d ≠ [] := by simp [initDeviceOps]

theorem range_flatMap_ne_nil {α : Type} {n : Nat} {f : Nat → List α} (hn : 0 < n) (hf : f 0 ≠ []) :
    (List.range n).flatMap f ≠ [] := fun h => hf (List.flatMap_eq_nil_iff.mp h 0 (List.mem_range.mpr hn))

/-- Of the commands only GETDEVICECOUNT has no micro-operations (43_controller_config.md R176, R182). -/
theorem commandOf_ops_ne_nil {i : Instr} {c : Command} (hi : commandOf i = some c) (hne : i ≠ .getDeviceCount) (s : State) :
    c.ops (c.immediate s) ≠ [] := by
  cases i <;> simp only [commandOf, Option.some.injEq, reduceCtorEq] at hi <;> subst hi
  case init a => exact range_flatMap_ne_nil (one_le_clampLength a) (initDeviceOps_ne_nil _ 0)
  case shutdown => exact List.cons_ne_nil _ _
  case setScanLimit => exact List.cons_ne_nil _ _
  case setIntensity => exact List.cons_ne_nil _ _
  case clearDisplay => exact range_flatMap_ne_nil (by decide) (rowOps_ne_nil _ _ _ _)
  case setLed => exact List.cons_ne_nil _ _
  case setRow => exact rowOps_ne_nil _ _ _ _
  case setColumn => exact range_flatMap_ne_nil (by decide) (List.cons_ne_nil _ _)
  case setDigit => exact rowOps_ne_nil _ _ _ _
  case setChar => exact rowOps_ne_nil _ _ _ _
  case getDeviceCount => exact absurd rfl hne

theorem acceptWord_ok {w : CmdWord} {i : Instr} {c : Command} (hi : decodeCommand w = .ok i) (hc : commandOf i = some c)
    (s : State) : acceptWord w s = c.begin { s with cw := w } := by
  simp only [acceptWord, hi, hc]

/-- A command with micro-operations whose checks pass is begun (30_encoding.md R90, 10_state.md R29, R30). -/
theorem Command.begin_busy {i : Instr} {c : Command} (hc : commandOf i = some c) (hne : i ≠ .getDeviceCount) {s : State}
    (h : ChecksPass s i) : c.begin s = { c.immediate s with busy := true, uop := 0#8, pos := 0#9 } := by
  rw [Command.begin, if_pos ((accepts_iff hc).mpr h)]
  split
  next hnil => exact absurd hnil (commandOf_ops_ne_nil hc hne s)
  next => rfl

/-- GETDEVICECOUNT completes in the step of its acceptance (43_controller_config.md R182). -/
theorem begin_getDeviceCount {s : State} (h : ChecksPass s .getDeviceCount) :
    commandGetDeviceCount.begin s = { s with rsp := BitVec.ofNat 8 s.n.val, rspValid := true } := by
  rw [Command.begin, if_pos ((accepts_iff (i := .getDeviceCount) rfl).mpr h)]
  rfl

/-- `clamp` saturates (30_encoding.md R97; log 8). -/
theorem clampLength_val (a : Byte) :
    (clampLength a).val = if a.toNat = 0 then 1 else if a.toNat ≤ 8 then a.toNat else 8 := by
  unfold clampLength
  split_ifs <;> rfl

/-- Of the commands only INIT and GETDEVICECOUNT write anything at once. -/
theorem immediate_eq_self {i : Instr} {c : Command} (hc : commandOf i = some c) (hne : i ≠ .getDeviceCount)
    (hinit : ∀ a, i ≠ .init a) (s : State) : c.immediate s = s := by
  obtain him | ⟨a, ha, -⟩ | ⟨hg, -⟩ := commandOf_immediate hc s
  · exact him
  · exact absurd ha (hinit a)
  · exact absurd hg hne

/-- Settles O56: a word that drops only enters CW; any other word begins its command. -/
theorem acceptanceIsOneStep : Obligations.AcceptanceIsOneStep := by
  unfold Obligations.AcceptanceIsOneStep
  intro s w rest hb hin u
  refine ⟨fun he => (Drops.of_illegal he _).step hb (.inr hin), fun i hi => ?_⟩
  obtain ⟨c, hc⟩ := decodeCommand_host hi
  have hstep : step s = .next (c.begin u) := (step_of_accept hb hin).trans (congrArg _ (acceptWord_ok hi hc _))
  refine ⟨fun hfail => (Drops.of_fails hi hfail).step hb (.inr hin), ?_, ?_, ?_⟩
  · rintro hpass rfl
    obtain rfl := Option.some.inj hc
    rw [hstep, begin_getDeviceCount hpass]
  · rintro a hpass rfl
    refine ⟨clampLength a, clampLength_val a, ?_⟩
    rw [hstep, Command.begin_busy hc (by simp) hpass]
    obtain rfl := Option.some.inj hc
    rfl
  · intro hpass hne hinit
    rw [hstep, Command.begin_busy hc hne hpass, immediate_eq_self hc hne hinit]

/-! ### A busy block -/

/-- Settles O9: a busy block that is presented a word makes a small step, which keeps the inputs and CW. -/
theorem busyBlockLeavesTheWordWaiting : Obligations.BusyBlockLeavesTheWordWaiting := by
  unfold Obligations.BusyBlockLeavesTheWordWaiting
  intro s t w rest hb hin hstep
  have hwaits : s.TakesNoWord s.inputs := .inr (.inr ⟨⟨w, rest, hin⟩, rfl⟩)
  have hf := smallStep_frame ((step_takesNoWord hb hwaits).symm.trans hstep)
  exact ⟨hf.inputs, hf.cw, by simp [State.cmdReady, hb]⟩

end Sys2Proof.Machine
end

section
/-! Placed words run next (log 19): a command word on the port of an idle block, and a pair in device 0 at the last pin write of a
frame. -/

namespace Sys2Proof.Machine

/-! ### What a device register reads after a write, and the wire opcode a pair decodes to -/

theorem writeDreg_dreg (s : State) (d : Nat) (a : DevReg) (v : Byte) (e : Nat) (b : DevReg) :
    (s.writeDreg d a v).dreg e b = if e = d ∧ b = a then (s.chain[e]?).map (fun _ => v) else s.dreg e b := by
  rw [State.dreg, State.writeDreg, List.getElem?_modify, Option.map_eq_map, Option.map_map, State.dreg]
  by_cases he : d = e
  · by_cases hb : b = a <;> simp [he, hb, Function.comp_def, DeviceRegs.get_set]
  · simp [he, Ne.symm he, Function.comp_def]

/-- A pair's opcode field selects the register that takes its data byte, or none (42_wire_opcodes.md R150 to R166). -/
theorem exec_decodePair (d : Nat) (p : Pair) (s : State) : exec (decodePair d p) s =
    .next ((DevReg.ofOpcode (p.extractLsb' 8 4)).elim s fun a => s.writeDreg d a (p.extractLsb' 0 8)) := by
  have hlt : (p.extractLsb' 8 4).toNat < 16 := (p.extractLsb' 8 4).isLt
  unfold decodePair DevReg.ofOpcode
  generalize (p.extractLsb' 8 4).toNat = op at hlt
  interval_cases op <;> rfl

/-- What device register `b` of device `e` holds after device `d` executed the pair `p`. -/
theorem exec_decodePair_dreg (d : Nat) (p : Pair) (s : State) : ∃ v, exec (decodePair d p) s = .next v ∧
    ∀ e b, v.dreg e b =
      if e = d ∧ DevReg.ofOpcode (p.extractLsb' 8 4) = some b then (s.chain[e]?).map (fun _ => p.extractLsb' 0 8)
      else s.dreg e b := by
  refine ⟨_, exec_decodePair d p s, fun e b => ?_⟩
  cases DevReg.ofOpcode (p.extractLsb' 8 4) with
  | none => simp
  | some a => simp [writeDreg_dreg, eq_comm]

/-! ### A command word -/

theorem ofNat_toNat_mod {k : Nat} (w : BitVec k) : BitVec.ofNat k (w.toNat % 2 ^ k) = w := by
  rw [Nat.mod_eq_of_lt w.isLt, BitVec.ofNat_toNat, BitVec.setWidth_eq]

theorem withFetchWord_command (s : State) (w : CmdWord) : s.withFetchWord 32 w.toNat = placeCommand w s := by
  rw [State.withFetchWord, placeWord, if_neg (by decide), ofNat_toNat_mod]

theorem step_placeCommand {w : CmdWord} {i : Instr} (hi : decodeCommand w = .ok i) (s : State) :
    step (placeCommand w s) = exec i { s with busy := false, uop := 0#8, pos := 0#9, cw := w, rspValid := false } := by
  rw [step_of_command (s := placeCommand w s) rfl rfl, runWord_ok hi]
  rfl

/-! ### A pair -/

theorem withFetchWord_pair (s : State) (p : Pair) : s.withFetchWord 16 p.toNat = placePair p s := by
  rw [State.withFetchWord, placeWord, if_pos (by decide), ofNat_toNat_mod]

theorem placePair_n_pos (p : Pair) (s : State) : 0 < (placePair p s).n.val := by
  simp only [placePair]
  split
  · decide
  · exact Nat.pos_of_ne_zero fun h => ‹¬ s.n = 0› (Fin.ext h)

/-- The block stands at the last pin write of the frame. -/
theorem placePair_pos (p : Pair) (s : State) : (placePair p s).pos.toNat = 48 * (placePair p s).n.val + 1 := by
  have hn := (placePair p s).n.isLt
  have hpos : (placePair p s).pos = BitVec.ofNat 9 (48 * (placePair p s).n.val + 1) := rfl
  rw [hpos, BitVec.toNat_ofNat]
  exact Nat.mod_eq_of_lt (by omega)

/-- The word in CW is SHUTDOWN 0, 0. -/
theorem decodeCommand_shutdown : decodeCommand 0x20000000#32 = .ok (.shutdown 0x00#8 false) := by decide

/-- The transfer the block is in the middle of. -/
theorem placePair_atEntry (p : Pair) (s : State) :
    (placePair p s).AtEntry (commandShutdown 0x00#8 false) (.xfer 0 12#4 (.byte 0x01#8)) where
  command := ⟨.shutdown 0x00#8 false, decodeCommand_shutdown, rfl⟩
  legal o ho := by
    obtain rfl := List.mem_singleton.mp ho
    exact xfer_legal (placePair_n_pos p s) (by decide)
  entry := rfl

/-- The last small step of a transfer latches the chain. -/
theorem smallStep_last {s : State} {c : Command} {u : Nat} {op : Opcode} {x : XferData} (h : s.AtEntry c (.xfer u op x))
    (hp : s.pos.toNat = 48 * s.n.val + 1) (hcs : s.cs = false) :
    ∃ t, smallStep s = .next t ∧ t.chain = s.chain.map Device.latch := by
  rw [h.smallStep_eq]
  refine ⟨_, pinStep_last (by simpa using hp), ?_⟩
  simp [pin, drivePin, hcs, chainLatch]

theorem step_placePair (p : Pair) (s : State) :
    ∃ t, step (placePair p s) = .next t ∧ t.chain = (shiftedChain p s.chain).map Device.latch := by
  have hwaits : (placePair p s).TakesNoWord s.inputs := .inr (.inl rfl)
  have hsame : SameBlock (placePair p s) { placePair p s with rspValid := false, inputs := s.inputs } :=
    ⟨rfl, rfl, rfl, rfl, rfl, rfl, rfl, rfl, rfl, rfl, rfl⟩
  rw [step_takesNoWord rfl hwaits]
  exact smallStep_last ((placePair_atEntry p s).congr hsame) (placePair_pos p s) rfl

/-- Where the other devices hold no-ops, only device 0 writes a register at the latch. -/
theorem shiftedChain_latch_get (p : Pair) (dev : Device) (rest : List Device) (d : Nat) (a : DevReg) :
    (((shiftedChain p (dev :: rest)).map Device.latch)[d]?).map (fun e => e.regs.get a) =
      if d = 0 ∧ DevReg.ofOpcode (p.extractLsb' 8 4) = some a then some (p.extractLsb' 0 8)
      else ((dev :: rest)[d]?).map (fun e => e.regs.get a) := by
  cases d with
  | zero => simp [shiftedChain, latch_get, apply_ite some]
  | succ d =>
    have hnoop : DevReg.ofOpcode 0#4 = none := rfl
    simp [shiftedChain, latch_get, hnoop, Function.comp_def]

/-- Settles O8: the word is on the port of an idle block, and the pair is latched by device 0 alone. -/
theorem placedWordsRunNext : Obligations.PlacedWordsRunNext := by
  unfold Obligations.PlacedWordsRunNext
  refine ⟨fun s w i hi => ?_, fun s p hne => ?_⟩
  · rw [withFetchWord_command, step_placeCommand hi]
  · obtain ⟨dev, rest, hchain⟩ := List.exists_cons_of_ne_nil hne
    obtain ⟨u, hu, hlatch⟩ := step_placePair p s
    obtain ⟨v, hv, hdreg⟩ := exec_decodePair_dreg 0 p s
    refine ⟨u, v, withFetchWord_pair s p ▸ hu, hv, fun d a => ?_⟩
    rw [hdreg, State.dreg, hlatch, hchain, shiftedChain_latch_get, State.dreg, hchain]
    refine if_ctx_congr Iff.rfl (fun hd => ?_) (fun _ => rfl)
    simp [hd.1]

end Sys2Proof.Machine
end

section
/-! One transfer on the pins (41_bus_serializer.md R126 to R128, R133): the rules of `XFER` that the whole frame rests on. -/

namespace Sys2Proof.Machine

/-! ### The level DIN is left at -/

/-- The last bit of a frame is bit 0 of device 0's pair (20_memory.md R58). -/
theorem frameBit_last {n : Nat} (hn : 0 < n) (x : Transfer) :
    frameBit n x (16 * n - 1) = if x.target = 0 then x.data.getLsbD 0 else false := by
  have hdev : n - 1 - (16 * n - 1) / 16 = 0 := by omega
  have hbit : 15 - (16 * n - 1) % 16 = 0 := by omega
  rw [frameBit, hdev, hbit, pairOf, apply_ite (BitVec.getLsbD · 0), encodePair_getLsbD]
  simp [eq_comm]

theorem range_map_getLastD {α : Type} {n : Nat} (hn : 0 < n) (f : Nat → α) (a : α) :
    ((List.range n).map f).getLastD a = f (n - 1) := by
  obtain ⟨m, rfl⟩ : ∃ m, n = m + 1 := ⟨n - 1, by omega⟩
  simp [List.range_succ]

theorem xfer_din {s : State} (hfb : s.fb.wf) (hclk : s.clk = false) (x : Transfer) (hn : 0 < s.n.val) :
    (xfer x s).din = if x.target = 0 then x.data.getLsbD 0 else false := by
  have hbits : frameBits (buildFB x.target x.op x.data s).fb s.n = (List.range (16 * s.n)).map (frameBit s.n x) :=
    frameBits_holds _ (buildFB_holds hfb x)
  obtain ⟨-, -, -, hdin⟩ := runPins_framePins (buildFB x.target x.op x.data s).fb s.n (buildFB x.target x.op x.data s) hclk
  calc (xfer x s).din = (frameBits (buildFB x.target x.op x.data s).fb s.n).getLastD s.din := hdin
    _ = frameBit s.n x (16 * s.n - 1) := by rw [hbits, range_map_getLastD (by omega)]
    _ = _ := frameBit_last hn x

/-! ### What a transfer leaves -/

/-- With `P = N` every device ends with its own pair in its shift register (41_bus_serializer.md R133). -/
theorem xfer_shiftReg {s : State} (hfb : s.fb.wf) (hclk : s.clk = false) (x : Transfer) (hw : s.WiredRight) {d : Nat}
    (hd : d < s.n.val) : (xfer x s).shiftReg d = some (pairOf x d) := by
  have hwired : d < s.chain.length := hw.symm ▸ hd
  rw [State.shiftReg, xfer_getElem hfb hclk, List.getElem?_eq_getElem hwired]
  simp [hd, latch_sr]

theorem xfer_sameControl (x : Transfer) (s : State) : SameControl s (xfer x s) := by
  constructor <;> simp

theorem xfer_pinLog {s : State} (hfb : s.fb.wf) (x : Transfer) :
    (xfer x s).pinLog = s.pinLog ++ transferPins s.n.val x := by
  rw [State.pinLog, xfer_pinTrace, framePins_transfer hfb]
  simp [State.pinLog]

theorem xfer_xferLog (x : Transfer) (s : State) : (xfer x s).xferLog = s.xferLog ++ [x] := by
  simp [State.xferLog]

/-- The frame buffer above the devices' bytes is not touched (20_memory.md R67). -/
theorem xfer_fb_above {s : State} (hfb : s.fb.wf) {x : Transfer} (ht : x.target < s.n.val) {a : Nat}
    (ha : 2 * s.n.val ≤ a) : (xfer x s).fb.read a = s.fb.read a := by
  rw [xfer_fb, buildFB_read hfb, if_neg (by omega), if_neg (by omega), if_neg (by omega)]

theorem xfer_afterTransfer {s : State} (hfb : s.fb.wf) (hclk : s.clk = false) {x : Transfer} (ht : x.target < s.n.val) :
    AfterTransfer s (xfer x s) x where
  pins := xfer_pins x s hclk
  din := xfer_din hfb hclk x (Nat.zero_lt_of_lt ht)
  buffer := by
    rw [xfer_n, xfer_fb]
    exact buildFB_holds hfb x
  otherBytes a ha := xfer_fb_above hfb ht (by rwa [xfer_n] at ha)
  shiftRegs hw d hd := by
    rw [State.WiredRight, chain_length_xfer, xfer_n] at hw
    rw [xfer_n] at hd
    exact xfer_shiftReg hfb hclk x hw hd

/-- Settles O15: the logs, FB, the pins and the rest of the block, each by its rule. -/
theorem transferWritesThePinsInOrder : Obligations.TransferWritesThePinsInOrder := by
  unfold Obligations.TransferWritesThePinsInOrder
  intro s x hfb hclk ht
  exact ⟨xfer_xferLog x s, xfer_pinLog hfb x, xfer_afterTransfer hfb hclk ht, xfer_sameControl x s, xfer_srf x s⟩

end Sys2Proof.Machine
end

section
/-! What the commands send (30_encoding.md R85, 42_wire_opcodes.md R167): every transfer of a command's list is of one of five
kinds. -/

namespace Sys2Proof.Machine

/-- The transfers the instruction `i` may have in its list: a row, a scan limit, INIT's decode mode and display test off,
SETINTENSITY's operand, the two shutdown values. -/
inductive MaySend (i : Instr) : Opcode → XferData → Prop
  | row {r : Nat} {x : XferData} (hr : r ≤ 7) : MaySend i (rowOpcode r) x
  | scanLimit {x : XferData} : MaySend i 11#4 x
  | initControl {a : Byte} {op : Opcode} (hi : i = .init a) (hop : op = 9#4 ∨ op = 15#4) : MaySend i op (.byte 0x00#8)
  | intensity {a v : Byte} (hi : i = .setIntensity a v) : MaySend i 10#4 (.byte v)
  | shutdown {v : Byte} (hv : v = 0x00#8 ∨ v = 0x01#8) : MaySend i 12#4 (.byte v)

/-- Every transfer of the list is one the instruction may send. -/
def SendsOnly (i : Instr) (ops : List MicroOp) : Prop :=
  ∀ (t : Nat) (op : Opcode) (x : XferData), .xfer t op x ∈ ops → MaySend i op x

/-! ### The lists of the commands -/

section lists

variable {i : Instr}

theorem SendsOnly.nil : SendsOnly i [] := by
  intro t op x h
  cases h

theorem SendsOnly.cons_shWrite {d r : Nat} {wdata wmask : Byte} {ops : List MicroOp} (h : SendsOnly i ops) :
    SendsOnly i (.shWrite d r wdata wmask :: ops) := by
  intro t op x hmem
  exact h t op x (by simpa using hmem)

theorem SendsOnly.cons_xfer {t : Nat} {op : Opcode} {x : XferData} {ops : List MicroOp} (hx : MaySend i op x)
    (h : SendsOnly i ops) : SendsOnly i (.xfer t op x :: ops) := by
  intro u o y hmem
  obtain heq | hmem := List.mem_cons.mp hmem
  · obtain ⟨-, rfl, rfl⟩ := MicroOp.xfer.inj heq
    exact hx
  · exact h u o y hmem

theorem SendsOnly.append {ops ops' : List MicroOp} (h : SendsOnly i ops) (h' : SendsOnly i ops') :
    SendsOnly i (ops ++ ops') := fun t op x hmem => (List.mem_append.mp hmem).elim (h t op x) (h' t op x)

theorem SendsOnly.flatMap {α : Type} {l : List α} {f : α → List MicroOp} (h : ∀ a ∈ l, SendsOnly i (f a)) :
    SendsOnly i (l.flatMap f) := by
  intro t op x hmem
  obtain ⟨a, ha, hmem⟩ := List.mem_flatMap.mp hmem
  exact h a ha t op x hmem

theorem rowOps_sendsOnly (hs : Bool) (d : Nat) {r : Nat} (v : Byte) (hr : r ≤ 7) : SendsOnly i (rowOps hs d r v) := by
  cases hs with
  | false => exact .cons_xfer (.row hr) .nil
  | true => exact .cons_shWrite (.cons_xfer (.row hr) .nil)

theorem ledOps_sendsOnly (d : Nat) {r : Nat} (c : Nat) (on : Bool) (hr : r ≤ 7) : SendsOnly i (ledOps d r c on) :=
  .cons_shWrite (.cons_xfer (.row hr) .nil)

theorem clearOps_sendsOnly (hs : Bool) (d : Nat) : SendsOnly i (clearOps hs d) :=
  .flatMap fun _ hr => rowOps_sendsOnly hs d _ (Nat.le_of_lt_succ (List.mem_range.mp hr))

theorem initDeviceOps_sendsOnly {a : Byte} (hi : i = .init a) (hs : Bool) (d : Nat) : SendsOnly i (initDeviceOps hs d) :=
  have before : SendsOnly i [.xfer d 15#4 (.byte 0x00#8), .xfer d 11#4 (.byte 0x07#8), .xfer d 9#4 (.byte 0x00#8)] :=
    .cons_xfer (.initControl hi (.inr rfl)) (.cons_xfer .scanLimit (.cons_xfer (.initControl hi (.inl rfl)) .nil))
  have after : SendsOnly i [.xfer d 12#4 (.byte 0x00#8)] := .cons_xfer (.shutdown (.inl rfl)) .nil
  (before.append (clearOps_sendsOnly hs d)).append after

end lists

theorem shutdownData_cases (f : Bool) : shutdownData f = 0x00#8 ∨ shutdownData f = 0x01#8 := by
  cases f
  · exact .inr rfl
  · exact .inl rfl

theorem commandOf_sendsOnly {i : Instr} {c : Command} (hi : commandOf i = some c) {s : State} (h : c.accepts s = true) :
    SendsOnly i (c.ops (c.immediate s)) := by
  have hchecks := (accepts_iff hi).mp h
  cases i <;> simp only [commandOf, Option.some.injEq, reduceCtorEq] at hi <;> subst hi
  case init a => exact .flatMap fun d _ => initDeviceOps_sendsOnly rfl _ d
  case shutdown a f => exact .cons_xfer (.shutdown (shutdownData_cases f)) .nil
  case setScanLimit a c => exact .cons_xfer .scanLimit .nil
  case setIntensity a c => exact .cons_xfer (.intensity rfl) .nil
  case clearDisplay a => exact clearOps_sendsOnly _ _
  case setLed a b c f =>
    obtain ⟨-, -, hb, -⟩ := hchecks
    exact ledOps_sendsOnly _ _ _ hb
  case setRow a b c => exact rowOps_sendsOnly _ _ _ hchecks.2
  case setColumn a b c =>
    exact .flatMap fun r hr => ledOps_sendsOnly _ _ _ (Nat.le_of_lt_succ (List.mem_range.mp hr))
  case setDigit a b c f =>
    obtain ⟨-, hb, -⟩ := hchecks
    exact rowOps_sendsOnly _ _ _ hb
  case setChar a b c f => exact rowOps_sendsOnly _ _ _ hchecks.2
  case getDeviceCount => exact .nil

/-! ### What the five kinds are -/

/-- A row's opcode is 1 to 8 (30_encoding.md R95). -/
theorem rowOpcode_ne {r : Nat} (hr : r ≤ 7) {op : Opcode} (hop : 8 < op.toNat) : rowOpcode r ≠ op := by
  intro h
  have := rowOpcode_toNat hr
  rw [h] at this
  omega

theorem ofOpcode_isSome_iff {op : Opcode} : (DevReg.ofOpcode op).isSome = true ↔ op ≠ 0#4 ∧ op ≠ 13#4 ∧ op ≠ 14#4 := by
  revert op
  decide

section MaySend

variable {i : Instr} {op : Opcode} {x : XferData} (h : MaySend i op x)

include h

theorem MaySend.isSome : (DevReg.ofOpcode op).isSome = true := by
  cases h with
  | @row r _ hr =>
    have hpos : rowOpcode r ≠ 0#4 := fun h0 => by simpa [h0] using rowOpcode_toNat hr
    exact ofOpcode_isSome_iff.mpr ⟨hpos, rowOpcode_ne hr (by decide), rowOpcode_ne hr (by decide)⟩
  | initControl _ hop => obtain rfl | rfl := hop <;> rfl
  | scanLimit => rfl
  | intensity => rfl
  | shutdown => rfl

theorem MaySend.init_of_control (hop : op = 9#4 ∨ op = 15#4) : (∃ a, i = .init a) ∧ x = .byte 0x00#8 := by
  cases h with
  | row hr => exact absurd hop (not_or.mpr ⟨rowOpcode_ne hr (by decide), rowOpcode_ne hr (by decide)⟩)
  | initControl hi _ => exact ⟨⟨_, hi⟩, rfl⟩
  | scanLimit => simp at hop
  | intensity => simp at hop
  | shutdown => simp at hop

theorem MaySend.setIntensity_of_intensity (hop : op = 10#4) : ∃ a v, i = .setIntensity a v ∧ x = .byte v := by
  cases h with
  | row hr => exact absurd hop (rowOpcode_ne hr (by decide))
  | initControl _ hop' => simp [hop] at hop'
  | scanLimit => simp at hop
  | intensity hi => exact ⟨_, _, hi, rfl⟩
  | shutdown => simp at hop

theorem MaySend.data_of_shutdown (hop : op = 12#4) : ∃ v, x = .byte v ∧ (v = 0x00#8 ∨ v = 0x01#8) := by
  cases h with
  | row hr => exact absurd hop (rowOpcode_ne hr (by decide))
  | initControl _ hop' => simp [hop] at hop'
  | scanLimit => simp at hop
  | intensity => simp at hop
  | shutdown hv => exact ⟨_, rfl, hv⟩

end MaySend

theorem target_lt_of_legal {n t : Nat} {op : Opcode} {x : XferData} (h : (MicroOp.xfer t op x).illegal n = none) : t < n := by
  by_contra hn
  rw [MicroOp.illegal, if_pos (Nat.le_of_not_lt hn)] at h
  cases h

/-- Settles O46: a transfer of an accepted command may run and is of one of the five kinds. -/
theorem commandsSendOnlyAssignedOpcodes : Obligations.CommandsSendOnlyAssignedOpcodes := by
  unfold Obligations.CommandsSendOnlyAssignedOpcodes
  intro i c s t op x hi ha hmem
  have hsend := commandOf_sendsOnly hi ha t op x hmem
  exact ⟨target_lt_of_legal (commandOf_legal hi ha _ hmem), hsend.isSome, hsend.init_of_control,
    hsend.setIntensity_of_intensity, hsend.data_of_shutdown⟩

end Sys2Proof.Machine
end

section
/-! The Segment Encoder (40_segment_encoder.md R112 to R120): two lookups in one table, and the merging of the decimal point. -/

namespace Sys2Proof.Machine

/-! ### The decimal point -/

@[simp] theorem withPoint_false (v : Byte) : withPoint v false = v := by
  simp [withPoint]

/-- The point is lit whatever the table holds (40_segment_encoder.md R120). -/
@[simp] theorem getLsbD_withPoint_true (v : Byte) : (withPoint v true).getLsbD 7 = true := by
  simp [withPoint]

/-! ### The two lookups -/

section Lookups

variable {p : Params}

/-- One table for both functions (40_segment_encoder.md R119): widening a digit to a code keeps the index. -/
theorem encChar_setWidth (v : BitVec 4) : encChar p (v.setWidth 7) = encDigit p v := by
  have hindex : (v.setWidth 7).toNat = v.toNat := BitVec.toNat_setWidth_of_le (by decide)
  simp only [encChar, encDigit, hindex]

theorem getLsbD_encDigit_of_segP4 (hp : p.SegP4) (v : BitVec 4) : (encDigit p v).getLsbD 7 = false :=
  hp ⟨v.toNat, by omega⟩

theorem getLsbD_encChar_of_segP4 (hp : p.SegP4) (c : BitVec 7) : (encChar p c).getLsbD 7 = false :=
  hp ⟨c.toNat, by omega⟩

/-! ### The patterns the callers send -/

/-- A code above the table's domain is looked up as the space (30_encoding.md R98). -/
theorem charPattern_of_gt {c : Byte} (hc : 127 < c.toNat) (dp : Bool) : charPattern p c dp = withPoint p.segRom[32] dp := by
  have hsubst : substituteCode c = 32#8 := if_pos hc
  rw [charPattern, hsubst]
  rfl

theorem digitPattern_of_segP1 (hp : p.SegP1) :
    digitPattern p 0#8 false = 0x7E#8 ∧ digitPattern p 1#8 false = 0x30#8 ∧ digitPattern p 8#8 true = 0xFF#8 := by
  obtain ⟨h0, h1, h8⟩ := hp
  have e0 : encDigit p 0#4 = 0x7E#8 := h0
  have e1 : encDigit p 1#4 = 0x30#8 := h1
  have e8 : encDigit p 8#4 = 0x7F#8 := h8
  simp [digitPattern, e0, e1, e8, withPoint]

theorem charPattern_of_segP3 (hp : p.SegP3) {c : Byte} (hc : 127 < c.toNat) :
    charPattern p c false = 0x00#8 ∧ charPattern p c true = 0x80#8 := by
  have hpattern (dp : Bool) : charPattern p c dp = withPoint 0x00#8 dp :=
    (charPattern_of_gt hc dp).trans (congrArg (withPoint · dp) hp)
  exact ⟨hpattern false, hpattern true⟩

end Lookups

/-- Settles O33: each lookup reads one entry of the table, and only the merging of the point touches bit 7. -/
theorem segmentEncoderReadsOneTable : Obligations.SegmentEncoderReadsOneTable := by
  unfold Obligations.SegmentEncoderReadsOneTable
  intro p
  refine ⟨encChar_setWidth, digitPattern_of_segP1, fun hp _ => charPattern_of_segP3 hp, fun hp c => ?_, fun c => ?_⟩
  · rw [charPattern, digitPattern, withPoint_false, withPoint_false]
    exact ⟨getLsbD_encChar_of_segP4 hp _, getLsbD_encDigit_of_segP4 hp _⟩
  · exact ⟨getLsbD_withPoint_true _, getLsbD_withPoint_true _⟩

end Sys2Proof.Machine
end

section
/-! What one pin write does to the chain: a rising edge of CLK moves it on by one bit, a rising edge of CS latches it, and no other
write reaches it (41_bus_serializer.md R126, R131). -/

namespace Sys2Proof.Machine

/-! ### One pin write -/

/-- The chain answers to the two rising edges alone. -/
theorem pin_chain (w : PinWrite) (s : State) : (pin w s).chain =
    if w = ⟨.clk, true⟩ ∧ s.clk = false then (chainShift s).chain
    else if w = ⟨.cs, true⟩ ∧ s.cs = false then (chainLatch s).chain
    else s.chain := by
  obtain ⟨p, v⟩ := w
  cases p with
  | cs => simp [pin, drivePin, apply_ite State.chain, chainLatch, and_comm]
  | clk => simp [pin, drivePin, apply_ite State.chain, chainShift, and_comm]
  | din => simp [pin, drivePin]

/-- Settles O13: the log and the three pins, each by its rule, and the chain by the rule of the two edges. -/
theorem pinWritesAreRecordedAndOnlyRisingEdgesAct : Obligations.PinWritesAreRecordedAndOnlyRisingEdgesAct := by
  unfold Obligations.PinWritesAreRecordedAndOnlyRisingEdgesAct
  intro s w
  refine ⟨by simp [State.pinLog], pin_cs s w, pin_clk s w, pin_din s w, fun hw hclk => ?_, fun hw hcs => ?_,
    fun hclk hcs => ?_⟩
  · rw [pin_chain, if_pos ⟨hw, hclk⟩]
  · rw [pin_chain, if_neg (by simp [hw]), if_pos ⟨hw, hcs⟩]
  · rw [pin_chain, if_neg hclk, if_neg hcs]

/-! ### One clock edge -/

theorem chainBits_cons (dev : Device) (rest : List Device) :
    chainBits (dev :: rest) = chainBits rest ++ pairBits dev.sr := by
  simp [chainBits]

/-- A clock edge drops the bit of CH at the far end and appends its serial input at the near end. -/
theorem chainBits_shiftDevices (b : Bool) (ds : List Device) :
    chainBits (shiftDevices b ds) = (chainBits ds ++ [b]).tail := by
  induction ds generalizing b with
  | nil => rfl
  | cons dev rest ih =>
    calc chainBits (shiftDevices b (dev :: rest))
        = (chainBits rest ++ [dev.sr.getLsbD 15]).tail ++ ((pairBits dev.sr).tail ++ [b]) := by
          rw [shiftDevices, chainBits_cons, ih, pairBits_shiftConcat]
      _ = (chainBits rest ++ (dev.sr.getLsbD 15 :: (pairBits dev.sr).tail) ++ [b]).tail := by
          rw [← List.tail_append_of_ne_nil (by simp)]
          simp
      _ = (chainBits (dev :: rest) ++ [b]).tail := by rw [← pairBits_head, chainBits_cons]

theorem shiftDevices_zero {b : Bool} {ds : List Device} {dev : Device} (h : ds[0]? = some dev) :
    (shiftDevices b ds)[0]? = some { dev with sr := dev.sr.shiftConcat b } := by
  cases ds with
  | nil => simp at h
  | cons first rest =>
    obtain rfl : first = dev := by simpa using h
    rfl

/-- A device takes the bit that leaves the device before it. -/
theorem shiftDevices_succ {ds : List Device} {d : Nat} {dev next : Device} (b : Bool) (h : ds[d]? = some dev)
    (h' : ds[d + 1]? = some next) :
    (shiftDevices b ds)[d + 1]? = some { next with sr := next.sr.shiftConcat (dev.sr.getLsbD 15) } := by
  induction ds generalizing b d with
  | nil => simp at h
  | cons first rest ih =>
    cases d with
    | zero =>
      obtain rfl : first = dev := by simpa using h
      exact shiftDevices_zero h'
    | succ d => exact ih _ h h'

/-- Settles O14: the whole chain by induction along it, the single devices by their places. -/
theorem clockEdgeShiftsTheWholeChain : Obligations.ClockEdgeShiftsTheWholeChain := by
  unfold Obligations.ClockEdgeShiftsTheWholeChain
  intro s
  refine ⟨chainBits_shiftDevices s.din s.chain, shiftDevices_regs s.din s.chain, fun dev h => ?_, fun d dev next h h' => ?_⟩
  · exact congrArg (Option.map Device.sr) (shiftDevices_zero h)
  · exact congrArg (Option.map Device.sr) (shiftDevices_succ s.din h h')

end Sys2Proof.Machine
end

section
/-! The latch is the wire opcodes at work: every device executes the pair it holds, in the step that ends a frame
(41_bus_serializer.md R128, R132; 42_wire_opcodes.md R150 to R166). -/

namespace Sys2Proof.Machine

/-- A device that executes the pair it holds ends as the latch leaves it, and no other device changes. -/
theorem exec_decodePair_chain {s : State} {d : Nat} {dev : Device} (h : s.chain[d]? = some dev) :
    ∃ t, exec (decodePair d dev.sr) s = .next t ∧ t.chain[d]? = some dev.latch ∧
      ∀ e, e ≠ d → t.chain[e]? = s.chain[e]? := by
  refine ⟨_, exec_decodePair d dev.sr s, ?_⟩
  cases hreg : DevReg.ofOpcode (dev.sr.extractLsb' 8 4) with
  | none => exact ⟨by simp [h, Device.latch, hreg], fun _ _ => rfl⟩
  | some a =>
    refine ⟨by simp [State.writeDreg, h, Device.latch, hreg], fun e he => ?_⟩
    simp [State.writeDreg, Ne.symm he]

theorem chainLatch_getElem {s : State} {d : Nat} {dev : Device} (h : s.chain[d]? = some dev) :
    (chainLatch s).chain[d]? = some dev.latch := by
  simp [chainLatch, h]

/-- Settles O7: what the latch does to one device, and that executing the pair does the same. -/
theorem latchIsTheExecutionOfEveryPair : Obligations.LatchIsTheExecutionOfEveryPair := by
  unfold Obligations.LatchIsTheExecutionOfEveryPair
  intro s d dev h
  obtain ⟨t, ht, hself, hothers⟩ := exec_decodePair_chain h
  exact ⟨⟨dev.latch, chainLatch_getElem h, latch_sr dev, latch_get dev⟩,
    t, ht, (chainLatch_getElem h).trans hself.symm, hothers⟩

/-- The small step of the command in CW is that of the entry at UOP; of the list, that entry alone need be one that may run. -/
theorem smallStep_of_entry {s : State} {i : Instr} {c : Command} {op : MicroOp} (hi : decodeCommand s.cw = .ok i)
    (hc : commandOf i = some c) (hentry : (c.ops s)[s.uop.toNat]? = some op) (hlegal : op.illegal s.n = none) :
    smallStep s = op.smallStep (c.ops s).length s := by
  rw [smallStep, hi]
  simp only [hc, opsStep, hentry, hlegal]

/-- The last small step of a transfer raises chip-select, and the chain latches. -/
theorem xferStep_last {len : Nat} {x : Transfer} {s : State} (hp : s.pos.toNat = 48 * s.n.val + 1) (hcs : s.cs = false) :
    ∃ u, xferStep len x s = .next u ∧ u.cs = true ∧ u.chain = (chainLatch s).chain := by
  refine ⟨_, pinStep_last (by simpa using hp), by simp, ?_⟩
  simp [pin_chain, hcs, chainLatch]

/-- Settles O6: the step is the last small step of the transfer, so it latches, and the latch executes every pair. -/
theorem latchStepRunsTheDecodedPairs : Obligations.LatchStepRunsTheDecodedPairs := by
  unfold Obligations.LatchStepRunsTheDecodedPairs
  intro s i c t op x rest hrest hb hcs hi hc hentry ht h13 h14 hp
  have hops : c.ops { s with rspValid := false, inputs := rest } = c.ops s := commandOf_ops hc rfl rfl
  have hstep := (step_takesNoWord hb hrest).trans
    (smallStep_of_entry hi hc (hops ▸ hentry) (xfer_legal ht (not_or.mpr ⟨h13, h14⟩)))
  obtain ⟨u, hu, hucs, hchain⟩ := xferStep_last (s := { s with rspValid := false, inputs := rest }) hp hcs
  change u.chain = (chainLatch s).chain at hchain
  refine ⟨u, hstep.trans hu, hucs, by simp [hchain, chainLatch], fun d dev h => ?_⟩
  obtain ⟨v, hv, hself, -⟩ := exec_decodePair_chain h
  exact ⟨v, hv, by rw [hchain, chainLatch_getElem h, hself]⟩

end Sys2Proof.Machine
end

section
/-! The whole transfer: how many pin writes it makes, what it leaves on a chain wired as long as it was initialised, and which
hand-built transfers run (41_bus_serializer.md R129, R130, R133). -/

namespace Sys2Proof.Machine

/-! ### Counting pin writes -/

/-- Pin writes of a kind that every bit makes `k` times: `k` for each bit of the frame, and those of the two chip-select writes. -/
theorem framePins_countP {p : PinWrite → Bool} {k : Nat} (h : ∀ b, (bitPins b).countP p = k) (fb : Memory) (n : Nat) :
    (framePins fb n).countP p = k * (16 * n) + [⟨.cs, false⟩, ⟨.cs, true⟩].countP p := by
  have hbits : ((frameBits fb n).flatMap bitPins).countP p = k * (16 * n) := by
    simp [List.countP_flatMap, Function.comp_def, h, mul_comm]
  simp only [framePins, List.countP_cons, List.countP_append, List.countP_nil, hbits]
  omega

theorem xfer_pinLog_framePins (x : Transfer) (s : State) :
    (xfer x s).pinLog = s.pinLog ++ framePins (buildFB x.target x.op x.data s).fb s.n := by
  simp [State.pinLog, xfer_pinTrace]

/-- Settles O16: the log grows by the pin writes of the frame, which are counted bit by bit. -/
theorem transferPinCounts : Obligations.TransferPinCounts := by
  unfold Obligations.TransferPinCounts
  intro s x ws hws
  obtain rfl := List.append_cancel_left (hws.symm.trans (xfer_pinLog_framePins x s))
  refine ⟨framePins_length _ _, ?_, ?_, ?_, ?_⟩
  · rw [framePins_countP (k := 1) (by decide)]
    simp
  · rw [framePins_countP (k := 2) (by decide)]
    simp
    omega
  · rw [framePins_countP (k := 1) (by decide)]
    simp
  · rw [framePins_countP (k := 0) (by decide)]
    simp

/-! ### A chain wired as long as it was initialised -/

/-- With `P = N` a transfer writes the register its opcode names in its target, and no other register of any device. -/
theorem xfer_dreg_wired {s : State} (hfb : s.fb.wf) (hclk : s.clk = false) (hw : s.WiredRight) {x : Transfer}
    (ht : x.target < s.n.val) (d : Nat) (a : DevReg) : (xfer x s).dreg d a =
      if d = x.target ∧ DevReg.ofOpcode x.op = some a then some x.data else s.dreg d a := by
  by_cases hd : d < s.n.val
  · have hwired : d < s.chain.length := hw.symm ▸ hd
    rw [xfer_dreg hfb hclk x d hd, List.getElem?_eq_getElem hwired, Option.map_some]
  · have hout : s.chain.length ≤ d := hw.symm ▸ Nat.le_of_not_lt hd
    rw [if_neg (by omega)]
    simp [State.dreg, hout]

/-- Settles O17: the shift registers, the device registers, the pins and the logs, each by its rule. -/
theorem transferResultOnAChainWiredRight : Obligations.TransferResultOnAChainWiredRight := by
  unfold Obligations.TransferResultOnAChainWiredRight
  intro s x hfb hclk hw ht
  have hdreg := xfer_dreg_wired hfb hclk hw ht
  obtain ⟨hcs, hclk'⟩ := xfer_pins x s hclk
  refine ⟨fun d hd => xfer_shiftReg hfb hclk x hw hd, fun a ha => ⟨?_, fun e b hne => ?_⟩, fun hnone d a => ?_, hcs, hclk',
    xfer_din hfb hclk x (Nat.zero_lt_of_lt ht), xfer_pinLog hfb x, xfer_xferLog x s⟩
  · rw [hdreg, if_pos ⟨rfl, ha⟩]
  · rw [hdreg, if_neg]
    rintro ⟨he, hb⟩
    exact hne ⟨he, Option.some.inj (hb.symm.trans ha)⟩
  · rw [hdreg, if_neg (by simp [hnone])]

/-! ### Hand-built transfers -/

theorem runOps_refused {op : MicroOp} {s : State} {r : Refusal} (h : op.illegal s.n = some r) (ops : List MicroOp) :
    runOps (op :: ops) s = .refused r := by
  rw [runOps, List.findSome?_cons, h]

/-- Settles O19: the check of the single entry decides. -/
theorem handBuiltTransfersOutsideThePreconditionAreRefused :
    Obligations.HandBuiltTransfersOutsideThePreconditionAreRefused := by
  unfold Obligations.HandBuiltTransfersOutsideThePreconditionAreRefused
  intro s t op v
  refine ⟨fun ht => runOps_refused ?_ [], fun ht hop => runOps_refused ?_ [], fun ht h13 h14 => ?_⟩
  · rw [MicroOp.illegal, if_pos ht]
  · rw [MicroOp.illegal, if_neg (Nat.not_le.mpr ht), if_pos hop]
  · refine runOps_next fun o ho => ?_
    obtain rfl := List.mem_singleton.mp ho
    exact xfer_legal ht (not_or.mpr ⟨h13, h14⟩)

end Sys2Proof.Machine
end

section
/-! Wire opcodes (42_wire_opcodes.md R150 to R166): every pair decodes, by its lower twelve bits, and what each opcode stores. -/

namespace Sys2Proof.Machine

/-! ### The pair a wire opcode decodes from -/

/-- Clearing the upper four bits of a pair leaves the pair of its opcode field and its data byte (30_encoding.md R80, R81). -/
theorem and_lowTwelveBits (p : Pair) :
    p &&& 0x0FFF#16 = encodePair (p.extractLsb' 8 4) (p.extractLsb' 0 8) := by
  have hmask : ∀ i < 16, (0x0FFF#16 : Pair).getLsbD i = decide (i < 12) := by decide
  refine BitVec.eq_of_getLsbD_eq fun i hi => ?_
  rw [BitVec.getLsbD_and, hmask i hi, encodePair_getLsbD]
  by_cases hdata : i < 8
  · simp [hdata, show i < 12 by omega]
  · by_cases hop : i - 8 < 4
    · simp [hdata, hop, show i < 12 by omega, show 8 + (i - 8) = i by omega]
    · simp [hdata, hop, show ¬ i < 12 by omega]

theorem decodePair_position (d : Nat) (p : Pair) : (decodePair d p).position = d := by
  unfold decodePair
  split <;> rfl

/-- The decoder keeps both fields of a pair: re-encoding gives them back, with the upper four bits 0. -/
theorem encode_decodePair (d : Nat) (p : Pair) :
    encode (decodePair d p) = .pair (encodePair (p.extractLsb' 8 4) (p.extractLsb' 0 8)) := by
  unfold decodePair
  generalize p.extractLsb' 8 4 = op
  obtain ⟨n, hn⟩ := op
  interval_cases n <;> rfl

theorem decodePair_congr {p q : Pair} (hop : p.extractLsb' 8 4 = q.extractLsb' 8 4)
    (hdata : p.extractLsb' 0 8 = q.extractLsb' 0 8) (d : Nat) : decodePair d p = decodePair d q := by
  rw [decodePair, decodePair, hop, hdata]

/-- Settles O2: the decoder reads the opcode field and the data byte, and these are the lower twelve bits. -/
theorem everyPairDecodesByItsLowTwelveBits : Obligations.EveryPairDecodesByItsLowTwelveBits := by
  unfold Obligations.EveryPairDecodesByItsLowTwelveBits
  intro d p
  refine ⟨decodePair_position d p, by rw [encode_decodePair, and_lowTwelveBits], fun q hpq => ?_⟩
  rw [and_lowTwelveBits, and_lowTwelveBits] at hpq
  refine decodePair_congr ?_ ?_ d
  · rw [← encodePair_op (p.extractLsb' 8 4), hpq, encodePair_op]
  · rw [← encodePair_data _ (p.extractLsb' 0 8), hpq, encodePair_data]

/-! ### The register a wire opcode stores -/

section stores

variable {s : State} {d : Nat} {a : DevReg} {v : Byte} {i : Instr}

theorem writeDreg_shiftReg (e : Nat) : (s.writeDreg d a v).shiftReg e = s.shiftReg e := by
  rw [State.shiftReg, State.writeDreg, List.getElem?_modify, Option.map_eq_map, Option.map_map, State.shiftReg]
  by_cases he : d = e <;> simp [he, Function.comp_def]

/-- A write to a register of a wired device changes that register alone. -/
theorem writeDreg_storedOnly (hd : d < s.chain.length) : StoredOnly s (s.writeDreg d a v) d a v where
  dregs :=
    { written := by rw [writeDreg_dreg, if_pos ⟨rfl, rfl⟩, List.getElem?_eq_getElem hd, Option.map_some]
      others := fun e b hne => by rw [writeDreg_dreg, if_neg hne] }
  shiftRegs := writeDreg_shiftReg
  rest := rfl

/-- Where no device is wired nothing is written (70_reset_and_hazards.md R263). -/
theorem writeDreg_unwired (hd : s.chain.length ≤ d) : s.writeDreg d a v = s := by
  rw [State.writeDreg, List.modify_eq_self hd]

theorem exec_storedOnly (hi : exec i s = .next (s.writeDreg d a v)) (hd : d < s.chain.length) :
    ∃ t, exec i s = .next t ∧ StoredOnly s t d a v :=
  ⟨_, hi, writeDreg_storedOnly hd⟩

theorem exec_unwired (hi : exec i s = .next (s.writeDreg d a v)) (hd : s.chain.length ≤ d) : exec i s = .next s := by
  rw [hi, writeDreg_unwired hd]

end stores

/-- Settles O10: each digit opcode is one register write, by its arm of `exec`. -/
theorem digitOpcodesStoreTheirRow : Obligations.DigitOpcodesStoreTheirRow := by
  unfold Obligations.DigitOpcodesStoreTheirRow
  intro s d v
  constructor
  case left =>
    intro hd
    exact ⟨exec_storedOnly rfl hd, exec_storedOnly rfl hd, exec_storedOnly rfl hd, exec_storedOnly rfl hd,
      exec_storedOnly rfl hd, exec_storedOnly rfl hd, exec_storedOnly rfl hd, exec_storedOnly rfl hd⟩
  case right =>
    intro hd
    exact ⟨exec_unwired (a := .digit0) rfl hd, exec_unwired (a := .digit1) rfl hd, exec_unwired (a := .digit2) rfl hd,
      exec_unwired (a := .digit3) rfl hd, exec_unwired (a := .digit4) rfl hd, exec_unwired (a := .digit5) rfl hd,
      exec_unwired (a := .digit6) rfl hd, exec_unwired (a := .digit7) rfl hd⟩

/-- Settles O11: each control opcode is one register write, by its arm of `exec`. -/
theorem controlOpcodesStoreTheirRegister : Obligations.ControlOpcodesStoreTheirRegister := by
  unfold Obligations.ControlOpcodesStoreTheirRegister
  intro s d v
  constructor
  case left =>
    intro hd
    exact ⟨exec_storedOnly rfl hd, exec_storedOnly rfl hd, exec_storedOnly rfl hd, exec_storedOnly rfl hd,
      exec_storedOnly rfl hd⟩
  case right =>
    intro hd
    exact ⟨exec_unwired (a := .decodeMode) rfl hd, exec_unwired (a := .intensity) rfl hd,
      exec_unwired (a := .scanLimit) rfl hd, exec_unwired (a := .shutdown) rfl hd,
      exec_unwired (a := .displayTest) rfl hd⟩

/-- Settles O12: the three opcodes that name no register have the identity as their meaning. -/
theorem noopAndReservedOpcodesWriteNothing : Obligations.NoopAndReservedOpcodesWriteNothing := by
  unfold Obligations.NoopAndReservedOpcodesWriteNothing
  intro s d v
  exact ⟨rfl, rfl, rfl⟩

end Sys2Proof.Machine
end

section
/-! The configuration commands that send one register write or answer the host (43_controller_config.md R179 to R183): SHUTDOWN,
SETSCANLIMIT, SETINTENSITY and GETDEVICECOUNT. -/

namespace Sys2Proof.Machine

/-! ### A command whose checks pass or fail -/

theorem exec_of_checksPass {i : Instr} {c : Command} (hc : commandOf i = some c) {s : State} (h : ChecksPass s i) :
    exec i s = .next (runAll (c.ops (c.immediate s)) (c.immediate s)) := exec_accepted hc ((accepts_iff hc).mpr h)

theorem exec_of_checksFail {i : Instr} {c : Command} (hc : commandOf i = some c) {s : State} (h : ¬ ChecksPass s i) :
    exec i s = .next s := exec_dropped hc (Bool.eq_false_iff.mpr (mt (accepts_iff hc).mp h))

/-! ### One register write -/

/-- One transfer of an opcode that names a register is the write of that register, and nothing else of the block's. -/
theorem xfer_controlEffect {s : State} (hfb : s.fb.wf) (hpins : s.PinsIdle) {d : Nat} (hd : d < s.n.val) {op : Opcode}
    {a : DevReg} (ha : DevReg.ofOpcode op = some a) (v : Byte) : ControlEffect s (xfer ⟨d, op, v⟩ s) d a op v where
  control := xfer_sameControl _ s
  shadow := xfer_srf _ s
  sent :=
    { transfers := xfer_xferLog _ s
      pins := by rw [xfer_pinLog hfb, xfer_n, List.flatMap_singleton]
      chain := by rw [xfer_n]; rfl }
  last := xfer_afterTransfer hfb hpins.2 hd
  device hw := by
    obtain ⟨-, hwritten, -⟩ := transferResultOnAChainWiredRight s ⟨d, op, v⟩ hfb hpins.2 hw hd
    exact hwritten a ha

/-- A command that checks its address `d` alone and whose list is one transfer: it drops or makes that register write. -/
theorem exec_singleTransfer {i : Instr} {c : Command} (hc : commandOf i = some c) {s : State} {d : Nat} {op : Opcode}
    {a : DevReg} {v : Byte} (hpass : ChecksPass s i ↔ d < s.n.val) (him : c.immediate s = s)
    (hops : c.ops s = [.xfer d op (.byte v)]) (ha : DevReg.ofOpcode op = some a) :
    (s.n.val ≤ d → exec i s = .next s) ∧
    (d < s.n.val → s.fb.wf → s.PinsIdle → ∃ t, exec i s = .next t ∧ ControlEffect s t d a op v) := by
  refine ⟨fun hd => exec_of_checksFail hc (mt hpass.mp (Nat.not_lt.mpr hd)), fun hd hfb hpins => ?_⟩
  have hrun : exec i s = .next (xfer ⟨d, op, v⟩ s) := by
    rw [exec_of_checksPass hc (hpass.mpr hd), him, hops]
    rfl
  exact ⟨_, hrun, xfer_controlEffect hfb hpins hd ha v⟩

/-- Settles O23: the single transfer carries opcode 12 and the inverse of the flag. -/
theorem shutdownSendsTheInverseOfItsFlag : Obligations.ShutdownSendsTheInverseOfItsFlag := by
  unfold Obligations.ShutdownSendsTheInverseOfItsFlag
  intro s a b c f
  exact ⟨decodeCommand_encodeCommand _ _ _ _ _, exec_singleTransfer (c := commandShutdown a f) rfl Iff.rfl rfl rfl rfl⟩

/-- Settles O24: the single transfer carries opcode 11 and the whole operand C. -/
theorem setScanLimitForwardsEveryValue : Obligations.SetScanLimitForwardsEveryValue := by
  unfold Obligations.SetScanLimitForwardsEveryValue
  intro s a b c f
  exact ⟨decodeCommand_encodeCommand _ _ _ _ _, exec_singleTransfer (c := commandSetScanLimit a c) rfl Iff.rfl rfl rfl rfl⟩

/-- Settles O25: the single transfer carries opcode 10 and the whole operand C. -/
theorem setIntensityForwardsEveryValue : Obligations.SetIntensityForwardsEveryValue := by
  unfold Obligations.SetIntensityForwardsEveryValue
  intro s a b c f
  exact ⟨decodeCommand_encodeCommand _ _ _ _ _, exec_singleTransfer (c := commandSetIntensity a c) rfl Iff.rfl rfl rfl rfl⟩

/-! ### The response -/

/-- Settles O26: the command has no micro-operations; its immediate effect is the response N, which fits a byte. -/
theorem getDeviceCountReturnsTheChainLength : Obligations.GetDeviceCountReturnsTheChainLength := by
  unfold Obligations.GetDeviceCountReturnsTheChainLength
  intro s a b c f
  refine ⟨decodeCommand_encodeCommand _ _ _ _ _, fun hs => exec_of_checksFail rfl (by simp [ChecksPass, hs]),
    fun hs => ⟨_, exec_of_checksPass rfl hs, ?_, rfl, rfl⟩⟩
  have hn : (BitVec.ofNat 8 s.n.val).toNat = s.n.val := (BitVec.toNat_ofNat _ _).trans (Nat.mod_eq_of_lt (by omega))
  exact hn

end Sys2Proof.Machine
end

section
/-! What a list of micro-operations does (43_controller_config.md R176): the transfers it makes, what they leave in the logs, the
pins and the chain, and which lanes of the shadow it writes. -/

namespace Sys2Proof.Machine

/-! ### The transfers a list makes -/

/-- The transfer an entry makes, if it is one. -/
def MicroOp.transfers (s : State) : MicroOp → List Transfer
  | .shWrite _ _ _ _ => []
  | .xfer t op data => [⟨t, op, data.value s⟩]

/-- The transfers a list makes from `s`, in order; a byte of the shadow is read when its transfer begins. -/
def transfersOf : List MicroOp → State → List Transfer
  | [], _ => []
  | op :: ops, s => op.transfers s ++ transfersOf ops (op.run s)

theorem transfersOf_append (ops more : List MicroOp) (s : State) :
    transfersOf (ops ++ more) s = transfersOf ops s ++ transfersOf more (runAll ops s) := by
  induction ops generalizing s with
  | nil => rfl
  | cons op ops ih => rw [List.cons_append, transfersOf, ih, transfersOf, runAll_cons, List.append_assoc]

/-- Lists whose transfers do not depend on the state make them one after another. -/
theorem transfersOf_flatMap {α : Type} {f : α → List MicroOp} {g : α → List Transfer} (h : ∀ a s, transfersOf (f a) s = g a)
    (l : List α) (s : State) : transfersOf (l.flatMap f) s = l.flatMap g := by
  induction l generalizing s with
  | nil => rfl
  | cons a l ih => rw [List.flatMap_cons, transfersOf_append, h, ih, List.flatMap_cons]

theorem rowOps_transfers (hs : Bool) (d r : Nat) (v : Byte) (s : State) :
    transfersOf (rowOps hs d r v) s = [⟨d, rowOpcode r, v⟩] := by
  cases hs <;> rfl

theorem clearOps_transfers (hs : Bool) (d : Nat) (s : State) :
    transfersOf (clearOps hs d) s = (List.range 8).map (fun r => ⟨d, rowOpcode r, 0x00#8⟩) :=
  (transfersOf_flatMap (fun r s => rowOps_transfers hs d r 0x00#8 s) _ s).trans List.map_eq_flatMap.symm

theorem initDeviceOps_transfers (hs : Bool) (d : Nat) (s : State) : transfersOf (initDeviceOps hs d) s = initTransfers d := by
  rw [initDeviceOps, transfersOf_append, transfersOf_append, clearOps_transfers]
  rfl

/-! ### The logs -/

theorem MicroOp_run_xferLog (op : MicroOp) (s : State) : (op.run s).xferLog = s.xferLog ++ op.transfers s := by
  cases op with
  | shWrite d r w m => exact (List.append_nil _).symm
  | xfer t o data => exact xfer_xferLog _ s

theorem MicroOp_run_pinLog {s : State} (hfb : s.fb.wf) (op : MicroOp) :
    (op.run s).pinLog = s.pinLog ++ (op.transfers s).flatMap (transferPins s.n.val) := by
  cases op with
  | shWrite d r w m => exact (List.append_nil _).symm
  | xfer t o data => rw [MicroOp.transfers, List.flatMap_singleton]; exact xfer_pinLog hfb _

theorem runAll_xferLog (ops : List MicroOp) (s : State) : (runAll ops s).xferLog = s.xferLog ++ transfersOf ops s := by
  induction ops generalizing s with
  | nil => exact (List.append_nil _).symm
  | cons op ops ih => rw [runAll_cons, ih, MicroOp_run_xferLog, List.append_assoc, transfersOf]

theorem runAll_pinLog (ops : List MicroOp) {s : State} (hfb : s.fb.wf) :
    (runAll ops s).pinLog = s.pinLog ++ (transfersOf ops s).flatMap (transferPins s.n.val) := by
  induction ops generalizing s with
  | nil => exact (List.append_nil _).symm
  | cons op ops ih =>
    rw [runAll_cons, ih (MicroOp_run_fbWf hfb op), MicroOp_run_pinLog hfb, MicroOp_run_n, List.append_assoc, transfersOf,
      List.flatMap_append]

/-! ### The chain -/

/-- Two states between transfers with the same chain and the same N: their chains stay the same under the same transfers, whatever
the rest of the two states holds. -/
structure State.SendsAlike (s u : State) : Prop where
  fbWf : s.fb.wf ∧ u.fb.wf
  clk : s.clk = false ∧ u.clk = false
  n : s.n = u.n
  chain : s.chain = u.chain

theorem State.SendsAlike.xfer {s u : State} (h : s.SendsAlike u) (x : Transfer) :
    (xfer x s).SendsAlike (Machine.xfer x u) where
  fbWf := by
    rw [xfer_fb, xfer_fb]
    exact ⟨buildFB_wf h.fbWf.1 _ _ _, buildFB_wf h.fbWf.2 _ _ _⟩
  clk := ⟨(xfer_pins x s h.clk.1).2, (xfer_pins x u h.clk.2).2⟩
  n := by rw [xfer_n, xfer_n, h.n]
  chain := List.ext_getElem? fun d => by
    rw [xfer_getElem h.fbWf.1 h.clk.1, xfer_getElem h.fbWf.2 h.clk.2, h.n, h.chain]

/-- An entry does to the chain what its transfer does. -/
theorem State.SendsAlike.run {s u : State} (h : s.SendsAlike u) (op : MicroOp) :
    (op.run s).SendsAlike ((op.transfers s).foldl (fun v x => Machine.xfer x v) u) := by
  cases op with
  | shWrite d r w m => exact ⟨h.fbWf, h.clk, h.n, h.chain⟩
  | xfer t o data => exact h.xfer _

theorem State.SendsAlike.runAll {s u : State} (h : s.SendsAlike u) (ops : List MicroOp) :
    (runAll ops s).SendsAlike ((transfersOf ops s).foldl (fun v x => Machine.xfer x v) u) := by
  induction ops generalizing s u with
  | nil => exact h
  | cons op ops ih =>
    rw [transfersOf, List.foldl_append]
    exact ih (h.run op)

/-- A list sends the transfers it makes. `u` is the state before the command's immediate effect, which may write N. -/
theorem runAll_sent {s u : State} (h : s.SendsAlike { u with n := s.n }) (hx : s.xferLog = u.xferLog)
    (hp : s.pinLog = u.pinLog) (ops : List MicroOp) : Sent u (runAll ops s) (transfersOf ops s) where
  transfers := by rw [runAll_xferLog, hx]
  pins := by rw [runAll_pinLog ops h.fbWf.1, hp, runAll_n]
  chain := by
    rw [runAll_n]
    exact (h.runAll ops).chain

/-! ### The last transfer -/

theorem runAll_fbWf {s : State} (hfb : s.fb.wf) (ops : List MicroOp) : (runAll ops s).fb.wf :=
  runAll_keeps (P := fun s => s.fb.wf) ops (fun o _ _ h => MicroOp_run_fbWf h o) hfb

theorem runAll_pins {s : State} (hpins : s.PinsIdle) (ops : List MicroOp) : (runAll ops s).PinsIdle :=
  runAll_keeps (P := State.PinsIdle) ops (fun o _ _ h => MicroOp_run_pins h o) hpins

theorem MicroOp_run_fb_above {s : State} (hfb : s.fb.wf) {op : MicroOp} (hl : op.illegal s.n = none) {a : Nat}
    (ha : 2 * s.n.val ≤ a) : (op.run s).fb.read a = s.fb.read a := by
  cases op with
  | shWrite d r w m => rfl
  | xfer t o data => exact xfer_fb_above hfb (x := ⟨t, o, data.value s⟩) (target_lt_of_legal hl) ha

/-- No list touches the frame buffer above the devices' bytes (20_memory.md R67). -/
theorem runAll_fb_above {ops : List MicroOp} {s : State} (hfb : s.fb.wf) (hl : ∀ o ∈ ops, o.illegal s.n = none) {a : Nat}
    (ha : 2 * s.n.val ≤ a) : (runAll ops s).fb.read a = s.fb.read a := by
  induction ops generalizing s with
  | nil => rfl
  | cons op ops ih =>
    obtain ⟨hop, hops⟩ := List.forall_mem_cons.mp hl
    rw [runAll_cons, ih (MicroOp_run_fbWf hfb op) (by rwa [MicroOp_run_n]) (by rwa [MicroOp_run_n]),
      MicroOp_run_fb_above hfb hop ha]

/-- A list that ends with a transfer leaves what that transfer leaves. -/
theorem runAll_afterTransfer {s : State} (hfb : s.fb.wf) (hpins : s.PinsIdle) {ops : List MicroOp} {t : Nat} {op : Opcode}
    {v : Byte} (hl : ∀ o ∈ ops ++ [.xfer t op (.byte v)], o.illegal s.n = none) :
    AfterTransfer s (runAll (ops ++ [.xfer t op (.byte v)]) s) ⟨t, op, v⟩ := by
  obtain ⟨hops, hlast⟩ := List.forall_mem_append.mp hl
  have ht : t < (runAll ops s).n.val := by
    rw [runAll_n]
    exact target_lt_of_legal (hlast _ (List.mem_singleton_self _))
  have h := xfer_afterTransfer (x := ⟨t, op, v⟩) (runAll_fbWf hfb ops) (runAll_pins hpins ops).2 ht
  rw [runAll_append]
  refine { h with otherBytes := fun a ha => (h.otherBytes a ha).trans (runAll_fb_above hfb hops ?_) }
  simpa using ha

/-! ### The device registers -/

/-- What a transfer writes to register `a` of device `d`, if it writes it. -/
def Transfer.writes (x : Transfer) (d : Nat) (a : DevReg) : Option Byte :=
  if d = x.target ∧ DevReg.ofOpcode x.op = some a then some x.data else none

/-- What the last of some transfers to write register `a` of device `d` writes there. -/
def lastWritten (xs : List Transfer) (d : Nat) (a : DevReg) : Option Byte := xs.reverse.findSome? (·.writes d a)

theorem lastWritten_append (xs ys : List Transfer) (d : Nat) (a : DevReg) :
    lastWritten (xs ++ ys) d a = (lastWritten ys d a).or (lastWritten xs d a) := by
  rw [lastWritten, List.reverse_append, List.findSome?_append]
  rfl

theorem MicroOp_run_dreg {s : State} (hfb : s.fb.wf) (hpins : s.PinsIdle) (hw : s.WiredRight) {op : MicroOp}
    (hl : op.illegal s.n = none) (d : Nat) (a : DevReg) :
    (op.run s).dreg d a = (lastWritten (op.transfers s) d a).or (s.dreg d a) := by
  cases op with
  | shWrite e r w m => rfl
  | xfer t o data =>
    have h := xfer_dreg_wired hfb hpins.2 hw (x := ⟨t, o, data.value s⟩) (target_lt_of_legal hl) d a
    refine h.trans ?_
    by_cases hx : d = t ∧ DevReg.ofOpcode o = some a <;> simp [lastWritten, MicroOp.transfers, Transfer.writes, hx]

/-- With `P = N` every register holds what the last transfer to it wrote, and what it held before when there was none. -/
theorem runAll_dreg {s : State} (hfb : s.fb.wf) (hpins : s.PinsIdle) (hw : s.WiredRight) {ops : List MicroOp}
    (hl : ∀ o ∈ ops, o.illegal s.n = none) (d : Nat) (a : DevReg) :
    (runAll ops s).dreg d a = (lastWritten (transfersOf ops s) d a).or (s.dreg d a) := by
  induction ops generalizing s with
  | nil => rfl
  | cons op ops ih =>
    obtain ⟨hop, hops⟩ := List.forall_mem_cons.mp hl
    have hw' : (op.run s).WiredRight := by rw [State.WiredRight, MicroOp_run_wired, MicroOp_run_n, hw]
    rw [runAll_cons, ih (MicroOp_run_fbWf hfb op) (MicroOp_run_pins hpins op) hw' (by rwa [MicroOp_run_n]),
      MicroOp_run_dreg hfb hpins hw hop, transfersOf, lastWritten_append, Option.or_assoc]

/-! ### The shadow -/

/-- A list without shadow writes leaves the shadow as it is. -/
theorem runAll_srf_of_no_write {ops : List MicroOp} (h : ∀ d r w m, .shWrite d r w m ∉ ops) (s : State) :
    (runAll ops s).srf = s.srf := by
  refine runAll_keeps (P := fun u => u.srf = s.srf) ops (fun o ho u hu => ?_) rfl
  cases o with
  | shWrite d r w m => exact absurd ho (h d r w m)
  | xfer t op data => exact (xfer_srf _ u).trans hu

/-- A lane no entry writes reads as before. -/
theorem runAll_srf_of_other_lanes {ops : List MicroOp} {a : Nat} (h : ∀ d r w m, .shWrite d r w m ∈ ops → lane d r ≠ a)
    {s : State} (hsrf : s.srf.wf) : (runAll ops s).srf.read a = s.srf.read a := by
  have hkeep : (runAll ops s).srf.wf ∧ (runAll ops s).srf.read a = s.srf.read a := by
    refine runAll_keeps (P := fun u => u.srf.wf ∧ u.srf.read a = s.srf.read a) ops ?_ ⟨hsrf, rfl⟩
    rintro o ho u ⟨hwf, hu⟩
    refine ⟨MicroOp_run_srfWf hwf o, ?_⟩
    cases o with
    | shWrite d r w m => rw [MicroOp.run, shWrite_read hwf, if_neg (h d r w m ho).symm, hu]
    | xfer t op data => rw [MicroOp.run, xfer_srf, hu]
  exact hkeep.2

/-- A write under the full mask leaves nothing of the old byte (44_controller_display.md R195). -/
theorem overwrite_byte (old v : Byte) : (old &&& ~~~0xFF#8) ||| (v &&& 0xFF#8) = v := by
  have hmask : (0xFF#8 : Byte) = BitVec.allOnes 8 := rfl
  rw [hmask, BitVec.and_allOnes, BitVec.not_allOnes, BitVec.and_zero, BitVec.zero_or]

/-- A lane whose only writes set it to `v` holds `v` once one of them was made. -/
theorem runAll_sh_of_overwritten {ops : List MicroOp} {d r : Nat} {v : Byte} (hmem : .shWrite d r v 0xFF#8 ∈ ops)
    (hall : ∀ e q w m, .shWrite e q w m ∈ ops → lane e q = lane d r → w = v ∧ m = 0xFF#8) {s : State} (hsrf : s.srf.wf) :
    (runAll ops s).sh d r = v := by
  obtain ⟨before, after, rfl⟩ := List.append_of_mem hmem
  have hwf : (runAll before s).srf.wf :=
    runAll_keeps (P := fun u => u.srf.wf) before (fun o _ _ h => MicroOp_run_srfWf h o) hsrf
  rw [runAll_append, runAll_cons]
  generalize runAll before s = u at hwf ⊢
  have hkeep : (runAll after (shWrite d r v 0xFF#8 u)).srf.wf ∧
      (runAll after (shWrite d r v 0xFF#8 u)).srf.read (lane d r) = v := by
    refine runAll_keeps (P := fun u => u.srf.wf ∧ u.srf.read (lane d r) = v) after ?_ ⟨Memory.wf_write hwf _ _, ?_⟩
    · rintro o ho u ⟨hwf, hu⟩
      refine ⟨MicroOp_run_srfWf hwf o, ?_⟩
      cases o with
      | shWrite e q w m =>
        rw [MicroOp.run, shWrite_read hwf]
        split_ifs with hlane
        · obtain ⟨rfl, rfl⟩ := hall e q w m (by simp [ho]) hlane.symm
          exact overwrite_byte _ _
        · exact hu
      | xfer t op data => rw [MicroOp.run, xfer_srf, hu]
    · rw [shWrite_read hwf, if_pos rfl, overwrite_byte]
  exact hkeep.2

end Sys2Proof.Machine
end

section
/-! INIT (43_controller_config.md R177, R178, 70_reset_and_hazards.md R258): its list of micro-operations and the whole effect of a
run. -/

namespace Sys2Proof.Machine

/-! ### The list of INIT -/

/-- INIT's micro-operations for a chain length `n`. -/
def initOps (hasShadow : Bool) (n : Nat) : List MicroOp := (List.range n).flatMap (initDeviceOps hasShadow)

theorem initOps_succ (hs : Bool) (n : Nat) : initOps hs (n + 1) = initOps hs n ++ initDeviceOps hs n := by
  rw [initOps, List.range_succ, List.flatMap_append, List.flatMap_singleton]
  rfl

theorem initOps_legal (hs : Bool) (n : Nat) : ∀ o ∈ initOps hs n, o.illegal n = none := by
  intro o ho
  obtain ⟨d, hd, ho⟩ := List.mem_flatMap.mp ho
  exact initDeviceOps_legal hs (List.mem_range.mp hd) o ho

theorem initOps_transfers (hs : Bool) (n : Nat) (s : State) :
    transfersOf (initOps hs n) s = (List.range n).flatMap initTransfers :=
  transfersOf_flatMap (initDeviceOps_transfers hs) _ s

/-- The list ends with the power-down of the far device. -/
theorem initOps_last (hs : Bool) {n : Nat} (hn : 0 < n) :
    ∃ ops, initOps hs n = ops ++ [.xfer (n - 1) 12#4 (.byte 0x00#8)] := by
  obtain ⟨m, rfl⟩ : ∃ m, n = m + 1 := ⟨n - 1, by omega⟩
  rw [initOps_succ, initDeviceOps, ← List.append_assoc]
  exact ⟨_, rfl⟩

section shadowWrites

variable {hs : Bool} {d r n e q : Nat} {v w m : Byte}

theorem shWrite_mem_rowOps : .shWrite e q w m ∈ rowOps hs d r v ↔ hs = true ∧ e = d ∧ q = r ∧ w = v ∧ m = 0xFF#8 := by
  cases hs <;> simp [rowOps, ifShadow]

theorem shWrite_mem_clearOps :
    .shWrite e q w m ∈ clearOps hs d ↔ hs = true ∧ e = d ∧ q < 8 ∧ w = 0x00#8 ∧ m = 0xFF#8 := by
  simp [clearOps, shWrite_mem_rowOps, and_left_comm]

/-- The shadow writes of the list: one clear of every row of every initialised device, when there is a shadow. -/
theorem shWrite_mem_initOps : .shWrite e q w m ∈ initOps hs n ↔ hs = true ∧ e < n ∧ q < 8 ∧ w = 0x00#8 ∧ m = 0xFF#8 := by
  simp [initOps, initDeviceOps, shWrite_mem_clearOps, and_left_comm]

end shadowWrites

/-! ### The registers INIT writes -/

theorem writes_target (d : Nat) (op : Opcode) (v : Byte) (a : DevReg) :
    Transfer.writes ⟨d, op, v⟩ d a = if DevReg.ofOpcode op = some a then some v else none := by
  simp [Transfer.writes]

theorem lastWritten_initTransfers (e d : Nat) (a : DevReg) :
    lastWritten (initTransfers e) d a = if d = e then initValue a else none := by
  by_cases h : d = e
  · subst h
    simp only [lastWritten, initTransfers, List.range_succ, List.range_zero, List.map_cons, List.map_nil, List.reverse_cons,
      List.reverse_nil, List.nil_append, List.cons_append, List.findSome?_cons, writes_target, if_true]
    cases a <;> rfl
  · simp [lastWritten, initTransfers, Transfer.writes, h, List.range_succ]

theorem lastWritten_init (n d : Nat) (a : DevReg) :
    lastWritten ((List.range n).flatMap initTransfers) d a = if d < n then initValue a else none := by
  induction n with
  | zero => rfl
  | succ n ih =>
    rw [List.range_succ, List.flatMap_append, List.flatMap_singleton, lastWritten_append, ih, lastWritten_initTransfers]
    rcases Nat.lt_trichotomy d n with h | h | h
    · simp [h, Nat.lt_succ_of_lt h, Nat.ne_of_lt h]
    · simp [h]
    · simp [Nat.not_lt_of_gt h, Nat.ne_of_gt h, Nat.not_lt.mpr h]

/-! ### A run of INIT -/

/-- The state INIT's list runs from: N and INITED are written before the first transfer (43_controller_config.md R177). -/
def State.initialised (s : State) (n : Fin 9) : State := { s with n := n, inited := true }

/-- The whole effect of INIT's list, run from the state in which N and INITED are written. -/
theorem runAll_initEffect {s : State} (hsrf : s.srf.wf) (hfb : s.fb.wf) (hpins : s.PinsIdle) {n : Fin 9} (hn : 0 < n.val) :
    InitEffect s (runAll (initOps s.params.hasShadow n) (s.initialised n)) n where
  length := by rw [runAll_n]; rfl
  inited := runAll_inited _ _
  control := by simp [State.initialised]
  shadow hs d r hd hr := by
    refine runAll_sh_of_overwritten (shWrite_mem_initOps.mpr ⟨hs, hd, by omega, rfl, rfl⟩) (fun e q w m h _ => ?_) hsrf
    obtain ⟨-, -, -, hw, hm⟩ := shWrite_mem_initOps.mp h
    exact ⟨hw, hm⟩
  lanes a ha := by
    refine runAll_srf_of_other_lanes (fun d r w m h => ?_) hsrf
    obtain ⟨-, hd, hr, -⟩ := shWrite_mem_initOps.mp h
    unfold lane
    omega
  minimal hs := by
    refine runAll_srf_of_no_write (fun d r w m h => ?_) _
    obtain ⟨hs', -⟩ := shWrite_mem_initOps.mp h
    exact absurd hs' (by simp [hs])
  sent := by
    rw [← initOps_transfers s.params.hasShadow n (s.initialised n)]
    exact runAll_sent (s := s.initialised n) ⟨⟨hfb, hfb⟩, ⟨hpins.2, hpins.2⟩, rfl, rfl⟩ rfl rfl _
  last := by
    have hl := initOps_legal s.params.hasShadow n
    obtain ⟨ops, hops⟩ := initOps_last s.params.hasShadow hn
    rw [hops] at hl ⊢
    obtain ⟨hp, hdin, hbuf, hother, hshift⟩ :=
      runAll_afterTransfer (s := s.initialised n) hfb hpins hl
    exact ⟨hp, hdin, hbuf, hother, hshift⟩
  device hw d a hd := by
    have h := runAll_dreg (s := s.initialised n) hfb hpins hw (initOps_legal s.params.hasShadow n) d a
    rwa [initOps_transfers, lastWritten_init, if_pos hd, Option.or_eq_orElse] at h

/-- Settles O22: INIT's list runs with the clamped length, which is at least 1. -/
theorem initConfiguresEveryDevice : Obligations.InitConfiguresEveryDevice := by
  unfold Obligations.InitConfiguresEveryDevice
  intro s a b c f
  refine ⟨decodeCommand_encodeCommand _ _ _ _ _, fun hi => exec_of_checksFail rfl (by simp [ChecksPass, hi]),
    fun hi hsrf hfb hpins => ⟨_, exec_of_checksPass rfl hi, ?_⟩⟩
  rw [← clampLength_val]
  exact runAll_initEffect hsrf hfb hpins (one_le_clampLength a)

end Sys2Proof.Machine
end

section
/-! The display commands, list by list (43_controller_config.md R176, 44_controller_display.md R195 to R202): what a list that gives
one row, or the eight rows, of a device their patterns does to the whole machine. -/

namespace Sys2Proof.Machine

/-! ### The shadow write port -/

/-- Bit by bit, a masked write takes the write data under the mask and keeps the old byte elsewhere. -/
theorem getLsbD_masked (old wdata wmask : Byte) {k : Nat} (hk : k < 8) :
    ((old &&& ~~~wmask) ||| (wdata &&& wmask)).getLsbD k = if wmask.getLsbD k then wdata.getLsbD k else old.getLsbD k := by
  rw [BitVec.getLsbD_or, BitVec.getLsbD_and, BitVec.getLsbD_and, BitVec.getLsbD_not, decide_eq_true hk]
  cases wmask.getLsbD k <;> simp

/-- Settles O20: the lane takes the write data's bits under the mask, and the memory keeps every other address. -/
theorem shadowWriteChangesTheMaskedBitsOfOneLane : Obligations.ShadowWriteChangesTheMaskedBitsOfOneLane := by
  unfold Obligations.ShadowWriteChangesTheMaskedBitsOfOneLane
  intro s d r wdata wmask hsrf
  refine ⟨fun k hk => ?_, fun a ha => ?_, Memory.wf_write hsrf _ _, rfl⟩
  · rw [State.sh, shWrite_read hsrf, if_pos rfl, getLsbD_masked _ _ _ hk]
  · rw [shWrite_read hsrf, if_neg ha]

theorem shWrite_sh {s : State} (hsrf : s.srf.wf) {d r e q : Nat} (hr : r ≤ 7) (hq : q ≤ 7) (wdata wmask : Byte) :
    (shWrite e q wdata wmask s).sh d r =
      if d = e ∧ r = q then (s.sh d r &&& ~~~wmask) ||| (wdata &&& wmask) else s.sh d r := by
  rw [State.sh, shWrite_read hsrf]
  by_cases h : d = e ∧ r = q
  · obtain ⟨rfl, rfl⟩ := h
    rw [if_pos rfl, if_pos ⟨rfl, rfl⟩]
  · rw [if_neg h, if_neg (mt (lane_inj (by omega) (by omega)) h)]
    rfl

theorem runAll_srfWf {s : State} (hsrf : s.srf.wf) (ops : List MicroOp) : (runAll ops s).srf.wf :=
  runAll_keeps (P := fun u => u.srf.wf) ops (fun o _ _ h => MicroOp_run_srfWf h o) hsrf

theorem runAll_wiredRight (ops : List MicroOp) (s : State) : (runAll ops s).WiredRight ↔ s.WiredRight := by
  rw [State.WiredRight, (runAll_frame ops s).wired, runAll_n, State.WiredRight]

/-! ### The bit of one column -/

/-- A row's byte after the bit of column `c` was given the level `on` (44_controller_display.md R198). -/
def ledByte (old : Byte) (c : Nat) (on : Bool) : Byte := (old &&& ~~~columnMask c) ||| (level on &&& columnMask c)

theorem getLsbD_columnMask {c k : Nat} (hc : c ≤ 7) (hk : k < 8) : (columnMask c).getLsbD k = decide (k = 7 - c) := by
  have h : ∀ c k : Fin 8, (columnMask c).getLsbD k = decide (k.val = 7 - c.val) := by decide
  exact h ⟨c, by omega⟩ ⟨k, hk⟩

theorem getLsbD_level (on : Bool) {k : Nat} (hk : k < 8) : (level on).getLsbD k = on := by
  have h : ∀ (on : Bool) (k : Fin 8), (level on).getLsbD k = on := by decide
  exact h on ⟨k, hk⟩

theorem getLsbD_ledByte (old : Byte) {c : Nat} (hc : c ≤ 7) (on : Bool) {k : Nat} (hk : k < 8) :
    (ledByte old c on).getLsbD k = if k = 7 - c then on else old.getLsbD k := by
  rw [ledByte, getLsbD_masked _ _ _ hk, getLsbD_columnMask hc hk, getLsbD_level on hk]
  simp only [decide_eq_true_eq]

/-! ### The rows' registers -/

theorem ofOpcode_injective {op op' : Opcode} {a : DevReg} (h : DevReg.ofOpcode op = some a)
    (h' : DevReg.ofOpcode op' = some a) : op = op' := by
  have hinj : ∀ o o' : Opcode, (DevReg.ofOpcode o).isSome = true → DevReg.ofOpcode o = DevReg.ofOpcode o' → o = o' := by
    decide
  exact hinj op op' (by simp [h]) (h.trans h'.symm)

theorem rowReg_injective {q r : Nat} (hq : q ≤ 7) (hr : r ≤ 7) {a : DevReg} (h : rowReg q = some a) (h' : rowReg r = some a) :
    q = r := rowOpcode_injective hq hr (ofOpcode_injective h h')

theorem exists_rowReg {r : Nat} (hr : r ≤ 7) : ∃ q, rowReg r = some q := by
  have h : ∀ r : Fin 8, (rowReg r).isSome = true := by decide
  exact Option.isSome_iff_exists.mp (h ⟨r, by omega⟩)

/-! ### What the transfers of a list leave -/

/-- A transfer that a list makes is an entry of the list. -/
theorem mem_transfersOf {x : Transfer} {ops : List MicroOp} {s : State} (h : x ∈ transfersOf ops s) :
    ∃ data, .xfer x.target x.op data ∈ ops := by
  induction ops generalizing s with
  | nil => cases h
  | cons op ops ih =>
    rcases List.mem_append.mp h with hx | hx
    · cases op with
      | shWrite d r w m => cases hx
      | xfer t o data =>
        obtain rfl := List.mem_singleton.mp hx
        exact ⟨data, by simp⟩
    · obtain ⟨data, hmem⟩ := ih hx
      exact ⟨data, by simp [hmem]⟩

/-- A list leaves what its last transfer leaves; a shadow write after it touches nothing of that. -/
theorem runAll_afterLastTransfer {s : State} (hfb : s.fb.wf) (hpins : s.PinsIdle) {ops : List MicroOp} {x : Transfer}
    (hl : ∀ o ∈ ops, o.illegal s.n = none) (hx : (transfersOf ops s).getLast? = some x) :
    AfterTransfer s (runAll ops s) x := by
  induction ops using List.reverseRecOn generalizing x with
  | nil => cases hx
  | append_singleton ops op ih =>
    obtain ⟨hops, hop⟩ := List.forall_mem_append.mp hl
    rw [transfersOf_append] at hx
    rw [runAll_append]
    cases op with
    | shWrite d r w m =>
      obtain ⟨hp, hdin, hbuf, hother, hshift⟩ := ih hops (by simpa [transfersOf, MicroOp.transfers] using hx)
      exact ⟨hp, hdin, hbuf, hother, hshift⟩
    | xfer t o data =>
      obtain rfl : ⟨t, o, data.value (runAll ops s)⟩ = x := by simpa [transfersOf, MicroOp.transfers] using hx
      have ht : t < (runAll ops s).n.val := by
        rw [runAll_n]
        exact target_lt_of_legal (hop _ (List.mem_singleton_self _))
      have h := xfer_afterTransfer (x := ⟨t, o, data.value (runAll ops s)⟩) (runAll_fbWf hfb ops) (runAll_pins hpins ops).2 ht
      exact { h with otherBytes := fun a ha => (h.otherBytes a ha).trans (runAll_fb_above hfb hops (by simpa using ha)) }

theorem lastWritten_eq_none {xs : List Transfer} {d : Nat} {a : DevReg} (h : ∀ x ∈ xs, x.writes d a = none) :
    lastWritten xs d a = none :=
  List.findSome?_eq_none_iff.mpr fun x hx => h x (List.mem_reverse.mp hx)

/-- When all the writes of a register write the same byte, the last one does. -/
theorem lastWritten_eq_some {xs : List Transfer} {d : Nat} {a : DevReg} {v : Byte} {x : Transfer} (hx : x ∈ xs)
    (hv : x.writes d a = some v) (hall : ∀ y ∈ xs, ∀ w, y.writes d a = some w → w = v) : lastWritten xs d a = some v := by
  cases h : lastWritten xs d a with
  | none => simpa [hv] using List.findSome?_eq_none_iff.mp h x (List.mem_reverse.mpr hx)
  | some w =>
    obtain ⟨y, hy, hw⟩ := List.exists_of_findSome?_eq_some h
    rw [hall y (List.mem_reverse.mp hy) w hw]

theorem lastWritten_singleton (x : Transfer) (d : Nat) (a : DevReg) : lastWritten [x] d a = x.writes d a := by
  simp [lastWritten]

theorem writes_of_ne {x : Transfer} {d : Nat} (h : d ≠ x.target) (a : DevReg) : x.writes d a = none :=
  if_neg fun hx => h hx.1

theorem runAll_sameControl (ops : List MicroOp) (s : State) : SameControl s (runAll ops s) := by
  constructor <;> simp

theorem runAll_sent_self {s : State} (hfb : s.fb.wf) (hpins : s.PinsIdle) (ops : List MicroOp) :
    Sent s (runAll ops s) (transfersOf ops s) :=
  runAll_sent (s := s) (u := s) ⟨⟨hfb, hfb⟩, ⟨hpins.2, hpins.2⟩, rfl, rfl⟩ rfl rfl ops

/-! ### Lists that give rows their patterns -/

section Rows

variable {s : State} (hsrf : s.srf.wf) (hfb : s.fb.wf) (hpins : s.PinsIdle) {ops : List MicroOp}
  (hl : ∀ o ∈ ops, o.illegal s.n = none) {d : Nat}

include hsrf hfb hpins hl

/-- A list whose one transfer carries `v` to row `r` of device `d`, whose shadow writes are of that lane and only made when there is
a shadow, and which leaves `v` there. -/
theorem runAll_rowEffect {r : Nat} {v : Byte} (hx : transfersOf ops s = [⟨d, rowOpcode r, v⟩])
    (hwrites : ∀ e q w m, .shWrite e q w m ∈ ops → s.params.hasShadow = true ∧ e = d ∧ q = r)
    (hsh : s.params.hasShadow = true → (runAll ops s).sh d r = v) : RowEffect s (runAll ops s) d r v where
  control := runAll_sameControl ops s
  shadow := hsh
  lanes a ha := runAll_srf_of_other_lanes (fun e q w m h => by
    obtain ⟨-, rfl, rfl⟩ := hwrites e q w m h
    exact ha.symm) hsrf
  minimal hs := runAll_srf_of_no_write (fun e q w m h => by simpa [hs] using (hwrites e q w m h).1) s
  sent := hx ▸ runAll_sent_self hfb hpins ops
  last := runAll_afterLastTransfer hfb hpins hl (by rw [hx]; rfl)
  device hw q hq :=
    { written := by
        rw [runAll_dreg hfb hpins hw hl, hx, lastWritten_singleton, Transfer.writes, if_pos ⟨rfl, hq⟩, Option.some_or]
      others := fun e b hne => by
        rw [runAll_dreg hfb hpins hw hl, hx, lastWritten_singleton, Transfer.writes, if_neg, Option.none_or]
        exact fun h => hne ⟨h.1, Option.some.inj (h.2.symm.trans hq)⟩ }

/-- A list whose eight transfers carry `v r` to row `r` of device `d`, whose shadow writes are of that device's lanes and only made
when there is a shadow, and which leaves `v r` in each of them. -/
theorem runAll_rowsEffect {v : Nat → Byte} (hx : transfersOf ops s = (List.range 8).map (fun r => ⟨d, rowOpcode r, v r⟩))
    (hwrites : ∀ e q w m, .shWrite e q w m ∈ ops → s.params.hasShadow = true ∧ e = d ∧ q ≤ 7)
    (hsh : s.params.hasShadow = true → ∀ r, r ≤ 7 → (runAll ops s).sh d r = v r) : RowsEffect s (runAll ops s) d v where
  control := runAll_sameControl ops s
  shadow := hsh
  lanes a ha := runAll_srf_of_other_lanes (fun e q w m h => by
    obtain ⟨-, rfl, hq⟩ := hwrites e q w m h
    unfold lane at ha ⊢
    omega) hsrf
  minimal hs := runAll_srf_of_no_write (fun e q w m h => by simpa [hs] using (hwrites e q w m h).1) s
  sent := hx ▸ runAll_sent_self hfb hpins ops
  last := runAll_afterLastTransfer hfb hpins hl (by rw [hx]; rfl)
  device hw r q hr hq := by
    have hmem : (⟨d, rowOpcode r, v r⟩ : Transfer) ∈ transfersOf ops s := by
      rw [hx]
      exact List.mem_map.mpr ⟨r, List.mem_range.mpr (by omega), rfl⟩
    rw [runAll_dreg hfb hpins hw hl, lastWritten_eq_some hmem (if_pos ⟨rfl, hq⟩)]
    · rfl
    · intro y hy w hyw
      rw [hx] at hy
      obtain ⟨p, hp, rfl⟩ := List.mem_map.mp hy
      obtain ⟨⟨-, hpq⟩, rfl⟩ : (d = d ∧ rowReg p = some q) ∧ v p = w := by simpa [Transfer.writes, rowReg] using hyw
      rw [rowReg_injective (by have := List.mem_range.mp hp; omega) hr hpq hq]
  otherRegs hw e q hne := by
    rw [runAll_dreg hfb hpins hw hl, hx, lastWritten_eq_none, Option.none_or]
    intro x hx
    obtain ⟨r, hr, rfl⟩ := List.mem_map.mp hx
    exact if_neg fun h => hne ⟨h.1, r, by have := List.mem_range.mp hr; omega, h.2⟩

end Rows

end Sys2Proof.Machine
end

section
/-! The six display commands (44_controller_display.md R197 to R202): the lists of SETROW, SETDIGIT, SETCHAR and CLEARDISPLAY overwrite
rows, those of SETLED and SETCOLUMN change one bit of each row. -/

namespace Sys2Proof.Machine

/-! ### Overwritten rows -/

theorem rowOps_rowEffect {s : State} (hsrf : s.srf.wf) (hfb : s.fb.wf) (hpins : s.PinsIdle) {d r : Nat} (hd : d < s.n.val)
    (hr : r ≤ 7) (v : Byte) : RowEffect s (runAll (rowOps s.params.hasShadow d r v) s) d r v := by
  refine runAll_rowEffect hsrf hfb hpins (rowOps_legal _ v hd hr) (rowOps_transfers _ d r v s) (fun e q w m h => ?_)
    (fun hs => runAll_sh_of_overwritten (shWrite_mem_rowOps.mpr ⟨hs, rfl, rfl, rfl, rfl⟩) (fun e q w m h _ => ?_) hsrf)
  · obtain ⟨hs, he, hq, -⟩ := shWrite_mem_rowOps.mp h
    exact ⟨hs, he, hq⟩
  · obtain ⟨-, -, -, hw, hm⟩ := shWrite_mem_rowOps.mp h
    exact ⟨hw, hm⟩

theorem clearOps_rowsEffect {s : State} (hsrf : s.srf.wf) (hfb : s.fb.wf) (hpins : s.PinsIdle) {d : Nat} (hd : d < s.n.val) :
    RowsEffect s (runAll (clearOps s.params.hasShadow d) s) d (fun _ => 0x00#8) := by
  refine runAll_rowsEffect hsrf hfb hpins (clearOps_legal _ hd) (clearOps_transfers _ d s) (fun e q w m h => ?_)
    (fun hs r hr => runAll_sh_of_overwritten (shWrite_mem_clearOps.mpr ⟨hs, rfl, by omega, rfl, rfl⟩) (fun e q w m h _ => ?_) hsrf)
  · obtain ⟨hs, he, hq, -⟩ := shWrite_mem_clearOps.mp h
    exact ⟨hs, he, by omega⟩
  · obtain ⟨-, -, -, hw, hm⟩ := shWrite_mem_clearOps.mp h
    exact ⟨hw, hm⟩

/-- Settles O27: the list clears the eight rows in ascending order. -/
theorem clearDisplayClearsTheRowsOfOneDevice : Obligations.ClearDisplayClearsTheRowsOfOneDevice := by
  unfold Obligations.ClearDisplayClearsTheRowsOfOneDevice
  intro s a b c f
  exact ⟨decodeCommand_encodeCommand _ _ _ _ _, fun ha => exec_of_checksFail rfl (Nat.not_lt.mpr ha),
    fun ha hsrf hfb hpins => ⟨_, exec_of_checksPass rfl ha, clearOps_rowsEffect hsrf hfb hpins ha⟩⟩

/-- Settles O29: the list overwrites row B with C. -/
theorem setRowOverwritesOneRow : Obligations.SetRowOverwritesOneRow := by
  unfold Obligations.SetRowOverwritesOneRow
  intro s a b c f
  refine ⟨decodeCommand_encodeCommand _ _ _ _ _, fun h => exec_of_checksFail rfl ?_, fun ha hb hsrf hfb hpins =>
    ⟨_, exec_of_checksPass rfl ⟨ha, hb⟩, rowOps_rowEffect hsrf hfb hpins ha hb c⟩⟩
  simp only [ChecksPass]
  omega

/-! ### Patterns from the table -/

theorem digitPattern_of_le (p : Params) {c : Byte} (hc : c.toNat ≤ 15) (dp : Bool) :
    digitPattern p c dp = withPoint (p.segRom[c.toNat]'(Nat.lt_of_le_of_lt hc (by decide))) dp := by
  have hindex : (c.setWidth 4).toNat = c.toNat := by
    rw [BitVec.toNat_setWidth]
    exact Nat.mod_eq_of_lt (by omega)
  simp only [digitPattern, encDigit, hindex]

theorem charPattern_of_le (p : Params) {c : Byte} (hc : c.toNat ≤ 127) (dp : Bool) :
    charPattern p c dp = withPoint (p.segRom[c.toNat]'(Nat.lt_of_le_of_lt hc (by decide))) dp := by
  have hsubst : substituteCode c = c := if_neg (Nat.not_lt.mpr hc)
  have hindex : (c.setWidth 7).toNat = c.toNat := by
    rw [BitVec.toNat_setWidth]
    exact Nat.mod_eq_of_lt (by omega)
  simp only [charPattern, encChar, hsubst, hindex]

/-- Settles O31: the list overwrites row B with the digit's pattern, which is the table's entry C with the point. -/
theorem setDigitSendsTheTableEntry : Obligations.SetDigitSendsTheTableEntry := by
  unfold Obligations.SetDigitSendsTheTableEntry
  intro s a b c f
  refine ⟨decodeCommand_encodeCommand _ _ _ _ _, fun h => exec_of_checksFail rfl ?_, fun hc ha hb hsrf hfb hpins =>
    ⟨_, exec_of_checksPass rfl ⟨ha, hb, hc⟩, ?_⟩⟩
  · simp only [ChecksPass]
    omega
  · show RowEffect s _ a.toNat b.toNat (withPoint _ f)
    rw [← digitPattern_of_le s.params hc]
    exact rowOps_rowEffect hsrf hfb hpins ha hb _

/-- Settles O32: the list overwrites row B with the character's pattern, which is the table's entry C, or 32 for a code above 127,
with the point. -/
theorem setCharSendsTheTableEntry : Obligations.SetCharSendsTheTableEntry := by
  unfold Obligations.SetCharSendsTheTableEntry
  intro s a b c f
  refine ⟨decodeCommand_encodeCommand _ _ _ _ _, fun h => exec_of_checksFail rfl ?_, fun hc ha hb hsrf hfb hpins =>
    ⟨_, exec_of_checksPass rfl ⟨ha, hb⟩, ?_⟩, fun hc ha hb hsrf hfb hpins => ⟨_, exec_of_checksPass rfl ⟨ha, hb⟩, ?_⟩⟩
  · simp only [ChecksPass]
    omega
  · show RowEffect s _ a.toNat b.toNat (withPoint _ f)
    rw [← charPattern_of_le s.params hc]
    exact rowOps_rowEffect hsrf hfb hpins ha hb _
  · show RowEffect s _ a.toNat b.toNat (withPoint _ f)
    rw [← charPattern_of_gt hc]
    exact rowOps_rowEffect hsrf hfb hpins ha hb _

/-! ### One bit of a row -/

theorem shWrite_mem_ledOps {e q d r c : Nat} {w m : Byte} {on : Bool} :
    .shWrite e q w m ∈ ledOps d r c on ↔ e = d ∧ q = r ∧ w = level on ∧ m = columnMask c := by
  simp [ledOps]

/-- What SETLED's steps leave in the shadow: the bit in the lane of the row, no other lane. -/
theorem runAll_ledOps_sh {s : State} (hsrf : s.srf.wf) {d r q : Nat} (hr : r ≤ 7) (hq : q ≤ 7) (c : Nat) (on : Bool) :
    (runAll (ledOps d r c on) s).sh d q = if q = r then ledByte (s.sh d q) c on else s.sh d q := by
  have hxfer : (runAll (ledOps d r c on) s).sh d q = (shWrite d r (level on) (columnMask c) s).sh d q := by
    simp [ledOps, MicroOp.run, State.sh]
  rw [hxfer, shWrite_sh hsrf hq hr]
  simp only [true_and]
  rfl

/-- SETLED's one transfer carries the updated byte (44_controller_display.md R198). -/
theorem ledOps_transfers {s : State} (hsrf : s.srf.wf) {d r : Nat} (hr : r ≤ 7) (c : Nat) (on : Bool) :
    transfersOf (ledOps d r c on) s = [⟨d, rowOpcode r, ledByte (s.sh d r) c on⟩] := by
  have hsh : (shWrite d r (level on) (columnMask c) s).sh d r = ledByte (s.sh d r) c on := by
    rw [shWrite_sh hsrf hr hr, if_pos ⟨rfl, rfl⟩]
    rfl
  exact congrArg (fun v => [(⟨d, rowOpcode r, v⟩ : Transfer)]) hsh

theorem ledOps_rowEffect {s : State} (hs : s.params.hasShadow = true) (hsrf : s.srf.wf) (hfb : s.fb.wf) (hpins : s.PinsIdle)
    {d r : Nat} (hd : d < s.n.val) (hr : r ≤ 7) (c : Nat) (on : Bool) :
    RowEffect s (runAll (ledOps d r c on) s) d r (ledByte (s.sh d r) c on) := by
  refine runAll_rowEffect hsrf hfb hpins (ledOps_legal c on hd hr) (ledOps_transfers hsrf hr c on) (fun e q w m h => ?_)
    fun _ => by rw [runAll_ledOps_sh hsrf hr hr, if_pos rfl]
  obtain ⟨he, hq, -⟩ := shWrite_mem_ledOps.mp h
  exact ⟨hs, he, hq⟩

/-- SETLED in range, with the shadow, runs its list. -/
theorem exec_setLed {s : State} (hs : s.params.hasShadow = true) {a b c : Byte} (ha : a.toNat < s.n.val) (hb : b.toNat ≤ 7)
    (hc : c.toNat ≤ 7) (f : Bool) : exec (.setLed a b c f) s = .next (runAll (ledOps a.toNat b.toNat c.toNat f) s) :=
  exec_of_checksPass (c := commandSetLed a b c f) rfl ⟨hs, ha, hb, hc⟩

/-- Settles O28: the masked write changes bit `7 - C`, and the transfer carries the lane as the write left it. -/
theorem setLedChangesOneBitOfOneRow : Obligations.SetLedChangesOneBitOfOneRow := by
  unfold Obligations.SetLedChangesOneBitOfOneRow
  intro s a b c f
  refine ⟨decodeCommand_encodeCommand _ _ _ _ _, fun h => exec_of_checksFail rfl ?_, fun hs ha hb hc hsrf hfb hpins =>
    ⟨_, exec_setLed hs ha hb hc f, ?_⟩⟩
  · rintro ⟨hs, ha, hb, hc⟩
    simp only [hs, reduceCtorEq, false_or] at h
    omega
  · have h := ledOps_rowEffect hs hsrf hfb hpins ha hb c.toNat f
    have hsh := h.shadow hs
    refine ⟨hsh ▸ h, fun k hk => ?_⟩
    exact (congrArg (BitVec.getLsbD · k) hsh).trans (getLsbD_ledByte _ hc f hk)

/-! ### One bit of every row -/

/-- SETCOLUMN's steps for the rows below `k`: bit `on r` into column `c` of row `r`. -/
def columnOps (d c : Nat) (on : Nat → Bool) (k : Nat) : List MicroOp := (List.range k).flatMap fun r => ledOps d r c (on r)

theorem columnOps_succ (d c : Nat) (on : Nat → Bool) (k : Nat) :
    columnOps d c on (k + 1) = columnOps d c on k ++ ledOps d k c (on k) := by
  rw [columnOps, List.range_succ, List.flatMap_append, List.flatMap_singleton]
  rfl

theorem shWrite_mem_columnOps {e q d c k : Nat} {on : Nat → Bool} {w m : Byte} (h : .shWrite e q w m ∈ columnOps d c on k) :
    e = d ∧ q < k := by
  obtain ⟨r, hr, hmem⟩ := List.mem_flatMap.mp h
  obtain ⟨he, rfl, -⟩ := shWrite_mem_ledOps.mp hmem
  exact ⟨he, List.mem_range.mp hr⟩

theorem columnOps_legal {n d c : Nat} {on : Nat → Bool} (hd : d < n) : ∀ o ∈ columnOps d c on 8, o.illegal n = none := by
  intro o ho
  obtain ⟨r, hr, ho⟩ := List.mem_flatMap.mp ho
  exact ledOps_legal c (on r) hd (by have := List.mem_range.mp hr; omega) o ho

/-- The rows below `k` have their bit, the others are as before. -/
theorem runAll_columnOps_sh {s : State} (hsrf : s.srf.wf) (d c : Nat) (on : Nat → Bool) {k q : Nat} (hk : k ≤ 8) (hq : q ≤ 7) :
    (runAll (columnOps d c on k) s).sh d q = if q < k then ledByte (s.sh d q) c (on q) else s.sh d q := by
  induction k with
  | zero => rfl
  | succ k ih =>
    rw [columnOps_succ, runAll_append, runAll_ledOps_sh (runAll_srfWf hsrf _) (by omega) hq, ih (by omega)]
    rcases Nat.lt_trichotomy q k with h | rfl | h
    · rw [if_neg (by omega), if_pos h, if_pos (by omega)]
    · rw [if_pos rfl, if_neg (by omega), if_pos (by omega)]
    · rw [if_neg (by omega), if_neg (by omega), if_neg (by omega)]

/-- Every row is sent as the steps for it leave it; the steps for other rows do not touch it. -/
theorem columnOps_transfers {s : State} (hsrf : s.srf.wf) (d c : Nat) (on : Nat → Bool) {k : Nat} (hk : k ≤ 8) :
    transfersOf (columnOps d c on k) s =
      (List.range k).map (fun r => ⟨d, rowOpcode r, ledByte (s.sh d r) c (on r)⟩) := by
  induction k with
  | zero => rfl
  | succ k ih =>
    rw [columnOps_succ, transfersOf_append, ih (by omega), ledOps_transfers (runAll_srfWf hsrf _) (by omega),
      runAll_columnOps_sh hsrf d c on (by omega) (by omega), if_neg (Nat.lt_irrefl k), List.range_succ, List.map_append,
      List.map_singleton]

theorem columnOps_rowsEffect {s : State} (hs : s.params.hasShadow = true) (hsrf : s.srf.wf) (hfb : s.fb.wf) (hpins : s.PinsIdle)
    {d : Nat} (hd : d < s.n.val) (c : Nat) (on : Nat → Bool) :
    RowsEffect s (runAll (columnOps d c on 8) s) d (fun r => ledByte (s.sh d r) c (on r)) := by
  refine runAll_rowsEffect hsrf hfb hpins (columnOps_legal hd) (columnOps_transfers hsrf d c on (Nat.le_refl 8))
    (fun e q w m h => ?_) fun _ r hr => by rw [runAll_columnOps_sh hsrf d c on (Nat.le_refl 8) hr, if_pos (by omega)]
  obtain ⟨he, hq⟩ := shWrite_mem_columnOps h
  exact ⟨hs, he, by omega⟩

/-- Of the patterns only those of the rows 0 to 7 count. -/
theorem RowsEffect.congr {s t : State} {d : Nat} {v w : Nat → Byte} (h : RowsEffect s t d v) (hvw : ∀ r, r ≤ 7 → v r = w r) :
    RowsEffect s t d w where
  control := h.control
  shadow hs r hr := (h.shadow hs r hr).trans (hvw r hr)
  lanes := h.lanes
  minimal := h.minimal
  sent := by
    have heq : (List.range 8).map (fun r => (⟨d, rowOpcode r, w r⟩ : Transfer)) =
        (List.range 8).map (fun r => ⟨d, rowOpcode r, v r⟩) :=
      List.map_congr_left fun r hr => by rw [hvw r (by have := List.mem_range.mp hr; omega)]
    exact heq ▸ h.sent
  last := hvw 7 (Nat.le_refl 7) ▸ h.last
  device hw r q hr hq := by rw [h.device hw r q hr hq, hvw r hr]
  otherRegs := h.otherRegs

/-- Settles O30: row `r` gets bit `7 - r` of C in bit `7 - B`, and is sent as the shadow then holds it. -/
theorem setColumnChangesOneBitOfEveryRow : Obligations.SetColumnChangesOneBitOfEveryRow := by
  unfold Obligations.SetColumnChangesOneBitOfEveryRow
  intro s a b c f
  refine ⟨decodeCommand_encodeCommand _ _ _ _ _, fun h => exec_of_checksFail rfl ?_, fun hs ha hb hsrf hfb hpins =>
    ⟨_, exec_of_checksPass rfl ⟨hs, ha, hb⟩, ?_⟩⟩
  · rintro ⟨hs, ha, hb⟩
    simp only [hs, reduceCtorEq, false_or] at h
    omega
  · have h := columnOps_rowsEffect hs hsrf hfb hpins ha b.toNat (columnBit c)
    have hsh := h.shadow hs
    refine ⟨h.congr fun r hr => (hsh r hr).symm, fun r k hr hk => ?_⟩
    exact (congrArg (BitVec.getLsbD · k) (hsh r hr)).trans (getLsbD_ledByte _ hb _ hk)

end Sys2Proof.Machine
end

section
/-! What the display commands have in common (44_controller_display.md R196, R198, R200, R204): SETCOLUMN is eight SETLED, a second
SETLED changes nothing more, only the addressed device is touched, and without the shadow the same frames are sent. -/

namespace Sys2Proof.Machine

/-! ### SETCOLUMN as eight SETLED -/

/-- SETLED commands for rows that exist, one after another, run the lists of these rows one after another. -/
theorem execAll_setLed {s : State} (hs : s.params.hasShadow = true) {a b : Byte} (ha : a.toNat < s.n.val) (hb : b.toNat ≤ 7)
    (on : Nat → Bool) {rs : List Nat} (hrs : ∀ r ∈ rs, r ≤ 7) :
    execAll (rs.map fun r => .setLed a (BitVec.ofNat 8 r) b (on r)) s =
      .next (runAll (rs.flatMap fun r => ledOps a.toNat r b.toNat (on r)) s) := by
  induction rs generalizing s with
  | nil => rfl
  | cons r rs ih =>
    obtain ⟨hr, hrs⟩ := List.forall_mem_cons.mp hrs
    have hrow : (BitVec.ofNat 8 r).toNat = r := (BitVec.toNat_ofNat _ _).trans (Nat.mod_eq_of_lt (by omega))
    have hled := exec_setLed hs (b := BitVec.ofNat 8 r) ha (by omega) hb (on r)
    rw [hrow] at hled
    rw [List.map_cons, execAll, hled, List.flatMap_cons, runAll_append]
    exact ih (by rwa [runAll_params]) (by rwa [runAll_n]) hrs

/-- Settles O34: the list of SETCOLUMN is those of the eight SETLED in order. -/
theorem setColumnEqualsEightSetLeds : Obligations.SetColumnEqualsEightSetLeds := by
  unfold Obligations.SetColumnEqualsEightSetLeds
  intro s a b c hs ha hb
  refine (exec_of_checksPass (i := .setColumn a b c) rfl ⟨hs, ha, hb⟩).trans ?_
  exact (execAll_setLed hs ha hb (columnBit c) fun r hr => by have := List.mem_range.mp hr; omega).symm

/-! ### SETLED twice -/

/-- Setting a bit that already has its value changes nothing. -/
theorem ledByte_idem (old : Byte) {c : Nat} (hc : c ≤ 7) (on : Bool) : ledByte (ledByte old c on) c on = ledByte old c on := by
  refine BitVec.eq_of_getLsbD_eq fun k hk => ?_
  rw [getLsbD_ledByte _ hc on hk, getLsbD_ledByte _ hc on hk]
  split <;> rfl

/-- Two writes of the same value to the same register: the second changes none. -/
theorem DregWritten.dreg_eq {s t u : State} {d : Nat} {a : DevReg} {v : Byte} (h : DregWritten s t d a v)
    (h' : DregWritten t u d a v) (e : Nat) (b : DevReg) : u.dreg e b = t.dreg e b := by
  by_cases heq : e = d ∧ b = a
  · obtain ⟨rfl, rfl⟩ := heq
    rw [h.written, h'.written]
  · exact h'.others e b heq

/-- Two row writes of the same pattern: the second changes no lane. -/
theorem RowEffect.srf_read_eq {s t u : State} {d r : Nat} {v : Byte} (hs : s.params.hasShadow = true) (h : RowEffect s t d r v)
    (h' : RowEffect t u d r v) (a : Nat) : u.srf.read a = t.srf.read a := by
  by_cases ha : a = lane d r
  · subst ha
    have ht : t.params.hasShadow = true := h.control.params ▸ hs
    exact (h'.shadow ht).trans (h.shadow hs).symm
  · exact h'.lanes a ha

/-- Settles O35: both runs write the same row with the same byte, because the bit is already set in the second. -/
theorem setLedIsIdempotent : Obligations.SetLedIsIdempotent := by
  unfold Obligations.SetLedIsIdempotent
  intro s t u a b c f hs ha hb hc hsrf hfb hpins hw ht hu
  obtain rfl := Host.Outcome.next.inj ((exec_setLed hs ha hb hc f).symm.trans ht)
  have first := ledOps_rowEffect hs hsrf hfb hpins ha hb c.toNat f
  have hwf := runAll_srfWf hsrf (ledOps a.toNat b.toNat c.toNat f)
  have hfb' := runAll_fbWf hfb (ledOps a.toNat b.toNat c.toNat f)
  have hpins' := runAll_pins hpins (ledOps a.toNat b.toNat c.toNat f)
  have hw' := (runAll_wiredRight (ledOps a.toNat b.toNat c.toNat f) s).mpr hw
  generalize runAll (ledOps a.toNat b.toNat c.toNat f) s = t at first hwf hfb' hpins' hw' hu ⊢
  have hs' : t.params.hasShadow = true := first.control.params ▸ hs
  have ha' : a.toNat < t.n.val := first.control.n ▸ ha
  obtain rfl := Host.Outcome.next.inj ((exec_setLed hs' ha' hb hc f).symm.trans hu)
  have second := ledOps_rowEffect hs' hwf hfb' hpins' ha' hb c.toNat f
  rw [first.shadow hs, ledByte_idem _ hc] at second
  obtain ⟨q, hq⟩ := exists_rowReg hb
  refine ⟨Memory.eq_of_read (runAll_srfWf hwf _) hwf (first.srf_read_eq hs second),
    (first.device hw q hq).dreg_eq (second.device hw' q hq), ?_⟩
  rw [second.sent.transfers, List.length_append]
  rfl

/-! ### One device -/

/-- The device whose lane or register an entry writes. -/
def MicroOp.device : MicroOp → Nat
  | .shWrite d _ _ _ => d
  | .xfer t _ _ => t

theorem rowOps_device {hs : Bool} {d r : Nat} {v : Byte} : ∀ o ∈ rowOps hs d r v, o.device = d := by
  cases hs <;> simp [rowOps, ifShadow, MicroOp.device]

theorem ledOps_device {d r c : Nat} {on : Bool} : ∀ o ∈ ledOps d r c on, o.device = d := by
  simp [ledOps, MicroOp.device]

theorem flatMap_device {α : Type} {l : List α} {f : α → List MicroOp} {d : Nat} (h : ∀ a, ∀ o ∈ f a, o.device = d) :
    ∀ o ∈ l.flatMap f, o.device = d := by
  intro o ho
  obtain ⟨a, -, ho⟩ := List.mem_flatMap.mp ho
  exact h a o ho

/-- A display command writes nothing at once, and every entry of its list is for the addressed device. -/
theorem displayAddress_command {i : Instr} {a : Byte} (h : displayAddress i = some a) :
    ∃ c, commandOf i = some c ∧ ∀ s, c.immediate s = s ∧ ∀ o ∈ c.ops s, o.device = a.toNat := by
  cases i <;> simp only [displayAddress, Option.some.injEq, reduceCtorEq] at h <;> subst h
  case clearDisplay a => exact ⟨_, rfl, fun s => ⟨rfl, flatMap_device fun _ => rowOps_device⟩⟩
  case setLed a b c f => exact ⟨_, rfl, fun s => ⟨rfl, ledOps_device⟩⟩
  case setRow a b c => exact ⟨_, rfl, fun s => ⟨rfl, rowOps_device⟩⟩
  case setColumn a b c => exact ⟨_, rfl, fun s => ⟨rfl, flatMap_device fun _ => ledOps_device⟩⟩
  case setDigit a b c f => exact ⟨_, rfl, fun s => ⟨rfl, rowOps_device⟩⟩
  case setChar a b c f => exact ⟨_, rfl, fun s => ⟨rfl, rowOps_device⟩⟩

section OneDevice

variable {ops : List MicroOp} {e : Nat} (hdev : ∀ o ∈ ops, o.device = e)

include hdev

theorem transfersOf_target {s : State} : ∀ x ∈ transfersOf ops s, x.target = e := by
  intro x hx
  obtain ⟨data, hmem⟩ := mem_transfersOf hx
  exact hdev _ hmem

theorem runAll_sh_of_other_device {s : State} (hsrf : s.srf.wf) (hl : ∀ o ∈ ops, o.illegal s.n = none) {d r : Nat} (hd : d ≠ e)
    (hr : r ≤ 7) : (runAll ops s).sh d r = s.sh d r := by
  refine runAll_srf_of_other_lanes (fun d' r' w m h hlane => hd ?_) hsrf
  have hr' : r' ≤ 7 := by
    have hlegal := hl _ h
    simp only [MicroOp.illegal, ite_eq_left_iff, reduceCtorEq, imp_false, not_not] at hlegal
    exact hlegal.2
  exact (lane_inj (by omega) (by omega) hlane).1.symm.trans (hdev _ h)

theorem runAll_dreg_of_other_device {s : State} (hfb : s.fb.wf) (hpins : s.PinsIdle) (hw : s.WiredRight)
    (hl : ∀ o ∈ ops, o.illegal s.n = none) {d : Nat} (hd : d ≠ e) (q : DevReg) : (runAll ops s).dreg d q = s.dreg d q := by
  rw [runAll_dreg hfb hpins hw hl, lastWritten_eq_none, Option.none_or]
  intro x hx
  exact writes_of_ne ((transfersOf_target hdev x hx).symm ▸ hd) q

end OneDevice

/-- Settles O36: every entry of the list is for the addressed device; a dropped command has no entries. -/
theorem displayCommandsTouchOneDevice : Obligations.DisplayCommandsTouchOneDevice := by
  unfold Obligations.DisplayCommandsTouchOneDevice
  intro s t i a hi hsrf hfb hpins ht
  obtain ⟨c, hc, hops⟩ := displayAddress_command hi
  obtain ⟨him, hdev⟩ := hops s
  cases ha : c.accepts s with
  | false =>
    obtain rfl := Host.Outcome.next.inj ((exec_dropped hc ha).symm.trans ht)
    exact ⟨fun _ _ _ _ => rfl, ⟨[], runAll_sent_self hfb hpins [], by simp⟩, fun _ _ _ _ => rfl⟩
  | true =>
    have hl := commandOf_legal hc ha
    have hrun := (exec_accepted hc ha).symm.trans ht
    rw [him] at hl hrun
    obtain rfl := Host.Outcome.next.inj hrun
    exact ⟨fun d r hd hr => runAll_sh_of_other_device hdev hsrf hl hd hr,
      ⟨_, runAll_sent_self hfb hpins _, transfersOf_target hdev⟩,
      fun hw d q hd => runAll_dreg_of_other_device hdev hfb hpins hw hl hd q⟩

/-! ### Without the shadow -/

/-- The state with the shadow file `m` and the build parameters `p`; everything else is the same. -/
def State.withShadow (p : Params) (m : Memory) (s : State) : State := { s with params := p, srf := m }

theorem withShadow_pin (w : PinWrite) (s : State) (p : Params) (m : Memory) :
    pin w (s.withShadow p m) = (pin w s).withShadow p m := by
  obtain ⟨pn, v⟩ := w
  cases pn <;> simp only [pin, drivePin, apply_ite (State.withShadow p m)] <;> rfl

theorem withShadow_runPins (ws : List PinWrite) (s : State) (p : Params) (m : Memory) :
    runPins ws (s.withShadow p m) = (runPins ws s).withShadow p m := by
  induction ws generalizing s with
  | nil => rfl
  | cons w ws ih => rw [runPins_cons, runPins_cons, withShadow_pin, ih]

/-- A transfer looks neither at the shadow nor at the parameters. -/
theorem withShadow_xfer (x : Transfer) (s : State) (p : Params) (m : Memory) :
    xfer x (s.withShadow p m) = (xfer x s).withShadow p m :=
  congrArg (logTransfer x) (withShadow_runPins _ (buildFB x.target x.op x.data s) p m)

/-- `more` is `ops` without its shadow writes, and every transfer of `ops` sends a byte given in the list. -/
inductive Unshadowed : List MicroOp → List MicroOp → Prop
  | nil : Unshadowed [] []
  | shWrite {d r : Nat} {w m : Byte} {ops more : List MicroOp} (h : Unshadowed ops more) :
      Unshadowed (.shWrite d r w m :: ops) more
  | xfer {t : Nat} {op : Opcode} {v : Byte} {ops more : List MicroOp} (h : Unshadowed ops more) :
      Unshadowed (.xfer t op (.byte v) :: ops) (.xfer t op (.byte v) :: more)

theorem Unshadowed.append {ops more ops' more' : List MicroOp} (h : Unshadowed ops more) (h' : Unshadowed ops' more') :
    Unshadowed (ops ++ ops') (more ++ more') := by
  induction h with
  | nil => exact h'
  | shWrite _ ih => exact .shWrite ih
  | xfer _ ih => exact .xfer ih

theorem Unshadowed.flatMap {α : Type} {f g : α → List MicroOp} (h : ∀ a, Unshadowed (f a) (g a)) (l : List α) :
    Unshadowed (l.flatMap f) (l.flatMap g) := by
  induction l with
  | nil => exact .nil
  | cons a l ih => exact (h a).append ih

/-- The list without the shadow writes does the same to everything but the shadow. -/
theorem Unshadowed.runAll {ops more : List MicroOp} (h : Unshadowed ops more) (s : State) (p : Params) (m : Memory) :
    runAll more (s.withShadow p m) = (runAll ops s).withShadow p m := by
  induction h generalizing s with
  | nil => rfl
  | @shWrite d r w k _ _ _ ih => exact ih (Machine.shWrite d r w k s)
  | @xfer t op v _ _ _ ih =>
    rw [runAll_cons, runAll_cons, ← ih]
    exact congrArg _ (withShadow_xfer ⟨t, op, v⟩ s p m)

theorem rowOps_unshadowed (hs : Bool) (d r : Nat) (v : Byte) : Unshadowed (rowOps hs d r v) (rowOps false d r v) := by
  cases hs with
  | false => exact .xfer .nil
  | true => exact .shWrite (.xfer .nil)

theorem clearOps_unshadowed (hs : Bool) (d : Nat) : Unshadowed (clearOps hs d) (clearOps false d) :=
  .flatMap (fun r => rowOps_unshadowed hs d r 0x00#8) _

theorem initDeviceOps_unshadowed (hs : Bool) (d : Nat) : Unshadowed (initDeviceOps hs d) (initDeviceOps false d) :=
  have before : Unshadowed _ _ := .xfer (.xfer (.xfer .nil))
  (before.append (clearOps_unshadowed hs d)).append (.xfer .nil)

/-- The build without the shadow. -/
def minimalBuild (p : Params) : Params := { p with hasShadow := false }

/-- A command that runs in the build without the shadow as well: it makes the same checks, writes the same at once, and its list has
no shadow writes. -/
structure Command.RunsMinimal (c : Command) (s : State) : Prop where
  accepts : c.accepts (s.withShadow (minimalBuild s.params) s.srf) = c.accepts s
  immediate : c.immediate (s.withShadow (minimalBuild s.params) s.srf) = (c.immediate s).withShadow (minimalBuild s.params) s.srf
  ops : Unshadowed (c.ops (c.immediate s)) (c.ops (c.immediate (s.withShadow (minimalBuild s.params) s.srf)))

theorem exec_minimal {i : Instr} {c : Command} (hc : commandOf i = some c) {s t : State} (h : c.RunsMinimal s)
    (ht : exec i s = .next t) :
    exec i (s.withShadow (minimalBuild s.params) s.srf) = .next (t.withShadow (minimalBuild s.params) s.srf) := by
  cases ha : c.accepts s with
  | false =>
    obtain rfl := Host.Outcome.next.inj ((exec_dropped hc ha).symm.trans ht)
    exact exec_dropped hc (h.accepts.trans ha)
  | true =>
    obtain rfl := Host.Outcome.next.inj ((exec_accepted hc ha).symm.trans ht)
    rw [exec_accepted hc (h.accepts.trans ha), ← h.ops.runAll, h.immediate]

/-- Settles O37: the list without the shadow is the list with it, but for the shadow writes. -/
theorem minimalSetSendsTheSameFrames : Obligations.MinimalSetSendsTheSameFrames := by
  unfold Obligations.MinimalSetSendsTheSameFrames
  intro s t i hi ht
  obtain ⟨c, hc, hmin⟩ : ∃ c, commandOf i = some c ∧ c.RunsMinimal s := by
    obtain ⟨a, rfl⟩ | ⟨a, b, c, rfl⟩ | ⟨a, b, c, f, rfl⟩ | ⟨a, b, c, f, rfl⟩ | ⟨a, rfl⟩ := hi
    · exact ⟨_, rfl, rfl, rfl, clearOps_unshadowed _ _⟩
    · exact ⟨_, rfl, rfl, rfl, rowOps_unshadowed _ _ _ _⟩
    · exact ⟨_, rfl, rfl, rfl, rowOps_unshadowed _ _ _ _⟩
    · exact ⟨_, rfl, rfl, rfl, rowOps_unshadowed _ _ _ _⟩
    · exact ⟨_, rfl, rfl, rfl, .flatMap (initDeviceOps_unshadowed _) _⟩
  exact ⟨_, exec_minimal hc hmin ht, rfl, rfl, rfl, rfl, rfl⟩

end Sys2Proof.Machine
end

section
/-! The shadow, the transfer log and the chain (44_controller_display.md R203, 70_reset_and_hazards.md R266): with the shadow present
every command's list is made of row writes, each a shadow write and the transfer of the lane it leaves, and of transfers of other
registers. Both relations are kept by both. -/

namespace Sys2Proof.Machine

/-! ### Lists made of row writes and of other transfers -/

/-- The list is made of row writes, each a shadow write with the transfer of its byte right behind it, and of transfers of opcodes
above the rows'. -/
inductive PaintsRows : List MicroOp → Prop
  | nil : PaintsRows []
  | control {t : Nat} {op : Opcode} {x : XferData} {ops : List MicroOp} (hop : 8 < op.toNat) (h : PaintsRows ops) :
      PaintsRows (.xfer t op x :: ops)
  | row {w : MicroOp} {d r : Nat} {x : XferData} {ops : List MicroOp} (hr : r ≤ 7) (hw : w.Provides d r x) (h : PaintsRows ops) :
      PaintsRows (w :: .xfer d (rowOpcode r) x :: ops)

theorem PaintsRows.append {ops ops' : List MicroOp} (h : PaintsRows ops) (h' : PaintsRows ops') : PaintsRows (ops ++ ops') := by
  induction h with
  | nil => exact h'
  | control hop _ ih => exact .control hop ih
  | row hr hw _ ih => exact .row hr hw ih

theorem PaintsRows.flatMap {α : Type} {l : List α} {f : α → List MicroOp} (h : ∀ a ∈ l, PaintsRows (f a)) :
    PaintsRows (l.flatMap f) := by
  induction l with
  | nil => exact .nil
  | cons a l ih =>
    obtain ⟨ha, hl⟩ := List.forall_mem_cons.mp h
    exact ha.append (ih hl)

theorem rowOps_paintsRows (d : Nat) {r : Nat} (v : Byte) (hr : r ≤ 7) : PaintsRows (rowOps true d r v) :=
  .row hr ⟨v, 0xFF#8, rfl, .inr ⟨rfl, rfl⟩⟩ .nil

theorem ledOps_paintsRows (d : Nat) {r : Nat} (c : Nat) (on : Bool) (hr : r ≤ 7) : PaintsRows (ledOps d r c on) :=
  .row hr ⟨level on, columnMask c, rfl, .inl rfl⟩ .nil

theorem clearOps_paintsRows (d : Nat) : PaintsRows (clearOps true d) :=
  .flatMap fun _ hr => rowOps_paintsRows d _ (Nat.le_of_lt_succ (List.mem_range.mp hr))

theorem initDeviceOps_paintsRows (d : Nat) : PaintsRows (initDeviceOps true d) :=
  have before : PaintsRows [.xfer d 15#4 (.byte 0x00#8), .xfer d 11#4 (.byte 0x07#8), .xfer d 9#4 (.byte 0x00#8)] :=
    .control (by decide) (.control (by decide) (.control (by decide) .nil))
  (before.append (clearOps_paintsRows d)).append (.control (by decide) .nil)

theorem commandOf_paintsRows {i : Instr} {c : Command} (hi : commandOf i = some c) {s : State} (hs : s.params.hasShadow = true)
    (h : c.accepts s = true) : PaintsRows (c.ops (c.immediate s)) := by
  have hchecks := (accepts_iff hi).mp h
  cases i <;> simp only [commandOf, Option.some.injEq, reduceCtorEq] at hi <;> subst hi
  case init a =>
    simp only [commandInit, hs]
    exact .flatMap fun d _ => initDeviceOps_paintsRows d
  case shutdown a f => exact .control (by decide) .nil
  case setScanLimit a c => exact .control (by decide) .nil
  case setIntensity a c => exact .control (by decide) .nil
  case clearDisplay a =>
    simp only [commandClearDisplay, hs]
    exact clearOps_paintsRows _
  case setLed a b c f =>
    obtain ⟨-, -, hb, -⟩ := hchecks
    exact ledOps_paintsRows _ _ _ hb
  case setRow a b c =>
    obtain ⟨-, hb⟩ := hchecks
    simp only [commandSetRow, hs]
    exact rowOps_paintsRows _ _ hb
  case setColumn a b c => exact .flatMap fun r hr => ledOps_paintsRows _ _ _ (Nat.le_of_lt_succ (List.mem_range.mp hr))
  case setDigit a b c f =>
    obtain ⟨-, hb, -⟩ := hchecks
    simp only [commandSetDigit, hs]
    exact rowOps_paintsRows _ _ hb
  case setChar a b c f =>
    obtain ⟨-, hb⟩ := hchecks
    simp only [commandSetChar, hs]
    exact rowOps_paintsRows _ _ hb
  case getDeviceCount => exact .nil

/-- A property that row writes and transfers of other registers keep, such a list keeps. -/
theorem PaintsRows.keeps {P : State → Prop} {ops : List MicroOp} (h : PaintsRows ops)
    (control : ∀ t op x s, .xfer t op x ∈ ops → 8 < op.toNat → P s → P ((MicroOp.xfer t op x).run s))
    (row : ∀ (w : MicroOp) d r x s, .xfer d (rowOpcode r) x ∈ ops → r ≤ 7 → w.Provides d r x → P s →
      P ((MicroOp.xfer d (rowOpcode r) x).run (w.run s))) {s : State} (hs : P s) : P (runAll ops s) := by
  induction h generalizing s with
  | nil => exact hs
  | @control t op x ops hop _ ih =>
    exact ih (fun t op x s hmem => control t op x s (List.mem_cons_of_mem _ hmem))
      (fun w d r x s hmem => row w d r x s (List.mem_cons_of_mem _ hmem)) (control t op x s List.mem_cons_self hop hs)
  | @row w d r x ops hr hw _ ih =>
    exact ih (fun t op x s hmem => control t op x s (List.mem_cons_of_mem _ (List.mem_cons_of_mem _ hmem)))
      (fun w d r x s hmem => row w d r x s (List.mem_cons_of_mem _ (List.mem_cons_of_mem _ hmem)))
      (row w d r x s (List.mem_cons_of_mem _ List.mem_cons_self) hr hw hs)

section Provides

variable {w : MicroOp} {d r : Nat} {x : XferData} (h : w.Provides d r x)

include h

/-- The shadow write of a row leaves in the lane the byte that is sent, and the other lanes as they were. -/
theorem MicroOp.Provides.sh {s : State} (hsrf : s.srf.wf) (hr : r ≤ 7) {e q : Nat} (hq : q ≤ 7) :
    (w.run s).sh e q = if e = d ∧ q = r then x.value (w.run s) else s.sh e q := by
  obtain ⟨wdata, wmask, rfl, hx⟩ := h
  by_cases hlane : e = d ∧ q = r
  · obtain ⟨rfl, rfl⟩ := hlane
    rw [if_pos ⟨rfl, rfl⟩]
    obtain rfl | ⟨rfl, rfl⟩ := hx
    · rfl
    · rw [MicroOp.run, shWrite_sh hsrf hq hr, if_pos ⟨rfl, rfl⟩, overwrite_byte]
      rfl
  · rw [if_neg hlane, MicroOp.run, shWrite_sh hsrf hq hr, if_neg hlane]

theorem MicroOp.Provides.xferTrace (s : State) : (w.run s).xferTrace = s.xferTrace := by
  obtain ⟨wdata, wmask, rfl, -⟩ := h
  rfl

theorem MicroOp.Provides.dreg (s : State) (e : Nat) (a : DevReg) : (w.run s).dreg e a = s.dreg e a := by
  obtain ⟨wdata, wmask, rfl, -⟩ := h
  rfl

end Provides

theorem xfer_sh (x : Transfer) (s : State) (d r : Nat) : (xfer x s).sh d r = s.sh d r := by
  rw [State.sh, xfer_srf, State.sh]

/-! ### Shadow equals last sent -/

theorem lastSent_cons (x : Transfer) (log : List Transfer) (d : Nat) (op : Opcode) :
    lastSent (x :: log) d op = if x.target = d ∧ x.op = op then x.data else lastSent log d op := by
  by_cases h : x.target = d ∧ x.op = op <;> simp [lastSent, h]

/-- A transfer of another register sends nothing to a row. -/
theorem State.ShadowIsLastSent.control {s : State} (h : s.ShadowIsLastSent) {x : Transfer} (hop : 8 < x.op.toNat) :
    (xfer x s).ShadowIsLastSent := by
  intro d r hd hr
  rw [xfer_sh, xfer_xferTrace, lastSent_cons, if_neg fun hx => rowOpcode_ne hr hop hx.2.symm]
  exact h d r hd hr

/-- A row write leaves in the lane what it sends. -/
theorem State.ShadowIsLastSent.row {s : State} (h : s.ShadowIsLastSent) (hsrf : s.srf.wf) {w : MicroOp} {d r : Nat} {x : XferData}
    (hr : r ≤ 7) (hw : w.Provides d r x) : ((MicroOp.xfer d (rowOpcode r) x).run (w.run s)).ShadowIsLastSent := by
  intro e q he hq
  rw [MicroOp.run, xfer_sh, xfer_xferTrace, lastSent_cons, hw.sh hsrf hr hq, hw.xferTrace]
  by_cases hlane : e = d ∧ q = r
  · obtain ⟨rfl, rfl⟩ := hlane
    rw [if_pos ⟨rfl, rfl⟩, if_pos ⟨rfl, rfl⟩]
  · rw [if_neg hlane, if_neg fun hx => hlane ⟨hx.1.symm, rowOpcode_injective hq hr hx.2.symm⟩]
    exact h e q he hq

theorem PaintsRows.shadowIsLastSent {ops : List MicroOp} (hops : PaintsRows ops) {s : State} (hsrf : s.srf.wf)
    (h : s.ShadowIsLastSent) : (runAll ops s).ShadowIsLastSent := by
  have hkeep : (runAll ops s).srf.wf ∧ (runAll ops s).ShadowIsLastSent := by
    refine hops.keeps (P := fun u => u.srf.wf ∧ u.ShadowIsLastSent) ?_ ?_ ⟨hsrf, h⟩
    · rintro t op x u - hop ⟨hwf, hu⟩
      exact ⟨MicroOp_run_srfWf hwf _, hu.control hop⟩
    · rintro w d r x u - hr hw ⟨hwf, hu⟩
      exact ⟨MicroOp_run_srfWf (MicroOp_run_srfWf hwf _) _, hu.row hwf hr hw⟩
  exact hkeep.2

/-- A wire opcode touches neither the shadow nor the transfer log. -/
theorem exec_wire_shadowIsLastSent {i : Instr} (hc : commandOf i = none) {s t : State} (h : s.ShadowIsLastSent)
    (ht : exec i s = .next t) : t.ShadowIsLastSent := by
  cases i <;> simp only [commandOf, reduceCtorEq] at hc <;> obtain rfl := Host.Outcome.next.inj ht <;> exact h

/-- What a command writes at once is neither in the shadow nor in the log. -/
theorem immediate_shadowIsLastSent {i : Instr} {c : Command} (hc : commandOf i = some c) {s : State} (hsrf : s.srf.wf)
    (h : s.ShadowIsLastSent) : (c.immediate s).srf.wf ∧ (c.immediate s).ShadowIsLastSent := by
  obtain him | ⟨a, -, him⟩ | ⟨-, him⟩ := commandOf_immediate hc s <;> rw [him] <;> exact ⟨hsrf, h⟩

/-- Settles O43: a command's list is made of row writes and of transfers of other registers, and both keep the relation. -/
theorem shadowEqualsLastSentIsKept : Obligations.ShadowEqualsLastSentIsKept := by
  unfold Obligations.ShadowEqualsLastSentIsKept
  intro i s t hs hsrf h ht
  cases hc : commandOf i with
  | none => exact exec_wire_shadowIsLastSent hc h ht
  | some c =>
    cases ha : c.accepts s with
    | false =>
      obtain rfl := Host.Outcome.next.inj ((exec_dropped hc ha).symm.trans ht)
      exact h
    | true =>
      obtain rfl := Host.Outcome.next.inj ((exec_accepted hc ha).symm.trans ht)
      obtain ⟨hwf, hbegin⟩ := immediate_shadowIsLastSent hc hsrf h
      exact (commandOf_paintsRows hc hs ha).shadowIsLastSent hwf hbegin

/-! ### The digit registers follow the shadow -/

/-- What holds between the entries of a list, with `P = N`, whatever the rows are. -/
structure State.BetweenTransfers (s : State) : Prop where
  srfWf : s.srf.wf
  fbWf : s.fb.wf
  pins : s.PinsIdle
  wired : s.WiredRight

theorem State.BetweenTransfers.run {s : State} (h : s.BetweenTransfers) (op : MicroOp) : (op.run s).BetweenTransfers where
  srfWf := MicroOp_run_srfWf h.srfWf op
  fbWf := MicroOp_run_fbWf h.fbWf op
  pins := MicroOp_run_pins h.pins op
  wired := by rw [State.WiredRight, MicroOp_run_wired, MicroOp_run_n, h.wired]

/-- A transfer of another register leaves the digit registers as they are. -/
theorem State.ShadowMatchesChain.control {s : State} (h : s.ShadowMatchesChain) (hs : s.BetweenTransfers) {x : Transfer}
    (ht : x.target < s.n.val) (hop : 8 < x.op.toNat) : (xfer x s).ShadowMatchesChain := by
  intro d r q hd hr hq
  rw [xfer_n] at hd
  rw [xfer_sh, xfer_dreg_wired hs.fbWf hs.pins.2 hs.wired ht, if_neg fun hx => rowOpcode_ne hr hop (ofOpcode_injective hq hx.2)]
  exact h d r q hd hr hq

/-- A row write leaves in the lane what it writes to the digit register. -/
theorem State.ShadowMatchesChain.row {s : State} (h : s.ShadowMatchesChain) (hs : s.BetweenTransfers) {w : MicroOp} {d r : Nat}
    {x : XferData} (hd : d < s.n.val) (hr : r ≤ 7) (hw : w.Provides d r x) :
    ((MicroOp.xfer d (rowOpcode r) x).run (w.run s)).ShadowMatchesChain := by
  intro e p q he hp hq
  rw [MicroOp_run_n, MicroOp_run_n] at he
  have hmid := hs.run w
  have hdreg := xfer_dreg_wired hmid.fbWf hmid.pins.2 hmid.wired (x := ⟨d, rowOpcode r, x.value (w.run s)⟩)
    (by rwa [MicroOp_run_n]) e q
  rw [MicroOp.run, xfer_sh, hdreg, hw.sh hs.srfWf hr hp, hw.dreg]
  by_cases hlane : e = d ∧ p = r
  · obtain ⟨rfl, rfl⟩ := hlane
    rw [if_pos ⟨rfl, hq⟩, if_pos ⟨rfl, rfl⟩]
  · rw [if_neg hlane, if_neg fun hx => hlane ⟨hx.1, rowReg_injective hp hr hq hx.2⟩]
    exact h e p q he hp hq

theorem PaintsRows.shadowMatchesChain {ops : List MicroOp} (hops : PaintsRows ops) {s : State} (hs : s.BetweenTransfers)
    (hl : ∀ o ∈ ops, o.illegal s.n = none) (h : s.ShadowMatchesChain) : (runAll ops s).ShadowMatchesChain := by
  have hkeep : (runAll ops s).n = s.n ∧ (runAll ops s).BetweenTransfers ∧ (runAll ops s).ShadowMatchesChain := by
    refine hops.keeps (P := fun u => u.n = s.n ∧ u.BetweenTransfers ∧ u.ShadowMatchesChain) ?_ ?_ ⟨rfl, hs, h⟩
    · rintro t op x u hmem hop ⟨hn, hu, hmatch⟩
      have ht : t < u.n.val := hn ▸ target_lt_of_legal (hl _ hmem)
      exact ⟨(MicroOp_run_n _ u).trans hn, hu.run _, hmatch.control hu ht hop⟩
    · rintro w d r x u hmem hr hw ⟨hn, hu, hmatch⟩
      have hd : d < u.n.val := hn ▸ target_lt_of_legal (hl _ hmem)
      exact ⟨by rw [MicroOp_run_n, MicroOp_run_n, hn], (hu.run _).run _, hmatch.row hu hd hr hw⟩
  exact hkeep.2.2

theorem initValue_row {r : Nat} (hr : r ≤ 7) {q : DevReg} (hq : rowReg r = some q) : initValue q = some 0x00#8 := by
  have h : ∀ r : Fin 8, (rowReg r).bind initValue = some 0x00#8 := by decide
  simpa [hq] using h ⟨r, by omega⟩

/-- A run of INIT clears the lanes and the digit registers of every device it initialises. -/
theorem InitEffect.shadowMatchesChain {s t : State} {n : Nat} (h : InitEffect s t n) (hs : s.params.hasShadow = true)
    (hw : s.chain.length = n) : t.ShadowMatchesChain := by
  intro d r q hd hr hq
  rw [h.length] at hd
  rw [h.device hw d q hd, h.shadow hs d r hd hr, initValue_row hr hq]
  rfl

/-- A command that is not INIT writes at once neither the shadow nor N. -/
theorem immediate_shadowMatchesChain {i : Instr} {c : Command} (hc : commandOf i = some c) (hi : ∀ a, i ≠ .init a) {s : State}
    (hsrf : s.srf.wf) (hfb : s.fb.wf) (hpins : s.PinsIdle) (hw : (c.immediate s).WiredRight) (h : s.ShadowMatchesChain) :
    (c.immediate s).BetweenTransfers ∧ (c.immediate s).ShadowMatchesChain := by
  obtain him | ⟨a, ha, -⟩ | ⟨-, him⟩ := commandOf_immediate hc s
  · rw [him] at hw ⊢
    exact ⟨⟨hsrf, hfb, hpins, hw⟩, h⟩
  · exact absurd ha (hi a)
  · rw [him] at hw ⊢
    exact ⟨⟨hsrf, hfb, hpins, hw⟩, h⟩

/-- Settles O44: INIT clears both sides, and the lists of the other commands keep them equal row by row. -/
theorem digitRegistersFollowTheShadow : Obligations.DigitRegistersFollowTheShadow := by
  unfold Obligations.DigitRegistersFollowTheShadow
  intro i s t hi hs hsrf hfb hpins ht hw h
  obtain ⟨c, hc⟩ := isHost_iff.mp hi
  cases ha : c.accepts s with
  | false =>
    obtain rfl := Host.Outcome.next.inj ((exec_dropped hc ha).symm.trans ht)
    refine h.resolve_right ?_
    rintro ⟨a, rfl, hinited⟩
    simp [(accepts_iff hc).mpr hinited] at ha
  | true =>
    obtain rfl := Host.Outcome.next.inj ((exec_accepted hc ha).symm.trans ht)
    rw [runAll_wiredRight] at hw
    by_cases hinit : ∃ a, i = .init a
    · obtain ⟨a, rfl⟩ := hinit
      obtain rfl := Option.some.inj hc
      exact (runAll_initEffect hsrf hfb hpins (one_le_clampLength a)).shadowMatchesChain hs hw
    · have hmatch := h.resolve_right fun ⟨a, hia, _⟩ => hinit ⟨a, hia⟩
      obtain ⟨hbetween, hbegin⟩ := immediate_shadowMatchesChain hc (fun a hia => hinit ⟨a, hia⟩) hsrf hfb hpins hw hmatch
      exact (commandOf_paintsRows hc hs ha).shadowMatchesChain hbetween (commandOf_legal hc ha) hbegin

end Sys2Proof.Machine
end

section
/-! No exception, no trap, no refusal (60_exceptions.md R220, R221, R228, R231): an instruction ends in a next state from every state,
a step from every state that meets the invariant; and what the power loss of one device changes (R242). -/

namespace Sys2Proof.Machine

/-! ### Instructions -/

/-- A wire opcode is a write of one device register, or nothing (42_wire_opcodes.md R150 to R166). -/
theorem exec_wire_next {i : Instr} (hc : commandOf i = none) (s : State) : ∃ t, exec i s = .next t := by
  cases i <;> simp only [commandOf, reduceCtorEq] at hc <;> exact ⟨_, rfl⟩

/-- A host command drops, or runs a list whose every entry may run (43_controller_config.md R175, R176). -/
theorem exec_command_next {i : Instr} {c : Command} (hc : commandOf i = some c) (s : State) : ∃ t, exec i s = .next t := by
  cases ha : c.accepts s with
  | false => exact ⟨_, exec_dropped hc ha⟩
  | true => exact ⟨_, exec_accepted hc ha⟩

/-- Settles O38: a wire opcode has nothing to refuse, and the list of an accepted command has no entry that may not run. -/
theorem everyInstructionEndsInANextState : Obligations.EveryInstructionEndsInANextState := by
  unfold Obligations.EveryInstructionEndsInANextState
  intro i s
  cases hc : commandOf i with
  | none => exact exec_wire_next hc s
  | some c => exact exec_command_next hc s

/-! ### Steps -/

/-- A word taken by an idle block runs as its instruction, or is illegal and drops. -/
theorem runWord_next (w : CmdWord) (s : State) : ∃ t, runWord w s = .next t := by
  cases hd : decodeCommand w with
  | ok i =>
    rw [runWord_ok hd]
    exact everyInstructionEndsInANextState i _
  | illegal e => exact ⟨_, (Drops.of_illegal ⟨e, hd⟩ s).runWord⟩

/-- A busy block that meets the invariant stands at an entry that may run, so its sequencer is never lost. -/
theorem State.Inv.smallStep_next {s : State} (h : s.Inv) (hb : s.busy = true) : ∃ t, smallStep s = .next t := by
  obtain ⟨c, op, hat, hpos, -⟩ := State.running_iff.mp (h.running hb)
  obtain ⟨t, hstep, -⟩ := hat.smallStep_next h.fbWf hb hpos
  exact ⟨t, hstep⟩

theorem State.Inv.advance_next {s : State} (h : s.Inv) : ∃ t, advance s = .next t := by
  unfold advance
  split
  next hb => exact h.smallStep_next hb
  next => exact ⟨s, rfl⟩

/-- Settles O39: reset, device power and the acceptance are never refused; a command is an instruction; and any other step is the
small step of a block that meets the invariant, or nothing. -/
theorem noStepStops : Obligations.NoStepStops := by
  unfold Obligations.NoStepStops
  intro s h
  unfold step stepBody
  cases hin : s.inputs with
  | nil => exact (h.withInput _ _).advance_next
  | cons event rest =>
    cases event with
    | reset => exact ⟨_, rfl⟩
    | devicePower d dev => exact ⟨_, rfl⟩
    | tick => exact (h.withInput _ _).advance_next
    | accept w =>
      dsimp only
      split
      · exact (h.withInput _ _).advance_next
      · exact ⟨_, rfl⟩
    | command w =>
      dsimp only
      split
      · exact (h.withInput _ _).advance_next
      · exact runWord_next w _

/-! ### Device power -/

@[simp] theorem devicePower_chain (d : Nat) (dev : Device) (s : State) : (devicePower d dev s).chain = s.chain.set d dev := rfl

theorem step_of_devicePower {s : State} {d : Nat} {dev : Device} {rest : List Input} (hin : s.inputs = .devicePower d dev :: rest) :
    step s = .next (devicePower d dev { s with rspValid := false, inputs := rest }) := by
  simp [step, stepBody, hin]

/-- Settles O54: the step is `devicePower`, which sets one place of the chain. -/
theorem devicePowerTouchesOneDevice : Obligations.DevicePowerTouchesOneDevice := by
  unfold Obligations.DevicePowerTouchesOneDevice
  intro s d dev rest hin
  refine ⟨_, step_of_devicePower hin, fun hd => ?_, fun e he => ?_, rfl, rfl, rfl⟩
  · rw [devicePower_chain, List.getElem?_set_self hd]
  · rw [devicePower_chain, List.getElem?_set_ne he.symm]

end Sys2Proof.Machine
end

section
/-! Reset (70_reset_and_hazards.md R250 to R252, R264): what it does to the pins and the chain, between frames and inside one. -/

namespace Sys2Proof.Machine

/-! ### Reset of the block -/

@[simp] theorem drivePin_din (p : Pin) (v : Bool) (s : State) : (drivePin p v s).din = if p = .din then v else s.din := by
  cases p with
  | cs => simp only [drivePin]; split <;> rfl
  | clk => simp only [drivePin]; split <;> rfl
  | din => rfl

theorem blockReset_din (s : State) : (blockReset s).din = false := by
  simp [blockReset]

/-- Of the three reset levels only a chip-select that was low makes an edge the chain acts on (70_reset_and_hazards.md R251). -/
theorem blockReset_chain (s : State) :
    (blockReset s).chain = if s.cs = false then (chainLatch s).chain else s.chain := by
  cases hcs : s.cs <;> simp [blockReset, drivePin, chainLatch, hcs]

theorem step_of_reset {s : State} {rest : List Input} (hin : s.inputs = .reset :: rest) :
    step s = .next (blockReset { s with rspValid := false, inputs := rest }) := by
  simp [step, stepBody, hin]

/-- Settles O52: the step is `blockReset`, whose pins and chain are given by their rules; it writes the other registers directly. -/
theorem resetTakesTheResetState : Obligations.ResetTakesTheResetState := by
  unfold Obligations.ResetTakesTheResetState
  intro s rest hin
  have hchain := blockReset_chain { s with rspValid := false, inputs := rest }
  obtain ⟨hcs, hclk⟩ := blockReset_pins { s with rspValid := false, inputs := rest }
  refine ⟨_, step_of_reset hin, rfl, rfl, fun _ _ => rfl, hcs, hclk, blockReset_din _, rfl, rfl, rfl, rfl, rfl, rfl,
    ?inputs, ?params, ?fb, ?cw, ?rsp, fun h => ?between, fun h => ?inside⟩
  case between => rw [hchain, if_neg (by simp [h])]
  case inside => rw [hchain, if_pos h]; rfl
  all_goals simp [blockReset]

/-! ### The first bits of a frame -/

/-- Cutting the pin writes of a list of bits after three for each of `j` bits keeps the first `j` bits. -/
theorem take_flatMap_bitPins {bits : List Bool} {j : Nat} (hj : j ≤ bits.length) (more : List PinWrite) :
    (bits.flatMap bitPins ++ more).take (3 * j) = (bits.take j).flatMap bitPins := by
  have hlen : ((bits.take j).flatMap bitPins).length = 3 * j := by
    simp [List.length_flatMap, bitPins, hj, mul_comm]
  calc (bits.flatMap bitPins ++ more).take (3 * j)
      = ((bits.take j).flatMap bitPins ++ ((bits.drop j).flatMap bitPins ++ more)).take (3 * j) := by
        rw [← List.append_assoc, ← List.flatMap_append, List.take_append_drop]
    _ = (bits.take j).flatMap bitPins := List.take_left' hlen

/-- A transfer up to its `j`-th clock pulse: chip-select falls, and the first `j` bits of the frame are sent. -/
theorem transferPins_take {n j : Nat} (hj : j ≤ 16 * n) (x : Transfer) : (transferPins n x).take (1 + 3 * j) =
    ⟨.cs, false⟩ :: (((List.range (16 * n)).map (frameBit n x)).take j).flatMap bitPins := by
  have hpins : transferPins n x =
      ⟨.cs, false⟩ :: (((List.range (16 * n)).map (frameBit n x)).flatMap bitPins ++ [⟨.cs, true⟩]) := by
    rw [List.flatMap_map]
    rfl
  rw [hpins, Nat.add_comm 1, List.take_succ_cons, take_flatMap_bitPins (by simpa using hj)]

/-- Clocking bits in moves CH on by as many places, with the bits behind it (41_bus_serializer.md R131). -/
theorem chainBits_shiftIn (bits : List Bool) (ds : List Device) :
    chainBits (shiftIn bits ds) = (chainBits ds ++ bits).drop bits.length := by
  induction bits generalizing ds with
  | nil => simp
  | cons b bits ih =>
    calc chainBits (shiftIn (b :: bits) ds)
        = ((chainBits ds ++ [b]).tail ++ bits).drop bits.length := by rw [shiftIn_cons, ih, chainBits_shiftDevices]
      _ = (chainBits ds ++ b :: bits).tail.drop bits.length := by
        rw [← List.tail_append_of_ne_nil (by simp), List.append_assoc, List.singleton_append]
      _ = (chainBits ds ++ b :: bits).drop (b :: bits).length := List.drop_tail

/-- Settles O53: the pin writes so far are chip-select and `j` bits, clocked in one by one; the reset then raises chip-select. -/
theorem resetInsideAFrameLatchesAPartialFrame : Obligations.ResetInsideAFrameLatchesAPartialFrame := by
  unfold Obligations.ResetInsideAFrameLatchesAPartialFrame
  intro s x j hclk _ hj
  have hlen : (((List.range (16 * s.n.val)).map (frameBit s.n.val x)).take j).length = j := by simpa using hj
  rw [transferPins_take hj, runPins_cons]
  generalize ((List.range (16 * s.n.val)).map (frameBit s.n.val x)).take j = bits at hlen ⊢
  have hstart : (pin ⟨.cs, false⟩ s).chain = s.chain := by simp [pin_chain]
  obtain ⟨hchain, -, hcs, -⟩ := runPins_bits bits (pin ⟨.cs, false⟩ s) (by simpa using hclk)
  rw [hstart] at hchain
  have hlow : (runPins (bits.flatMap bitPins) (pin ⟨.cs, false⟩ s)).cs = false := by simpa using hcs
  refine ⟨hlow, ?_, ?_, ?_, rfl, rfl⟩
  · rw [hchain, shiftIn_regs]
  · rw [hchain, chainBits_shiftIn, hlen]
  · rw [blockReset_chain, if_pos hlow]
    rfl

end Sys2Proof.Machine
end

section
/-! Hazards of the bus and of the registers behind it (70_reset_and_hazards.md R262, R263, R265, R268, R272): a frame on a chain of
any wired length, how much a command sends, and which registers only one command writes. -/

namespace Sys2Proof.Machine

/-! ### A chain of any wired length -/

/-- Settles O18: the pair a device holds after the frame is its own below `N`, and the one `N` places before it from `N` on. -/
theorem transferResultOnAnyChain : Obligations.TransferResultOnAnyChain := by
  unfold Obligations.TransferResultOnAnyChain
  intro s x hfb hclk _
  refine ⟨chain_length_xfer x s, fun d dev hdev => ⟨_, by rw [xfer_getElem hfb hclk, hdev, Option.map_some],
    fun hd => if_pos hd, fun hd => ?_⟩⟩
  obtain ⟨hwired, -⟩ := List.getElem?_eq_some_iff.mp hdev
  have hback : d - s.n.val < s.chain.length := by omega
  rw [if_neg (Nat.not_lt.mpr hd), State.shiftReg, List.getElem?_eq_getElem hback]
  rfl

/-! ### How many transfers and pin writes -/

/-- Each transfer of a list makes `48*N + 2` pin writes, whatever FB held (41_bus_serializer.md R130). -/
theorem runAll_pinTrace_length (ops : List MicroOp) (s : State) : (runAll ops s).pinTrace.length =
    s.pinTrace.length + (transfersOf ops s).length * (48 * s.n.val + 2) := by
  induction ops generalizing s with
  | nil => simp [transfersOf]
  | cons op ops ih =>
    have hop : (op.run s).pinTrace.length = s.pinTrace.length + (op.transfers s).length * (48 * s.n.val + 2) := by
      cases op with
      | shWrite d r w m => simp [MicroOp.run, MicroOp.transfers]
      | xfer t o data => simp [MicroOp.run, MicroOp.transfers, xfer_pinTrace, Nat.add_comm]
    rw [runAll_cons, ih, hop, MicroOp_run_n, transfersOf, List.length_append, Nat.add_mul, Nat.add_assoc]

theorem runAll_xferTrace_length (ops : List MicroOp) (s : State) :
    (runAll ops s).xferTrace.length = s.xferTrace.length + (transfersOf ops s).length := by
  simpa [State.xferLog] using congrArg List.length (runAll_xferLog ops s)

/-- Lists of `k` transfers each, one after another. -/
theorem transfersOf_flatMap_length {α : Type} {f : α → List MicroOp} {k : Nat} (h : ∀ a s, (transfersOf (f a) s).length = k)
    (l : List α) (s : State) : (transfersOf (l.flatMap f) s).length = k * l.length := by
  induction l generalizing s with
  | nil => rfl
  | cons a l ih =>
    rw [List.flatMap_cons, transfersOf_append, List.length_append, h, ih, List.length_cons, Nat.mul_succ, Nat.add_comm]

theorem rowOps_transfers_length (hs : Bool) (d r : Nat) (v : Byte) (s : State) :
    (transfersOf (rowOps hs d r v) s).length = 1 := by
  rw [rowOps_transfers]
  rfl

/-- The list of a command has the transfers of R272, whatever its operands. -/
theorem commandOf_transfers_length {i : Instr} {c : Command} (hi : commandOf i = some c) (s : State) :
    (transfersOf (c.ops s) s).length = transferCount s.n.val i := by
  cases i <;> simp only [commandOf, Option.some.injEq, reduceCtorEq] at hi <;> subst hi
  case init a =>
    refine (transfersOf_flatMap_length (k := 12) (fun d u => ?_) _ s).trans (by rw [List.length_range]; rfl)
    rw [initDeviceOps_transfers]
    rfl
  case clearDisplay a =>
    show (transfersOf (clearOps _ _) s).length = 8
    rw [clearOps_transfers]
    rfl
  case setColumn a b c =>
    exact transfersOf_flatMap_length (f := fun r => ledOps a.toNat r b.toNat (columnBit c r)) (k := 1) (fun _ _ => rfl) _ s
  case setRow a b c => exact rowOps_transfers_length _ _ _ _ s
  case setDigit a b c f => exact rowOps_transfers_length _ _ _ _ s
  case setChar a b c f => exact rowOps_transfers_length _ _ _ _ s
  all_goals rfl

/-! ### What a command writes at once -/

/-- In the step of its acceptance a command writes N, INITED and the response at most (43_controller_config.md R177, R182). -/
theorem immediate_eq {i : Instr} {c : Command} (hc : commandOf i = some c) (s : State) :
    ∃ n b r v, c.immediate s = { s with n := n, inited := b, rsp := r, rspValid := v } := by
  obtain him | ⟨a, -, him⟩ | ⟨-, him⟩ := commandOf_immediate hc s <;> rw [him]
  · exact ⟨s.n, s.inited, s.rsp, s.rspValid, rfl⟩
  · exact ⟨_, _, s.rsp, s.rspValid, rfl⟩
  · exact ⟨s.n, s.inited, _, _, rfl⟩

/-- Settles O47: the two logs grow by the transfers of the command's list and by their pin writes. -/
theorem stepCountsOfACommandThatRuns : Obligations.StepCountsOfACommandThatRuns := by
  unfold Obligations.StepCountsOfACommandThatRuns
  intro i c s t hc ha ht
  obtain rfl := Host.Outcome.next.inj ((exec_accepted hc ha).symm.trans ht)
  have hcount := commandOf_transfers_length hc (c.immediate s)
  obtain ⟨n, b, r, v, him⟩ := immediate_eq hc s
  have hxfers : (c.immediate s).xferTrace = s.xferTrace := by rw [him]
  have hpins : (c.immediate s).pinTrace = s.pinTrace := by rw [him]
  rw [runAll_n, runAll_xferTrace_length, runAll_pinTrace_length, hcount, hxfers, hpins]
  exact ⟨rfl, rfl⟩

/-! ### Registers of one writer -/

/-- With `P = N` a register whose opcode is in no entry of a list stays as it is, in every device. -/
theorem runAll_dreg_of_not_sent {s : State} (hfb : s.fb.wf) (hpins : s.PinsIdle) (hw : s.WiredRight) {ops : List MicroOp}
    (hl : ∀ o ∈ ops, o.illegal s.n = none) {a : DevReg}
    (hno : ∀ t op x, .xfer t op x ∈ ops → DevReg.ofOpcode op ≠ some a) (d : Nat) : (runAll ops s).dreg d a = s.dreg d a := by
  rw [runAll_dreg hfb hpins hw hl, lastWritten_eq_none, Option.none_or]
  intro x hx
  obtain ⟨data, hmem⟩ := mem_transfersOf hx
  exact if_neg fun h => hno _ _ _ hmem h.2

/-- With `P = N` at the end a host command leaves the registers whose opcode it may not send (42_wire_opcodes.md R167). -/
theorem exec_host_dreg_of_not_sent {i : Instr} (hi : i.isHost = true) {s t : State} (hfb : s.fb.wf) (hpins : s.PinsIdle)
    (ht : exec i s = .next t) (hw : t.WiredRight) {a : DevReg} (hno : ∀ op x, MaySend i op x → DevReg.ofOpcode op ≠ some a)
    (d : Nat) : t.dreg d a = s.dreg d a := by
  obtain ⟨c, hc⟩ := isHost_iff.mp hi
  cases ha : c.accepts s with
  | false =>
    obtain rfl := Host.Outcome.next.inj ((exec_dropped hc ha).symm.trans ht)
    rfl
  | true =>
    obtain rfl := Host.Outcome.next.inj ((exec_accepted hc ha).symm.trans ht)
    have hl := commandOf_legal hc ha
    have hsend := commandOf_sendsOnly hc ha
    obtain ⟨n, b, r, v, him⟩ := immediate_eq hc s
    rw [runAll_wiredRight] at hw
    rw [him] at hw hl hsend ⊢
    exact runAll_dreg_of_not_sent (s := { s with n := n, inited := b, rsp := r, rspValid := v }) hfb hpins hw hl
      (fun u op x hmem => hno op x (hsend u op x hmem)) d

/-- Settles O51: opcode 10 is SETINTENSITY's alone, opcodes 9 and 15 are INIT's. -/
theorem someDeviceRegistersHaveOneWriter : Obligations.SomeDeviceRegistersHaveOneWriter := by
  unfold Obligations.SomeDeviceRegistersHaveOneWriter
  intro i s t d hi hfb hpins ht hw
  have keeps {a : DevReg} (hno : ∀ op x, MaySend i op x → DevReg.ofOpcode op ≠ some a) : t.dreg d a = s.dreg d a :=
    exec_host_dreg_of_not_sent hi hfb hpins ht hw hno d
  refine ⟨fun hne => keeps fun op x hsend ha => ?_, fun hne =>
    ⟨keeps fun op x hsend ha => ?_, keeps fun op x hsend ha => ?_⟩⟩
  · obtain ⟨e, v, he, -⟩ := hsend.setIntensity_of_intensity (ofOpcode_injective ha rfl)
    exact hne e v he
  · obtain ⟨⟨e, he⟩, -⟩ := hsend.init_of_control (.inl (ofOpcode_injective ha rfl))
    exact hne e he
  · obtain ⟨⟨e, he⟩, -⟩ := hsend.init_of_control (.inr (ofOpcode_injective ha rfl))
    exact hne e he

end Sys2Proof.Machine
end
